-- ==== Sys2Proof/Word.lean ====
section
/-! DEFINITION. The word types of sensehat-CORE (00_scope.md R13, R14): unsigned integers of 8, 16 and 32 bits. -/

namespace Sys2Proof

/-- `u8`: a colour channel, a framebuffer byte, a sensor register byte. -/
abbrev Byte := BitVec 8

/-- `u16`: a packed colour, a raw reading, an `imm16` operand. -/
abbrev Half := BitVec 16

/-- `u32`: a command word, a result register. -/
abbrev Word := BitVec 32

end Sys2Proof
end

