-- ==== Sys2Proof/Config.lean ====
section
/-! DEFINITION. The parameters of the hardware (00_scope.md R8, 20_memory.md R61) as plain data, the values the spec leaves
open, and the free values. The machine holds one `Config` in its state and no step changes it (log entry 10). -/

namespace Sys2Proof

/-- R61: which oracle answers the bus primitives. -/
inductive Backend where
  /-- The real sensor: every answer is an input of the step. -/
  | device
  /-- The fixture: every `BusWrite` answers ok, every `BusRead16` of a data register its fixed value. -/
  | fixture (clear red green blue : Half)
  deriving DecidableEq, Repr

/-- The named parameters of R8. The types refuse what U13 refuses: `FBLEN` is `128 + fbExtra`, so never below 128; a wire
code is a byte; `MAX_RAW` has an entry for each of 1..256 and each is below 2^32. `SETTLE_INTEG_US` is a value that `TIMING`
can hold (log entry 21). -/
structure Config where
  fbExtra : Nat
  sensorAddr : BitVec 7
  gainTable : List (Nat × Byte)
  maxRaw : Vector Word 256
  settleIntegUs : Word
  settlePonUs : Nat
  enPon : Byte
  enAen : Byte
  backend : Backend
  deriving DecidableEq, Repr

/-- R8, R50: `FBLEN >= 128`. -/
def Config.fbLen (c : Config) : Nat := 128 + c.fbExtra

/-- R171: the levels are positive and distinct. (The other bounds of U13 hold by type.) -/
abbrev Config.wf (c : Config) : Prop :=
  (c.gainTable.map Prod.fst).Nodup ∧ ∀ p ∈ c.gainTable, 0 < p.1

/-- R185: the property `MaxRawMonotone`, which a claim may assume and no rule uses. -/
abbrev Config.MaxRawMonotone (c : Config) : Prop :=
  ∀ i j : Fin 256, i ≤ j → (c.maxRaw.get i).toNat ≤ (c.maxRaw.get j).toNat

/-- Open parameter (R8, D19): `MAX_RAW` has no formula and no default (log entry 8). -/
opaque Config.openMaxRaw : Nat → Word

/-- Open parameter (R59, D16): `SENSOR_ADDR` has no value (log entry 9). -/
opaque Config.openSensorAddr : BitVec 7

/-- Free value: `MAX_RAW` of a cycle count outside 1..256, where R185 does not define it (log entry 8). -/
opaque Config.maxRawOutside : Nat → Word

/-- Free value (R57, U2): a byte of the cell whose write failed (log entry 7). -/
opaque Config.freeByte : Nat → Byte

/-- Free value (R60, U3): the data of a bus read for which no data is queued (log entry 5). -/
opaque Config.freeBusData : Nat → Half

/-- Free value (R62, U8): a channel of an image sample for which none is queued (log entry 6). -/
opaque Config.freeChannel : Nat → Half

/-- Free value (R32, R233, U4): what the host's read number `k` of the register number `rn` returns while that register holds
`none`, right after reset or after an error (log entries 2 and 24). -/
opaque Config.freeRead (k rn : Nat) : Word

/-- R8: the defaults, with the two open parameters left open. The gain codes and the enable bits are PRESUMED (G1, G2 of
93_implementation_defined.md; log entry 11). DESIGN CHOICE (log entry 20): the backend is the device; R61 and R235 leave it
to construction time and name no default. -/
def Config.standard : Config where
  fbExtra := 0
  sensorAddr := Config.openSensorAddr
  gainTable := [(1, 0x00), (4, 0x01), (16, 0x02), (60, 0x03)]
  maxRaw := Vector.ofFn fun i => Config.openMaxRaw (i.val + 1)
  settleIntegUs := 24000
  settlePonUs := 2400
  enPon := 0x01
  enAen := 0x02
  backend := .device

end Sys2Proof
end

