-- ==== Sys2Proof/Machine/Tables.lean ====
section
/-! DEFINITION. The functions that build the orientation maps (41_mapper.md R120 to R124), which reset computes
(70_reset_and_hazards.md R231). -/

namespace Sys2Proof.Machine

/-- The four angles for which `rotate` is defined (R121); it is given no other (U12). -/
inductive Rotation where
  | r0 | r90 | r180 | r270
  deriving DecidableEq, Repr

/-- A sequence of 64 entries seen as an 8 by 8 grid, row-major: entry `(row, col)`, each taken modulo 8. -/
def gridAt {α : Type} (m : Vector α 64) (row col : Nat) : α := m.get (Fin.ofNat 64 (row % 8 * 8 + col % 8))

/-- R121, read the other way round: entry `(r, c)` of the result, for any sequence of 64 entries. -/
def rotate {α : Type} (m : Vector α 64) (d : Rotation) : Vector α 64 :=
  Vector.ofFn fun i : Fin 64 =>
    match d with
    | .r0 => gridAt m (i.val / 8) (i.val % 8)
    | .r90 => gridAt m (7 - i.val % 8) (i.val / 8)
    | .r180 => gridAt m (7 - i.val / 8) (7 - i.val % 8)
    | .r270 => gridAt m (i.val % 8) (7 - i.val / 8)

/-- R120: the row-major index sequence 0..63, each entry 6 bits (10_state.md R30). -/
def identityMap : Vector (BitVec 6) 64 := Vector.ofFn fun i : Fin 64 => BitVec.ofNat 6 i.val

/-- The angle of table `s` (R30: table s belongs to rotation `90*s` degrees). -/
def rotationOf : Fin 4 → Rotation
  | 0 => .r0
  | 1 => .r90
  | 2 => .r180
  | 3 => .r270

/-- R123: `OMAP[s] = rotate(identity(), 90*s)`. -/
def omapTables : Vector (Vector (BitVec 6) 64) 4 :=
  Vector.ofFn fun s : Fin 4 => rotate identityMap (rotationOf s)

end Sys2Proof.Machine
end

