-- ==== Sys2Proof/Machine/State.lean ====
section
/-! DEFINITION. The state of the machine as plain data (10_state.md R20 to R36), the ports' answers and events
(20_memory.md R55, R60, R62, R66), the reasons a step can stop, and the state after reset. -/

namespace Sys2Proof.Machine

/-- The error kinds of 60_exceptions.md R200 (codes 1 to 10; 0 is success). -/
inductive ErrKind where
  | outOfRange
  | invalidLength
  | invalidRotation
  | deviceIOError
  | invalidGain
  | invalidIntegrationCycles
  | sensorRangeError
  | imageNotFound
  | imageDecodeError
  | illegalCommand
  deriving DecidableEq, Repr

/-- What a framebuffer or bus request gets (R55, R60): an answer `ok`, an answer `fail` with its opaque cause, or no answer
ever. -/
inductive PortAnswer where
  | ok
  | fail (cause : Word)
  | stall
  deriving DecidableEq, Repr

/-- What `ImgOpen` gets (R62). -/
inductive ImgAnswer where
  | ok
  | notFound
  | decodeError
  deriving DecidableEq, Repr

/-- One sample of the decoded image: four unsigned 16-bit channels (R62). -/
structure Sample where
  r16 : Half
  g16 : Half
  b16 : Half
  a16 : Half
  deriving DecidableEq, Repr

/-- An answer as the event trace records it: `ok` with what came back, or `fail` with the cause. -/
inductive Answer (α : Type) where
  | ok (a : α)
  | fail (cause : Word)
  deriving DecidableEq, Repr

/-- The events of R66. A bus event also carries the device address it was sent to (R59; log entry 9). -/
inductive Event where
  | fbAcquire (a : Answer Unit)
  | fbRead (off : Nat) (a : Answer Half)
  | fbWrite (off : Nat) (v : Half) (a : Answer Unit)
  | fbRelease
  | busWrite (dev : BitVec 7) (reg b : Byte) (a : Answer Unit)
  | busRead16 (dev : BitVec 7) (reg : Byte) (a : Answer Half)
  | imgOpen (src : Half) (a : ImgAnswer)
  | imgSample (x y : Nat) (a : Sample)
  | delay (us : Nat)
  deriving DecidableEq, Repr

/-- The answers the outside will give, oldest first: inputs of the step held as plain data (log entry 4). An empty queue of
answers answers ok; an empty queue of data gives free values (log entries 5 and 6). -/
structure Ports where
  fb : List PortAnswer
  bus : List PortAnswer
  busData : List Half
  imgOpen : List ImgAnswer
  imgSamples : List Sample
  deriving DecidableEq, Repr

/-- The framebuffer: (offset, byte) pairs, offsets strictly rising, no entry equal to what an unlisted offset reads as. -/
abbrev Memory := List Host.Cell

/-- What a byte that is not listed reads as. DESIGN CHOICE (log entry 3): 0x00; the spec leaves the framebuffer's prior
content open (U1). -/
def Memory.unlisted : Byte := 0x00

/-- Everything the spec gives the machine (10_state.md R20), the framebuffer (R50), the trace (R66), the inputs of the step
(words, configuration, port answers), and the counter of free values, which is the model's own. `none` in a register is the
spec's own content "no value" (00_scope.md R14). -/
structure State where
  err : Byte
  errLog : Half
  errCause : Word
  rot : Option Half
  gain : Option Half
  cycles : Option Half
  timing : Option Word
  d0 : Option Word
  d1 : Option Word
  d2 : Option Word
  d3 : Option Word
  pbuf : Vector (Option (BitVec 24)) 64
  omap : Vector (Vector (BitVec 6) 64) 4
  cp : Nat
  mem : Memory
  trace : List Event
  words : List Word
  cfg : Config
  ports : Ports
  freeCount : Nat
  deriving DecidableEq, Repr

/-- Why the machine stops. Each reason carries the state it leaves, with the effects made before the stop. -/
inductive Fault where
  /-- Raised by a command that reads `ROT` or `CYCLES` while it holds `none` (00_scope.md R12, 60_exceptions.md R206, R233, U5:
  "the run stops"). The host's read of a register that holds `none` returns a free value (`regRead`); `regReadOrFault` is the
  same read as R32 and U4 ask of a model, with this fault. Safe: the model stops where the hardware would use some bits. From `State.reset` no command reaches it
  (log entries 1, 22 and 24). -/
  | unwrittenState (left : State)
  /-- Raised by a command whose port request is never answered (R207, R248): stuck, the command never completes. Safe: no
  later step is claimed. -/
  | stuckPort (left : State)
  /-- Raised by a step at a command whose words have not all arrived (30_encoding.md R88): stuck, nothing executed. Safe: the
  model stops where the hardware waits. -/
  | incompleteCommand (left : State)
  deriving DecidableEq, Repr

/-- Why a step has no meaning. -/
inductive Refusal where
  /-- Raised by `exec` alone, for a command that has no meaning yet; none is left. Safe. -/
  | notModelled (mnemonic : String)
  deriving DecidableEq, Repr

/-- What a command answers. -/
abbrev Out := Host.Outcome State Fault Refusal

/-- All 64 entries of `PBUF` without a value. -/
def noPixels : Vector (Option (BitVec 24)) 64 := Vector.replicate 64 none

/-- The state right after reset (10_state.md R36, 70_reset_and_hazards.md R230 to R232). DESIGN CHOICE (log entry 1): `ROT`,
`GAIN`, `CYCLES` and `TIMING`, which R36 leaves unspecified, hold values here. -/
def State.reset : State where
  err := 0
  errLog := 0
  errCause := 0
  rot := some 0
  gain := some 1
  cycles := some 1
  timing := some 24000
  d0 := none
  d1 := none
  d2 := none
  d3 := none
  pbuf := noPixels
  omap := omapTables
  cp := 0
  mem := []
  trace := []
  words := []
  cfg := Config.standard
  ports := ⟨[], [], [], [], []⟩
  freeCount := 0

/-- The state that the table of R36 prints, letter for letter: `State.reset` with the four registers that R36 leaves
unspecified holding `none`. The worked vectors of 95_test_vectors.md start here. -/
def State.resetWithoutValues : State :=
  { State.reset with rot := none, gain := none, cycles := none, timing := none }

end Sys2Proof.Machine
end

