-- ==== Sys2Proof/Machine/Flags.lean ====
section
/-! DEFINITION. The status registers (10_state.md R25 to R27): how a completed command writes `ERR`, `ERRLOG` and
`ERRCAUSE` (60_exceptions.md R200, R203). They are the only flags of this hardware. -/

namespace Sys2Proof.Machine

/-- The error codes of R200. -/
def ErrKind.code : ErrKind → Byte
  | .outOfRange => 1
  | .invalidLength => 2
  | .invalidRotation => 3
  | .deviceIOError => 4
  | .invalidGain => 5
  | .invalidIntegrationCycles => 6
  | .sensorRangeError => 7
  | .imageNotFound => 8
  | .imageDecodeError => 9
  | .illegalCommand => 10

/-- The bit of `ERRLOG` that stands for a kind: bit k for code k (R26). -/
def ErrKind.logBit (k : ErrKind) : Half := 1#16 <<< k.code.toNat

/-- Status of a command that succeeded: `ERR <- 0`, `ERRCAUSE <- 0`, `ERRLOG` left alone (R203). -/
def State.statusOk (s : State) : State := { s with err := 0, errCause := 0 }

/-- Status of a command that ended in an error: the code, its log bit, and the cause for DeviceIOError only (R203). -/
def State.statusErr (s : State) (k : ErrKind) (cause : Word) : State :=
  { s with err := k.code, errLog := s.errLog ||| k.logBit, errCause := if k = .deviceIOError then cause else 0 }

end Sys2Proof.Machine
end

