-- ==== Sys2Proof/Machine/Ops.lean ====
section
/-! DEFINITION. The named operations over the state: the framebuffer's bytes, the event trace, the three ports
(20_memory.md R54 to R62), the delay, and the two ways a command completes: success, and `raise` (60_exceptions.md R203),
which is all the exception taking this hardware has. There is no return from an exception (R212). -/

namespace Sys2Proof.Machine

/-! ### The framebuffer's bytes (R50, R51) -/

/-- The byte at an offset. -/
def memGet : Memory → Nat → Byte
  | [], _ => Memory.unlisted
  | (k, v) :: t, a => if a = k then v else memGet t a

/-- Write one byte, keeping the canonical form: sorted, and no entry equal to what an unlisted byte reads as. -/
def memSet : Memory → Nat → Byte → Memory
  | [], a, b => if b = Memory.unlisted then [] else [(a, b)]
  | (k, v) :: t, a, b =>
    if a < k then (if b = Memory.unlisted then (k, v) :: t else (a, b) :: (k, v) :: t)
    else if a = k then (if b = Memory.unlisted then t else (a, b) :: t)
    else (k, v) :: memSet t a b

/-- The canonical form. -/
abbrev Memory.wf (m : Memory) : Prop :=
  m.Pairwise (fun p q => p.1 < q.1) ∧ ∀ c ∈ m, c.2 ≠ Memory.unlisted

/-- `v[7:0]`, the byte at the cell's offset (R51). -/
def cellLo (v : Half) : Byte := v.extractLsb' 0 8

/-- `v[15:8]`, the byte at the offset after it (R51). -/
def cellHi (v : Half) : Byte := v.extractLsb' 8 8

/-- `FB[off] | (FB[off+1] << 8)` (R51, R56). -/
def memCell (m : Memory) (off : Nat) : Half := memGet m (off + 1) ++ memGet m off

/-- The two bytes of a cell written at once (R51, R57). -/
def memSetCell (m : Memory) (off : Nat) (v : Half) : Memory :=
  memSet (memSet m off (cellLo v)) (off + 1) (cellHi v)

/-! ### Trace and completion -/

/-- Append an event to the trace (R66). -/
def State.log (s : State) (e : Event) : State := { s with trace := s.trace ++ [e] }

/-- The result registers that a command's rule names (10_state.md R28, R29). -/
inductive Results where
  | nothing
  | d0
  | d0d1
  | d0d1d2
  | d0d1d2d3
  | pbuf
  deriving DecidableEq, Repr

/-- Every result register the command names becomes `none` (R203). -/
def State.dropResults (s : State) : Results → State
  | .nothing => s
  | .d0 => { s with d0 := none }
  | .d0d1 => { s with d0 := none, d1 := none }
  | .d0d1d2 => { s with d0 := none, d1 := none, d2 := none }
  | .d0d1d2d3 => { s with d0 := none, d1 := none, d2 := none, d3 := none }
  | .pbuf => { s with pbuf := noPixels }

/-- The command pointer moves past the `len` words of the command (30_encoding.md R84). -/
def State.advance (s : State) (len : Nat) : State := { s with cp := s.cp + len }

/-- A command of `len` words completes with success (R203). -/
def State.succeed (s : State) (len : Nat) : State := s.statusOk.advance len

/-- `raise E(cause)` (R203): the one way a command of `len` words that names the result registers `named` ends in an
error. The release of the framebuffer port comes before it, in `withFb`. -/
def State.raise (s : State) (k : ErrKind) (cause : Word) (named : Results) (len : Nat) : State :=
  ((s.statusErr k cause).dropResults named).advance len

/-- Where the work of a command stands: going on with a value, ended in an error, stuck on a port, or at a read of a
register that holds no value. -/
inductive Res (α : Type) where
  | ok (a : α) (s : State)
  | err (k : ErrKind) (cause : Word) (s : State)
  | stall (s : State)
  | unwritten (s : State)
  deriving DecidableEq, Repr

/-- Go on with the next part of the work. -/
def Res.bind {α β : Type} : Res α → (α → State → Res β) → Res β
  | .ok a s, f => f a s
  | .err k c s, _ => .err k c s
  | .stall s, _ => .stall s
  | .unwritten s, _ => .unwritten s

/-- The command completes (00_scope.md R12): `write` puts the value into the result registers and registers the rule
names, then success; or the error is raised; or the machine stops with the state it left (R12's two outcomes that do not
complete: `stuck`, R207, and `fault(UnwrittenState)`, R206, "a model stops the run with a fault"). -/
def Res.finish {α : Type} (len : Nat) (named : Results) (write : α → State → State) : Res α → Out
  | .ok a s => .next ((write a s).succeed len)
  | .err k c s => .next (s.raise k c named len)
  | .stall s => .fault (.stuckPort s)
  | .unwritten s => .fault (.unwrittenState s)

/-! ### The framebuffer port (R54 to R57) -/

/-- The next answer of the framebuffer port, taken from its queue; an empty queue answers ok. -/
def State.nextFb (s : State) : PortAnswer × State :=
  (s.ports.fb.headD .ok, { s with ports := { s.ports with fb := s.ports.fb.tail } })

/-- `FbAcquire()` (R54). A request that stalls has no answer, so no event records it. -/
def fbAcquire (s : State) : Res Unit :=
  match s.nextFb with
  | (.ok, t) => .ok () (t.log (.fbAcquire (.ok ())))
  | (.fail c, t) => .err .deviceIOError c (t.log (.fbAcquire (.fail c)))
  | (.stall, t) => .stall t

/-- `FbRelease()` (R54): it cannot fail. -/
def fbRelease (s : State) : State := s.log .fbRelease

/-- `MemRead(off, 2)` (R56). -/
def memRead (off : Nat) (s : State) : Res Half :=
  match s.nextFb with
  | (.ok, t) => .ok (memCell t.mem off) (t.log (.fbRead off (.ok (memCell t.mem off))))
  | (.fail c, t) => .err .deviceIOError c (t.log (.fbRead off (.fail c)))
  | (.stall, t) => .stall t

/-- The two bytes of a cell whose write failed hold free values (R57, U2; log entry 7). -/
def State.spoilCell (s : State) (off : Nat) : State :=
  { s with
    mem := memSet (memSet s.mem off (Config.freeByte s.freeCount)) (off + 1) (Config.freeByte (s.freeCount + 1))
    freeCount := s.freeCount + 2 }

/-- `MemWrite(off, 2, v)` (R57). -/
def memWrite (off : Nat) (v : Half) (s : State) : Res Unit :=
  match s.nextFb with
  | (.ok, t) => .ok () ({ t with mem := memSetCell t.mem off v }.log (.fbWrite off v (.ok ())))
  | (.fail c, t) => .err .deviceIOError c ((t.spoilCell off).log (.fbWrite off v (.fail c)))
  | (.stall, t) => .stall t

/-- The release that follows the accesses: on every exit path on which the port answered (R54). A stuck command never
comes to it. -/
def Res.release {α : Type} : Res α → Res α
  | .ok a s => .ok a (fbRelease s)
  | .err k c s => .err k c (fbRelease s)
  | .stall s => .stall s
  | .unwritten s => .unwritten s

/-- The framebuffer port around the accesses of one command (R54): acquire, the accesses, release. A failing acquire
acquired nothing, so nothing is released. -/
def withFb {α : Type} (body : State → Res α) (s : State) : Res α :=
  (fbAcquire s).bind fun _ t => (body t).release

/-! ### The sensor bus (R58 to R61) -/

/-- 0x80, enable. -/
def regEnable : Byte := 0x80
/-- 0x81, integration time. -/
def regIntegration : Byte := 0x81
/-- 0x8F, gain and control. -/
def regGain : Byte := 0x8F
/-- 0x92, ID: accessed by no command (R58). -/
def regId : Byte := 0x92
/-- 0x93, status: accessed by no command (R58). -/
def regStatus : Byte := 0x93
/-- 0x94, clear data. -/
def regClear : Byte := 0x94
/-- 0x96, red data. -/
def regRed : Byte := 0x96
/-- 0x98, green data. -/
def regGreen : Byte := 0x98
/-- 0x9A, blue data. -/
def regBlue : Byte := 0x9A

/-- The next answer of the bus: ok from the fixture (R61), else from the queue, an empty queue answering ok. -/
def State.nextBus (s : State) : PortAnswer × State :=
  match s.cfg.backend with
  | .fixture _ _ _ _ => (.ok, s)
  | .device => (s.ports.bus.headD .ok, { s with ports := { s.ports with bus := s.ports.bus.tail } })

/-- What a bus read that answers ok brings: the next queued value, else a free value (R60, U3; log entry 5). -/
def State.queuedData (s : State) : Half × State :=
  match s.ports.busData with
  | v :: rest => (v, { s with ports := { s.ports with busData := rest } })
  | [] => (Config.freeBusData s.freeCount, { s with freeCount := s.freeCount + 1 })

/-- The data of a read of `reg`: the fixture's fixed value for a data register (R61), else what the device brings. -/
def State.nextData (s : State) (reg : Byte) : Half × State :=
  match s.cfg.backend with
  | .device => s.queuedData
  | .fixture c r g b =>
    if reg = regClear then (c, s)
    else if reg = regRed then (r, s)
    else if reg = regGreen then (g, s)
    else if reg = regBlue then (b, s)
    else s.queuedData

/-- `BusWrite(reg, b)` (R60), addressed to `SENSOR_ADDR` (R59). -/
def busWrite (reg b : Byte) (s : State) : Res Unit :=
  match s.nextBus with
  | (.ok, t) => .ok () (t.log (.busWrite t.cfg.sensorAddr reg b (.ok ())))
  | (.fail c, t) => .err .deviceIOError c (t.log (.busWrite t.cfg.sensorAddr reg b (.fail c)))
  | (.stall, t) => .stall t

/-- `BusRead16(reg)` (R60): the data is an input of the step. -/
def busRead16 (reg : Byte) (s : State) : Res Half :=
  match s.nextBus with
  | (.ok, t) => .ok (t.nextData reg).1 ((t.nextData reg).2.log (.busRead16 t.cfg.sensorAddr reg (.ok (t.nextData reg).1)))
  | (.fail c, t) => .err .deviceIOError c (t.log (.busRead16 t.cfg.sensorAddr reg (.fail c)))
  | (.stall, t) => .stall t

/-! ### The image port (R62) -/

/-- The next answer to an `ImgOpen`, taken from its queue; an empty queue answers ok. -/
def State.nextImg (s : State) : ImgAnswer × State :=
  (s.ports.imgOpen.headD .ok, { s with ports := { s.ports with imgOpen := s.ports.imgOpen.tail } })

/-- `ImgOpen(src)` (R62), with the error LDIMG raises for each answer (42_frame.md R152). -/
def imgOpen (src : Half) (s : State) : Res Unit :=
  match s.nextImg with
  | (.ok, t) => .ok () (t.log (.imgOpen src .ok))
  | (.notFound, t) => .err .imageNotFound 0 (t.log (.imgOpen src .notFound))
  | (.decodeError, t) => .err .imageDecodeError 0 (t.log (.imgOpen src .decodeError))

/-- The next sample: queued, else four free values (R62, U8; log entry 6). A sample request cannot fail or stall (D25). -/
def State.nextSample (s : State) : Sample × State :=
  match s.ports.imgSamples with
  | p :: rest => (p, { s with ports := { s.ports with imgSamples := rest } })
  | [] =>
    (⟨Config.freeChannel s.freeCount, Config.freeChannel (s.freeCount + 1), Config.freeChannel (s.freeCount + 2),
      Config.freeChannel (s.freeCount + 3)⟩, { s with freeCount := s.freeCount + 4 })

/-- `ImgSample(x, y)` (R62). -/
def imgSample (x y : Nat) (s : State) : Sample × State :=
  (s.nextSample.1, s.nextSample.2.log (.imgSample x y s.nextSample.1))

/-! ### Delay -/

/-- `Delay(us)` (70_reset_and_hazards.md R243): recorded, not timed. -/
def delay (us : Nat) (s : State) : State := s.log (.delay us)

end Sys2Proof.Machine
end

