-- ==== Sys2Proof/Syntax.lean ====
section
/-! DEFINITION. The commands as data (30_encoding.md R92): one constructor per row of the opcode table, and the two
pseudo-instructions of R91. -/

namespace Sys2Proof

/-- `RGB` (00_scope.md R14): three independent 8-bit unsigned channels. -/
structure RGB where
  r : Byte
  g : Byte
  b : Byte
  deriving DecidableEq, Repr

/-- The sixteen commands, with the operands and widths of R86. Signed operands (`x`, `y`, `level`, `cycles`) are held as
their bits and read as two's complement where a rule compares them. -/
inductive Instr where
  | pack (c : RGB)
  | unpack (v : Half)
  | setrot (deg : Half)
  | mapxy (x y : Byte)
  | getpixel (x y : Byte)
  | setpixel (x y : Byte) (c : RGB)
  | setpixels (cs : List RGB)
  | getpixels
  | clear (c : RGB)
  | ldimg (src : Half) (redraw : Bool)
  | setgain (level : Half)
  | setinteg (cycles : Half)
  | enable (on : Bool)
  | getraw
  | maxraw
  | torgb (red green blue clear : Half)
  deriving DecidableEq, Repr

/-- R91: `CLEAR` with no operand is `CLEAR (0, 0, 0)`. -/
abbrev Instr.clearBlack : Instr := .clear ⟨0, 0, 0⟩

/-- R91: `DISABLE` is `ENABLE 0`. -/
abbrev Instr.disable : Instr := .enable false

end Sys2Proof
end

