-- ==== Sys2Proof/Machine/Codec.lean ====
section
/-! DEFINITION. The ColorCodec family (40_codec.md): the functions `pack` and `unpack`, and the commands PACK and UNPACK. -/

namespace Sys2Proof.Machine

/-- R110: `(r5 << 11) | (g6 << 5) | b5`, low channel bits dropped. -/
def pack (c : RGB) : Half :=
  let r5 := (c.r >>> 3) &&& 0x1F#8
  let g6 := (c.g >>> 2) &&& 0x3F#8
  let b5 := (c.b >>> 3) &&& 0x1F#8
  (r5.setWidth 16 <<< 11) ||| (g6.setWidth 16 <<< 5) ||| b5.setWidth 16

/-- R111: MSB-replicate of each lane. -/
def unpack (v : Half) : RGB :=
  let r5 := ((v >>> 11) &&& 0x1F#16).setWidth 8
  let g6 := ((v >>> 5) &&& 0x3F#16).setWidth 8
  let b5 := (v &&& 0x1F#16).setWidth 8
  ⟨(r5 <<< 3) ||| (r5 >>> 2), (g6 <<< 2) ||| (g6 >>> 4), (b5 <<< 3) ||| (b5 >>> 2)⟩

/-- `RGB24(c)` (00_scope.md R14): R in bits 23:16, G in 15:8, B in 7:0. -/
def rgb24 (c : RGB) : BitVec 24 := c.r ++ c.g ++ c.b

/-- PACK (R112). -/
def execPack (c : RGB) (s : State) : Out :=
  .next ({ s with d0 := some ((pack c).setWidth 32) }.succeed 1)

/-- UNPACK (R113). -/
def execUnpack (v : Half) (s : State) : Out :=
  .next ({ s with d0 := some ((rgb24 (unpack v)).setWidth 32) }.succeed 1)

/-- A command the decoder calls illegal (30_encoding.md R87): consumed whole, IllegalCommand raised, nothing else. -/
def execIllegal (len : Nat) (s : State) : Out :=
  .next (s.raise .illegalCommand 0 .nothing len)

end Sys2Proof.Machine
end

