-- ==== Sys2Proof/Machine/Operands.lean ====
section
/-! DEFINITION. The operand forms: signed coordinates and their range check, the rotation selector (41_mapper.md R127), the
one addressing mode (42_frame.md R140, R141), and the reads of `ROT` and `CYCLES` (60_exceptions.md R206). -/

namespace Sys2Proof.Machine

/-- R140 step 1: a coordinate field, read as two's complement, lies in 0..7. -/
def coordOk (x : Byte) : Bool := decide (0 ≤ x.toInt ∧ x.toInt ≤ 7)

/-- R127: the table number of a rotation value; none for an unsupported value. -/
def sel (rot : Half) : Option (Fin 4) :=
  if rot = 0#16 then some 0
  else if rot = 90#16 then some 1
  else if rot = 180#16 then some 2
  else if rot = 270#16 then some 3
  else none

/-- Select the orientation map for the present rotation (R127, R140 step 2): UnwrittenState if `ROT` holds `none`,
InvalidRotation if its value is unsupported. No port request. -/
def selectTable (s : State) : Res (Vector (BitVec 6) 64) :=
  match s.rot with
  | none => .unwritten s
  | some r =>
    match sel r with
    | none => .err .invalidRotation 0 s
    | some k => .ok (s.omap.get k) s

/-- R141: `L = y*8 + x`. Modulo 64, which changes nothing for coordinates in 0..7; for others it is never computed. -/
def logicalIndex (x y : Byte) : Fin 64 := Fin.ofNat 64 (y.toNat * 8 + x.toNat)

/-- R141: `off = P*2`. -/
def byteOffset (p : BitVec 6) : Nat := p.toNat * 2

/-- `address(x, y)` (R140, R141): the coordinates are checked first, then the rotation is read; the result is the physical
cell index. -/
def address (x y : Byte) (s : State) : Res (BitVec 6) :=
  if coordOk x && coordOk y then
    (selectTable s).bind fun tbl t => .ok (tbl.get (logicalIndex x y)) t
  else .err .outOfRange 0 s

/-- The value of `CYCLES` (R186, R188): UnwrittenState if it holds `none`. -/
def readCycles (s : State) : Res Half :=
  match s.cycles with
  | none => .unwritten s
  | some c => .ok c s

end Sys2Proof.Machine
end

