-- ==== Sys2Proof/Machine/Frame.lean ====
section
/-! DEFINITION. The MatrixFrame I/O family (42_frame.md): GETPIXEL, SETPIXEL, SETPIXELS, GETPIXELS, CLEAR, LDIMG. -/

namespace Sys2Proof.Machine

/-! ### Accesses in sequence -/

/-- Writes in the order of the list (R145); the first that fails ends the work. -/
def writeCells : List (Nat × Half) → State → Res Unit
  | [], s => .ok () s
  | (off, v) :: rest, s => (memWrite off v s).bind fun _ t => writeCells rest t

/-- Reads in the order of the list (R147); the first that fails ends the work. -/
def readCells : List Nat → State → Res (List Half)
  | [], s => .ok [] s
  | off :: rest, s =>
    (memRead off s).bind fun v t => (readCells rest t).bind fun vs u => .ok (v :: vs) u

/-- The byte offsets of the logical cells 0..63 in ascending logical order (R145, R147). -/
def frameOffsets (tbl : Vector (BitVec 6) 64) : List Nat := tbl.toList.map byteOffset

/-- The writes of a frame: logical cell L gets `pack(cs[L])` at `2*OMAP[s][L]`, L ascending (R145). -/
def frameWrites (tbl : Vector (BitVec 6) 64) (cs : List RGB) : List (Nat × Half) :=
  List.zip (frameOffsets tbl) (cs.map pack)

/-- `write_frame(cs)` (R145), shared by SETPIXELS, CLEAR and LDIMG; `cs` has 64 colours wherever it is called. -/
def writeFrame (cs : List RGB) (s : State) : Res Unit :=
  (selectTable s).bind fun tbl t => withFb (writeCells (frameWrites tbl cs)) t

/-- Write `PBUF` whole from a sequence of colours: entry i gets colour i (10_state.md R29). -/
def State.setPixels (s : State) (cs : List RGB) : State :=
  { s with pbuf := Vector.ofFn fun i : Fin 64 => (cs[i.val]?).map rgb24 }

/-! ### Single pixels -/

/-- GETPIXEL (R142). -/
def execGetpixel (x y : Byte) (s : State) : Out :=
  ((address x y s).bind fun p t => withFb (memRead (byteOffset p)) t).finish 1 .d0 fun v t =>
    { t with d0 := some ((rgb24 (unpack v)).setWidth 32) }

/-- SETPIXEL (R144): a plain write of the one cell. -/
def execSetpixel (x y : Byte) (c : RGB) (s : State) : Out :=
  ((address x y s).bind fun p t => withFb (memWrite (byteOffset p) (pack c)) t).finish 2 .nothing fun _ t => t

/-! ### Bulk commands -/

/-- SETPIXELS (R146): the length is checked first, and all n payload words are consumed in every outcome. -/
def execSetpixels (cs : List RGB) (s : State) : Out :=
  (if cs.length = 64 then writeFrame cs s else .err .invalidLength 0 s).finish (1 + cs.length) .nothing fun _ t => t

/-- GETPIXELS (R147): `PBUF` whole on success, all `none` on an error. -/
def execGetpixels (s : State) : Out :=
  ((selectTable s).bind fun tbl t => withFb (readCells (frameOffsets tbl)) t).finish 1 .pbuf fun vs t =>
    t.setPixels (vs.map unpack)

/-- CLEAR (R150): 64 copies of the colour. -/
def execClear (c : RGB) (s : State) : Out :=
  (writeFrame (List.replicate 64 c) s).finish 1 .nothing fun _ t => t

/-! ### Image load -/

/-- `narrow(s16) = s16[15:8]` (R151). -/
def narrow (v : Half) : Byte := v.extractLsb' 8 8

/-- The colour of a sample: the high bytes of three channels, the fourth discarded (R152). -/
def sampleColour (p : Sample) : RGB := ⟨narrow p.r16, narrow p.g16, narrow p.b16⟩

/-- The 64 image coordinates (x, y), y ascending and, within it, x ascending (R152). -/
def gridCoords : List (Nat × Nat) := (List.range 64).map fun i => (i % 8, i / 8)

/-- Samples in the order of the list. -/
def sampleAll : List (Nat × Nat) → State → List RGB × State
  | [], s => ([], s)
  | (x, y) :: rest, s =>
    (sampleColour (imgSample x y s).1 :: (sampleAll rest (imgSample x y s).2).1, (sampleAll rest (imgSample x y s).2).2)

/-- LDIMG (R152): open, 64 samples, with `redraw` also a frame write; `PBUF` gets the unquantized colours. With `redraw`
clear, `ROT` is not read and the framebuffer is not touched. -/
def execLdimg (src : Half) (redraw : Bool) (s : State) : Out :=
  ((imgOpen src s).bind fun _ t =>
    if redraw then
      (writeFrame (sampleAll gridCoords t).1 (sampleAll gridCoords t).2).bind fun _ u => .ok (sampleAll gridCoords t).1 u
    else .ok (sampleAll gridCoords t).1 (sampleAll gridCoords t).2).finish 1 .pbuf fun img u => u.setPixels img

end Sys2Proof.Machine
end

