-- ==== Sys2Proof/Machine/Mapper.lean ====
section
/-! DEFINITION. The OrientationMap family (41_mapper.md): the commands SETROT and MAPXY. (The tables are in Tables, the
selector and the address computation in Operands.) -/

namespace Sys2Proof.Machine

/-- SETROT (R128): any 16-bit value is stored, supported or not. -/
def execSetrot (deg : Half) (s : State) : Out :=
  .next ({ s with rot := some deg }.succeed 1)

/-- MAPXY (R131): the physical cell index and the byte offset. -/
def execMapxy (x y : Byte) (s : State) : Out :=
  (address x y s).finish 1 .d0d1 fun p t =>
    { t with d0 := some (p.setWidth 32), d1 := some (BitVec.ofNat 32 (byteOffset p)) }

end Sys2Proof.Machine
end

