-- ==== Sys2Proof/Machine/Sensor.lean ====
section
/-! DEFINITION. The ColourSensor pipeline family (43_sensor.md): SETGAIN, SETINTEG, ENABLE, GETRAW, MAXRAW, TORGB, and the
functions over the gain table and `MAX_RAW`. -/

namespace Sys2Proof.Machine

/-! ### The gain table and the full scale -/

/-- `code_of_gain` for a signed level operand (R171, R174); none if it is not a level of the table. -/
def codeOfGain (table : List (Nat × Byte)) (level : Int) : Option Byte :=
  (table.find? fun p => decide ((p.1 : Int) = level)).map Prod.snd

/-- `gain_of_code(k)` (R172): the smallest level with that code. No command calls it. -/
def gainOfCode (table : List (Nat × Byte)) (k : Byte) : Option Nat :=
  ((table.filter fun p => p.2 == k).map Prod.fst).min?

/-- `MAX_RAW(c)` (R185) for a cycle count in 1..256; elsewhere the function is not defined and the value is free. -/
def maxRawAt (cfg : Config) (c : Half) : Word :=
  if h : 1 ≤ c.toNat ∧ c.toNat ≤ 256 then cfg.maxRaw.get ⟨c.toNat - 1, by omega⟩ else Config.maxRawOutside c.toNat

/-- `MAX_RAW(CYCLES) / 256`, floor (R188). -/
def scalingOf (cfg : Config) (c : Half) : Nat := (maxRawAt cfg c).toNat / 256

/-- `raw / scaling`, floor, zero-extended (R188; no clamp, 90_conflicts.md C4). -/
def scaled (raw : Half) (scaling : Nat) : Word := BitVec.ofNat 32 (raw.toNat / scaling)

/-! ### Set-up -/

/-- SETGAIN (R174): `GAIN` changes only after the bus write answered ok. -/
def execSetgain (level : Half) (s : State) : Out :=
  (match codeOfGain s.cfg.gainTable level.toInt with
    | none => Res.err .invalidGain 0 s
    | some code => busWrite regGain code s).finish 1 .nothing fun _ t => { t with gain := some level }

/-- R176: the cycle operand, read as two's complement, lies in 1..256. -/
def cyclesOk (c : Half) : Bool := decide (1 ≤ c.toInt ∧ c.toInt ≤ 256)

/-- `256 - cycles` as the register's 8 bits (R176). -/
def integCode (c : Half) : Byte := BitVec.ofNat 8 (256 - c.toNat)

/-- SETINTEG (R176): the block waits inside the command. -/
def execSetinteg (cycles : Half) (s : State) : Out :=
  (if cyclesOk cycles then busWrite regIntegration (integCode cycles) s
    else Res.err .invalidIntegrationCycles 0 s).finish 1 .nothing fun _ t =>
      delay t.cfg.settleIntegUs.toNat { t with cycles := some cycles, timing := some t.cfg.settleIntegUs }

/-- ENABLE (R180): two writes with a wait between them, or one write of zero. -/
def execEnable (on : Bool) (s : State) : Out :=
  (if on then
      (busWrite regEnable s.cfg.enPon s).bind fun _ t =>
        busWrite regEnable (t.cfg.enPon ||| t.cfg.enAen) (delay t.cfg.settlePonUs t)
    else busWrite regEnable 0 s).finish 1 .nothing fun _ t => t

/-! ### Reading and computing -/

/-- GETRAW (R183): clear, red, green, blue on the bus; D0 to D3 = red, green, blue, clear. -/
def execGetraw (s : State) : Out :=
  ((busRead16 regClear s).bind fun c t =>
    (busRead16 regRed t).bind fun r t =>
      (busRead16 regGreen t).bind fun g t =>
        (busRead16 regBlue t).bind fun b t => .ok (c, r, g, b) t).finish 1 .d0d1d2d3 fun p t =>
    { t with
      d0 := some (p.2.1.setWidth 32)
      d1 := some (p.2.2.1.setWidth 32)
      d2 := some (p.2.2.2.setWidth 32)
      d3 := some (p.1.setWidth 32) }

/-- MAXRAW (R186). -/
def execMaxraw (s : State) : Out :=
  (readCycles s).finish 1 .d0 fun c t => { t with d0 := some (maxRawAt t.cfg c) }

/-- TORGB (R188): the `clear` reading is carried and ignored; SensorRangeError when the scaling is zero. -/
def execTorgb (red green blue _clear : Half) (s : State) : Out :=
  ((readCycles s).bind fun c t =>
    if scalingOf t.cfg c = 0 then .err .sensorRangeError 0 t else .ok (scalingOf t.cfg c) t).finish 3 .d0d1d2 fun k t =>
      { t with d0 := some (scaled red k), d1 := some (scaled green k), d2 := some (scaled blue k) }

end Sys2Proof.Machine
end

