-- ==== Sys2Proof/Machine/Dispatch.lean ====
section
/-! DEFINITION. One arm per command: its meaning. -/

namespace Sys2Proof.Machine

def exec (i : Instr) (s : State) : Host.Outcome State Fault Refusal :=
  match i with
  | .pack c => Sys2Proof.Machine.execPack c s
  | .unpack v => Sys2Proof.Machine.execUnpack v s
  | .setrot deg => Sys2Proof.Machine.execSetrot deg s
  | .mapxy x y => Sys2Proof.Machine.execMapxy x y s
  | .getpixel x y => Sys2Proof.Machine.execGetpixel x y s
  | .setpixel x y c => Sys2Proof.Machine.execSetpixel x y c s
  | .setpixels cs => Sys2Proof.Machine.execSetpixels cs s
  | .getpixels => Sys2Proof.Machine.execGetpixels s
  | .clear c => Sys2Proof.Machine.execClear c s
  | .ldimg src redraw => Sys2Proof.Machine.execLdimg src redraw s
  | .setgain level => Sys2Proof.Machine.execSetgain level s
  | .setinteg cycles => Sys2Proof.Machine.execSetinteg cycles s
  | .enable on => Sys2Proof.Machine.execEnable on s
  | .getraw => Sys2Proof.Machine.execGetraw s
  | .maxraw => Sys2Proof.Machine.execMaxraw s
  | .torgb red green blue clear => Sys2Proof.Machine.execTorgb red green blue clear s

end Sys2Proof.Machine
end

