-- ==== Sys2Proof/WellFormed.lean ====
section
/-! DEFINITION. Well-formed commands (30_encoding.md R92): the one bound that the types do not already carry is that the
sequence of SETPIXELS has at most 65535 colours, the largest count its `imm16` field can say. -/

namespace Sys2Proof

/-- The command has an encoding (R92: `length cs <= 65535`). -/
def Instr.wellFormed : Instr → Bool
  | .pack _ => true
  | .unpack _ => true
  | .setrot _ => true
  | .mapxy _ _ => true
  | .getpixel _ _ => true
  | .setpixel _ _ _ => true
  | .setpixels cs => decide (cs.length ≤ 65535)
  | .getpixels => true
  | .clear _ => true
  | .ldimg _ _ => true
  | .setgain _ => true
  | .setinteg _ => true
  | .enable _ => true
  | .getraw => true
  | .maxraw => true
  | .torgb _ _ _ _ => true

end Sys2Proof
end

