-- ==== Sys2Proof/Decode.lean ====
section
/-! DEFINITION. The command encoding (30_encoding.md): the opcode map of R85, the total decoder of R84, the encoder of R90,
the words as bytes (20_memory.md R71), and the reading of an opcode-table word. -/

namespace Sys2Proof

/-! ### Fields of a word (R81, R83) -/

/-- `W[31:24]`. -/
def byte3 (w : Word) : Byte := w.extractLsb' 24 8

/-- `a = W[23:16]`. -/
def byte2 (w : Word) : Byte := w.extractLsb' 16 8

/-- `b = W[15:8]`. -/
def byte1 (w : Word) : Byte := w.extractLsb' 8 8

/-- `c = W[7:0]`. -/
def byte0 (w : Word) : Byte := w.extractLsb' 0 8

/-- `W[31:16]`, the high reading of a raw-pair word. -/
def hiHalf (w : Word) : Half := w.extractLsb' 16 16

/-- `imm16 = W[15:0]`, and the low reading of a raw-pair word. -/
def loHalf (w : Word) : Half := w.extractLsb' 0 16

/-- The colour in bits 23:0 (format C and the colour word of R83 share the layout). -/
def colourOf (w : Word) : RGB := ⟨byte2 w, byte1 w, byte0 w⟩

/-- R83: bits 31:24 of a colour word must be zero. -/
def colourWordOk (w : Word) : Bool := byte3 w == 0

/-- The colour word of a colour (R83). -/
def colourWord (c : RGB) : Word := 0#8 ++ c.r ++ c.g ++ c.b

/-! ### The opcode map (R82, R85) -/

/-- The formats of R82. -/
inductive Format where
  | z | c | h | xy | xyc | l | f | b | t
  deriving DecidableEq, Repr

/-- The rows of R85, by name. -/
inductive Op where
  | pack | unpack | setrot | mapxy | getpixel | setpixel | setpixels | getpixels | clear | ldimg
  | setgain | setinteg | enable | getraw | maxraw | torgb
  deriving DecidableEq, Repr

/-- One row of R85. -/
structure Row where
  op : Op
  format : Format
  pattern : Word
  mask : Word
  deriving DecidableEq, Repr

/-- The opcode map of R85, in its order. -/
def rows : List Row :=
  [ ⟨.pack, .c, 0x01000000, 0xFF000000⟩
  , ⟨.unpack, .h, 0x02000000, 0xFFFF0000⟩
  , ⟨.setrot, .h, 0x10000000, 0xFFFF0000⟩
  , ⟨.mapxy, .xy, 0x11000000, 0xFFFF0000⟩
  , ⟨.getpixel, .xy, 0x20000000, 0xFFFF0000⟩
  , ⟨.setpixel, .xyc, 0x21000000, 0xFFFF0000⟩
  , ⟨.setpixels, .l, 0x22000000, 0xFFFF0000⟩
  , ⟨.getpixels, .z, 0x23000000, 0xFFFFFFFF⟩
  , ⟨.clear, .c, 0x24000000, 0xFF000000⟩
  , ⟨.ldimg, .f, 0x25000000, 0xFFFE0000⟩
  , ⟨.setgain, .h, 0x30000000, 0xFFFF0000⟩
  , ⟨.setinteg, .h, 0x31000000, 0xFFFF0000⟩
  , ⟨.enable, .b, 0x32000000, 0xFFFFFFFE⟩
  , ⟨.getraw, .z, 0x33000000, 0xFFFFFFFF⟩
  , ⟨.maxraw, .z, 0x34000000, 0xFFFFFFFF⟩
  , ⟨.torgb, .t, 0x35000000, 0xFFFFFFFF⟩ ]

/-- `(W0 & row.mask) == row.match` (R84). -/
def Row.matches (r : Row) (w : Word) : Bool := (w &&& r.mask) == r.pattern

/-- The row a head word matches; none for an illegal head word (R84, R87). -/
def findRow (w : Word) : Option Row := rows.find? fun r => r.matches w

/-- The number of payload words a head word announces (R82, R84, R89). -/
def payloadLength (fmt : Format) (w : Word) : Nat :=
  match fmt with
  | .z => 0
  | .c => 0
  | .h => 0
  | .xy => 0
  | .f => 0
  | .b => 0
  | .xyc => 1
  | .t => 2
  | .l => (loHalf w).toNat

/-- The length in words of the command whose head word is `w` (R84): known from the head word alone. -/
def commandLength (w : Word) : Nat :=
  match findRow w with
  | none => 1
  | some r => 1 + payloadLength r.format w

/-! ### The decoder (R84) -/

/-- The verdict of the decoder on the words from `cp` on. -/
inductive Decoded where
  /-- A legal command, all its words present. -/
  | command (i : Instr)
  /-- An illegal command of `len` words (R87). -/
  | illegal (len : Nat)
  /-- The stream ends inside the command (R88). -/
  | incomplete
  /-- No word is offered. -/
  | idle
  deriving DecidableEq, Repr

/-- Operand assembly (R86) for a head word of row `op` with its payload words `ps`. -/
def assemble (op : Op) (w : Word) (ps : List Word) : Decoded :=
  match op with
  | .pack => .command (.pack (colourOf w))
  | .unpack => .command (.unpack (loHalf w))
  | .setrot => .command (.setrot (loHalf w))
  | .mapxy => .command (.mapxy (byte1 w) (byte0 w))
  | .getpixel => .command (.getpixel (byte1 w) (byte0 w))
  | .setpixel =>
    match ps with
    | [c] => if colourWordOk c then .command (.setpixel (byte1 w) (byte0 w) (colourOf c)) else .illegal 2
    | _ => .incomplete
  | .setpixels => if ps.all colourWordOk then .command (.setpixels (ps.map colourOf)) else .illegal (1 + ps.length)
  | .getpixels => .command .getpixels
  | .clear => .command (.clear (colourOf w))
  | .ldimg => .command (.ldimg (loHalf w) (w.getLsbD 16))
  | .setgain => .command (.setgain (loHalf w))
  | .setinteg => .command (.setinteg (loHalf w))
  | .enable => .command (.enable (w.getLsbD 0))
  | .getraw => .command .getraw
  | .maxraw => .command .maxraw
  | .torgb =>
    match ps with
    | [p, q] => .command (.torgb (hiHalf p) (loHalf p) (hiHalf q) (loHalf q))
    | _ => .incomplete

/-- The decoder of R84, total on every word sequence: an unmatched head word is illegal and one word long; then too few
words are incomplete; then a bad colour word makes the command illegal at its own length. -/
def decode : List Word → Decoded
  | [] => .idle
  | w :: rest =>
    match findRow w with
    | none => .illegal 1
    | some r =>
      if rest.length < payloadLength r.format w then .incomplete
      else assemble r.op w (rest.take (payloadLength r.format w))

/-! ### The encoder (R90) -/

/-- The words of a command, written from the syntax table of R90. -/
def encode : Instr → List Word
  | .pack c => [0x01#8 ++ c.r ++ c.g ++ c.b]
  | .unpack v => [0x0200#16 ++ v]
  | .setrot deg => [0x1000#16 ++ deg]
  | .mapxy x y => [0x1100#16 ++ x ++ y]
  | .getpixel x y => [0x2000#16 ++ x ++ y]
  | .setpixel x y c => [0x2100#16 ++ x ++ y, colourWord c]
  | .setpixels cs => (0x2200#16 ++ BitVec.ofNat 16 cs.length) :: cs.map colourWord
  | .getpixels => [0x23000000#32]
  | .clear c => [0x24#8 ++ c.r ++ c.g ++ c.b]
  | .ldimg src redraw => [0x25#8 ++ 0#7 ++ BitVec.ofBool redraw ++ src]
  | .setgain level => [0x3000#16 ++ level]
  | .setinteg cycles => [0x3100#16 ++ cycles]
  | .enable on => [0x19000000#31 ++ BitVec.ofBool on]
  | .getraw => [0x33000000#32]
  | .maxraw => [0x34000000#32]
  | .torgb red green blue clr => [0x35000000#32, red ++ green, blue ++ clr]

/-- The number of words of a command (R80, R84): what the command pointer moves by. -/
def Instr.words : Instr → Nat
  | .pack _ => 1
  | .unpack _ => 1
  | .setrot _ => 1
  | .mapxy _ _ => 1
  | .getpixel _ _ => 1
  | .setpixel _ _ _ => 2
  | .setpixels cs => 1 + cs.length
  | .getpixels => 1
  | .clear _ => 1
  | .ldimg _ _ => 1
  | .setgain _ => 1
  | .setinteg _ => 1
  | .enable _ => 1
  | .getraw => 1
  | .maxraw => 1
  | .torgb _ _ _ _ => 3

/-- The row of R85 that carries a command. -/
def Instr.op : Instr → Op
  | .pack _ => .pack
  | .unpack _ => .unpack
  | .setrot _ => .setrot
  | .mapxy _ _ => .mapxy
  | .getpixel _ _ => .getpixel
  | .setpixel _ _ _ => .setpixel
  | .setpixels _ => .setpixels
  | .getpixels => .getpixels
  | .clear _ => .clear
  | .ldimg _ _ => .ldimg
  | .setgain _ => .setgain
  | .setinteg _ => .setinteg
  | .enable _ => .enable
  | .getraw => .getraw
  | .maxraw => .maxraw
  | .torgb _ _ _ _ => .torgb

/-! ### The assembler syntax (R90) -/

/-- A colour as R90 writes it. -/
def asmColour (c : RGB) : String :=
  "(" ++ toString c.r.toNat ++ ", " ++ toString c.g.toNat ++ ", " ++ toString c.b.toNat ++ ")"

/-- A command in the assembler syntax of R90, numbers in decimal. -/
def Instr.asm : Instr → String
  | .pack c => "PACK " ++ asmColour c
  | .unpack v => "UNPACK " ++ toString v.toNat
  | .setrot deg => "SETROT " ++ toString deg.toNat
  | .mapxy x y => "MAPXY " ++ toString x.toInt ++ ", " ++ toString y.toInt
  | .getpixel x y => "GETPIXEL " ++ toString x.toInt ++ ", " ++ toString y.toInt
  | .setpixel x y c => "SETPIXEL " ++ toString x.toInt ++ ", " ++ toString y.toInt ++ ", " ++ asmColour c
  | .setpixels cs => "SETPIXELS " ++ String.intercalate ", " (cs.map asmColour)
  | .getpixels => "GETPIXELS"
  | .clear c => "CLEAR " ++ asmColour c
  | .ldimg src redraw => "LDIMG " ++ toString src.toNat ++ ", " ++ (if redraw then "1" else "0")
  | .setgain level => "SETGAIN " ++ toString level.toInt
  | .setinteg cycles => "SETINTEG " ++ toString cycles.toInt
  | .enable on => "ENABLE " ++ (if on then "1" else "0")
  | .getraw => "GETRAW"
  | .maxraw => "MAXRAW"
  | .torgb red green blue clr =>
    "TORGB " ++ toString red.toNat ++ ", " ++ toString green.toNat ++ ", " ++ toString blue.toNat ++ ", " ++
      toString clr.toNat

/-! ### Words as bytes (20_memory.md R71) -/

/-- A word kept as bytes, least significant byte first (R71). -/
def wordBytes (w : Word) : List Byte := [byte0 w, byte1 w, byte2 w, byte3 w]

/-- A program kept as bytes. -/
def bytesOfWords (ws : List Word) : List Byte := ws.flatMap wordBytes

/-- The words that a byte sequence holds; bytes after the last whole word are no word (R31: whole words only). -/
def wordsOfBytes : List Byte → List Word
  | b0 :: b1 :: b2 :: b3 :: rest => (b3 ++ b2 ++ b1 ++ b0) :: wordsOfBytes rest
  | _ => []

/-- The decoder on a program kept as bytes. -/
def decodeBytes (bs : List Byte) : Decoded := decode (wordsOfBytes bs)

/-! ### A word of the opcode table -/

/-- The words of the command whose first `nbits` bits are `w` and whose other bits are zero, bit 0 the least significant
bit of the head word: the head word, then as many payload words as it announces. -/
def tableWords (nbits w : Nat) : List Word :=
  (List.range (commandLength (BitVec.ofNat 32 (w % 2 ^ nbits)))).map fun k =>
    BitVec.ofNat 32 ((w % 2 ^ nbits) >>> (32 * k))

/-- The command that the decoder reads from an opcode-table word, kept as the hardware keeps words as bytes (R71). -/
def decodeTableWord (nbits w : Nat) : Option Instr :=
  match decodeBytes (bytesOfWords (tableWords nbits w)) with
  | .command i => some i
  | .illegal _ => none
  | .incomplete => none
  | .idle => none

end Sys2Proof
end

