-- ==== Sys2Proof/Machine/Fetch.lean ====
section
/-! DEFINITION. Taking the next command from the word stream (10_state.md R31, 30_encoding.md R84), and placing one there. -/

namespace Sys2Proof.Machine

/-- The decoder's verdict on the words from `cp` on. -/
def fetch (s : State) : Decoded := decode (s.words.drop s.cp)

/-- A word list with `ws` written over it from index `k` on; indexes before `k` that the list lacks get a zero word. -/
def placeAt (words : List Word) (k : Nat) (ws : List Word) : List Word :=
  words.take k ++ List.replicate (k - words.length) 0 ++ ws ++ words.drop (k + ws.length)

end Sys2Proof.Machine
end

