-- ==== Sys2Proof/Machine/Step.lean ====
section
/-! DEFINITION. One step of the sequencer (30_encoding.md R84, R87, R88; 70_reset_and_hazards.md R247). -/

namespace Sys2Proof.Machine

/-- One command taken from the word stream and executed. With no word offered the block idles, holding its state (R247); a
command whose words have not all arrived is stuck (R88). -/
def step (s : State) : Host.Outcome State Fault Refusal :=
  match fetch s with
  | .command i => exec i s
  | .illegal len => execIllegal len s
  | .incomplete => .fault (.incompleteCommand s)
  | .idle => .next s

/-- The state with the command of an opcode-table word placed where the next step takes its command (log entry 15). -/
def State.withFetchWord (s : State) (nbits w : Nat) : State :=
  { s with words := placeAt s.words s.cp (tableWords nbits w) }

end Sys2Proof.Machine
end

