-- ==== Sys2Proof/Machine/HostPort.lean ====
section
/-! DEFINITION. What the host does between commands (70_reset_and_hazards.md R250): it offers words, reads a register on the
read port (10_state.md R32), and resets the block (R230, R232). None of these is a command. -/

namespace Sys2Proof.Machine

/-- The content of the register numbered `rn`, zero-extended (the table of R32), where it holds a value; every number that
the table does not list reads as 0. -/
def regContent (s : State) (rn : Nat) : Option Word :=
  if rn = 0x000 then some (s.err.setWidth 32)
  else if rn = 0x001 then some (s.errLog.setWidth 32)
  else if rn = 0x002 then some s.errCause
  else if rn = 0x003 then s.rot.map (·.setWidth 32)
  else if rn = 0x004 then s.gain.map (·.setWidth 32)
  else if rn = 0x005 then s.cycles.map (·.setWidth 32)
  else if rn = 0x006 then s.timing
  else if rn = 0x008 then s.d0
  else if rn = 0x009 then s.d1
  else if rn = 0x00A then s.d2
  else if rn = 0x00B then s.d3
  else if 0x040 ≤ rn ∧ rn ≤ 0x07F then (s.pbuf.get (Fin.ofNat 64 (rn - 0x040))).map (·.setWidth 32)
  else if 0x100 ≤ rn ∧ rn ≤ 0x1FF then
    some (((s.omap.get (Fin.ofNat 4 ((rn - 0x100) / 64))).get (Fin.ofNat 64 ((rn - 0x100) % 64))).setWidth 32)
  else some 0

/-- `RegRead(rn)` (R32): what the host's read number `k` of the register numbered `rn` returns, in every state, with no side
effect: the register's content, or, while it holds `none` (right after reset, or after an error), the "unspecified value" of
R32, R233 and U4: 32 bits that are free and may differ from read to read (log entries 2 and 24). -/
def regRead (k : Nat) (s : State) (rn : Nat) : Word := (regContent s rn).getD (Config.freeRead k rn)

/-- The same read for a claim that takes "no fault" as a premise: where `regRead` returns an unspecified value, "a model treats
it as `fault(UnwrittenState)`" (R32, R233, U4, D12). No command and no step reads through it. -/
def regReadOrFault (s : State) (rn : Nat) : Except Fault Word :=
  match regContent s rn with
  | none => .error (.unwrittenState s)
  | some v => .ok v

/-- The host offers more words on the command port (R10, R250). -/
def State.offer (s : State) (ws : List Word) : State := { s with words := s.words ++ ws }

/-- The reset event on a machine that ran (R230, R232): the block's state is that of `State.reset`; the framebuffer, the
parameters and the outside's answers are not touched; the words not yet consumed stay offered, counted from the new
`cp = 0` (log entry 18). -/
def State.resetEvent (s : State) : State :=
  { State.reset with
    mem := s.mem, cfg := s.cfg, ports := s.ports, words := s.words.drop s.cp, freeCount := s.freeCount }

/-- R247: the run of a finite program has ended, every word consumed. -/
def State.ended (s : State) : Bool := s.cp == s.words.length

end Sys2Proof.Machine
end

