-- ==== Sys2Proof/Safety.lean ====
section
/-! DEFINITION. What claims speak of: the invariant every step keeps, a run without device failures, and the answers the
ports will give, counted from now. -/

namespace Sys2Proof.Machine

/-- `NoIOFail` (92_eei_decisions.md D15): every answer still to come on the framebuffer port and the bus is ok. -/
abbrev State.NoIOFail (s : State) : Prop :=
  (∀ a ∈ s.ports.fb, a = .ok) ∧ ∀ a ∈ s.ports.bus, a = .ok

/-- The answer that the framebuffer port's request number `k` from now will get. -/
def State.fbAnswer (s : State) (k : Nat) : PortAnswer := s.ports.fb.getD k .ok

/-- The answer that the bus request number `k` from now will get. -/
def State.busAnswer (s : State) (k : Nat) : PortAnswer :=
  match s.cfg.backend with
  | .fixture _ _ _ _ => .ok
  | .device => s.ports.bus.getD k .ok

/-- The answer that the next `ImgOpen` will get. -/
def State.imgAnswer (s : State) : ImgAnswer := s.ports.imgOpen.headD .ok

/-- The state after `n` requests on the framebuffer port that recorded the events `es`. -/
def State.fbUsed (s : State) (n : Nat) (es : List Event) : State :=
  { s with trace := s.trace ++ es, ports := { s.ports with fb := s.ports.fb.drop n } }

/-- The state after `n` requests on the bus that recorded the events `es` (the fixture uses up no queued answer). -/
def State.busUsed (s : State) (n : Nat) (es : List Event) : State :=
  { s with
    trace := s.trace ++ es
    ports :=
      match s.cfg.backend with
      | .fixture _ _ _ _ => s.ports
      | .device => { s.ports with bus := s.ports.bus.drop n } }

/-- The state after a command of `len` words that succeeded: `ERR` and `ERRCAUSE` zero, `cp` past the command (R203). -/
def State.succeeded (s : State) (len : Nat) : State := { s with err := 0, errCause := 0, cp := s.cp + len }

/-- The state after a command of `len` words that ended in the error `code` with the cause word `cause`: the status
registers as R203 says, `cp` past the command. -/
def State.errored (s : State) (code : Nat) (cause : Word) (len : Nat) : State :=
  { s with
    err := BitVec.ofNat 8 code
    errLog := s.errLog ||| BitVec.twoPow 16 code
    errCause := cause
    cp := s.cp + len }

/-- The framebuffer after writes of whole cells, in order. -/
def memWritten (m : Memory) (ws : List (Nat × Half)) : Memory := ws.foldl (fun m w => memSetCell m w.1 w.2) m

/-- The byte at an offset of the framebuffer. -/
def State.byteAt (s : State) (a : Nat) : Byte := memGet s.mem a

/-- Both coordinates, read as two's complement, lie in 0..7 (42_frame.md R140). -/
abbrev OnGrid (x y : Byte) : Prop := 0 ≤ x.toInt ∧ x.toInt ≤ 7 ∧ 0 ≤ y.toInt ∧ y.toInt ≤ 7

/-- A rotation value that is none of the four supported ones (10_state.md R21). -/
abbrev Unsupported (r : Half) : Prop := r ≠ 0 ∧ r ≠ 90 ∧ r ≠ 180 ∧ r ≠ 270

/-- `ROT` holds the supported value `90*k` degrees (R30). -/
abbrev State.Rotated (s : State) (k : Fin 4) : Prop := s.rot = some (BitVec.ofNat 16 (90 * k.val))

/-- The byte offset of logical cell `L` under table `k`: `2*OMAP[k][L]` (R141). -/
def State.offsetOf (s : State) (k : Fin 4) (L : Fin 64) : Nat := ((s.omap.get k).get L).toNat * 2

/-- The 16-bit value of the cell at a byte offset, little-endian (R51). -/
def State.cellAt (s : State) (off : Nat) : Half := s.byteAt (off + 1) ++ s.byteAt off

/-- The cause word of an answer that failed. -/
def Event.failCause : Event → Option Word
  | .fbAcquire (.fail c) => some c
  | .fbRead _ (.fail c) => some c
  | .fbWrite _ _ (.fail c) => some c
  | .busWrite _ _ _ (.fail c) => some c
  | .busRead16 _ _ (.fail c) => some c
  | .fbAcquire (.ok _) => none
  | .fbRead _ (.ok _) => none
  | .fbWrite _ _ (.ok _) => none
  | .busWrite _ _ _ (.ok _) => none
  | .busRead16 _ _ (.ok _) => none
  | .fbRelease => none
  | .imgOpen _ _ => none
  | .imgSample _ _ _ => none
  | .delay _ => none

/-- The byte offset a framebuffer event accesses. -/
def Event.offset : Event → Option Nat
  | .fbRead off _ => some off
  | .fbWrite off _ _ => some off
  | .fbAcquire _ => none
  | .fbRelease => none
  | .busWrite _ _ _ _ => none
  | .busRead16 _ _ _ => none
  | .imgOpen _ _ => none
  | .imgSample _ _ _ => none
  | .delay _ => none

/-- The high bytes of the three colour channels of a sample, the fourth channel discarded (42_frame.md R151, R152). -/
def highBytes (p : Sample) : RGB := ⟨p.r16.extractLsb' 8 8, p.g16.extractLsb' 8 8, p.b16.extractLsb' 8 8⟩

/-- `ps` are the next 64 samples: the queued ones, and any where none is queued. -/
def SamplesOf (s : State) (ps : Vector Sample 64) : Prop :=
  ∀ (L : Fin 64) (p : Sample), s.ports.imgSamples[L.val]? = some p → ps.get L = p

/-- The answers to come after `fb` requests on the framebuffer port, one `ImgOpen` and 64 samples. -/
def Ports.afterImage (p : Ports) (fb : Nat) : Ports :=
  { p with fb := p.fb.drop fb, imgOpen := p.imgOpen.tail, imgSamples := p.imgSamples.drop 64 }

/-- The events of an image opened and sampled, in row-major order (R152). -/
def imageEvents (src : Half) (ps : Vector Sample 64) : List Event :=
  [Event.imgOpen src .ok] ++ (List.finRange 64).map fun L => Event.imgSample (L.val % 8) (L.val / 8) (ps.get L)

/-- The 64 writes of a frame under table `k`, in ascending logical order, all answered ok (R145). -/
def State.frameEvents (s : State) (k : Fin 4) (cs : Vector RGB 64) : List Event :=
  (List.finRange 64).map fun L => Event.fbWrite (s.offsetOf k L) (pack (cs.get L)) (.ok ())

/-- The events of a frame write whose write of logical cell `n` was never answered: none for that write, and no release
(DEDUCED, log entry 12). -/
def State.silentFrameEvents (s : State) (k : Fin 4) (cs : Vector RGB 64) (n : Fin 64) : List Event :=
  [Event.fbAcquire (.ok ())] ++ (s.frameEvents k cs).take n.val

/-- The events of a frame write whose write of logical cell `n` failed (R145). -/
def State.failedFrameEvents (s : State) (k : Fin 4) (cs : Vector RGB 64) (n : Fin 64) (e : Word) : List Event :=
  [Event.fbAcquire (.ok ())] ++ (s.frameEvents k cs).take n.val ++
    [Event.fbWrite (s.offsetOf k n) (pack (cs.get n)) (.fail e), Event.fbRelease]

/-- The framebuffer of `t` after a frame write of `cs` from `s` that failed at logical cell `n` (R145): the cells before `n`
are new, those after it old, and no byte from 128 on has changed. -/
def PartWritten (cs : Vector RGB 64) (k : Fin 4) (n : Fin 64) (s t : State) : Prop :=
  (∀ L : Fin 64, L < n → t.cellAt (s.offsetOf k L) = pack (cs.get L)) ∧
  (∀ L : Fin 64, n < L → t.cellAt (s.offsetOf k L) = s.cellAt (s.offsetOf k L)) ∧
  ∀ a, 128 ≤ a → t.byteAt a = s.byteAt a

/-- The framebuffer of `l` after a frame write of `cs` from `s` whose write of logical cell `n` was never answered: as after
a failed one, and the cell of that write keeps its content too (R73: only a write that answered ok changes what a byte reads
as, and R57 excepts the failed one alone; DEDUCED, log entry 12). -/
def StoppedAt (cs : Vector RGB 64) (k : Fin 4) (n : Fin 64) (s l : State) : Prop :=
  PartWritten cs k n s l ∧ l.cellAt (s.offsetOf k n) = s.cellAt (s.offsetOf k n)

/-- The command comes to its read of `ROT` (70_reset_and_hazards.md R236, 42_frame.md R153). -/
def NeedsRotation (i : Instr) (s : State) : Prop :=
  match i with
  | .mapxy x y => OnGrid x y
  | .getpixel x y => OnGrid x y
  | .setpixel x y _ => OnGrid x y
  | .setpixels cs => cs.length = 64
  | .getpixels => True
  | .clear _ => True
  | .ldimg _ redraw => redraw = true ∧ s.imgAnswer = .ok
  | .pack _ => False
  | .unpack _ => False
  | .setrot _ => False
  | .setgain _ => False
  | .setinteg _ => False
  | .enable _ => False
  | .getraw => False
  | .maxraw => False
  | .torgb _ _ _ _ => False

/-- The command reads `CYCLES` (R236, 43_sensor.md R190). -/
def NeedsCycles (i : Instr) : Prop :=
  match i with
  | .maxraw => True
  | .torgb _ _ _ _ => True
  | .pack _ => False
  | .unpack _ => False
  | .setrot _ => False
  | .mapxy _ _ => False
  | .getpixel _ _ => False
  | .setpixel _ _ _ => False
  | .setpixels _ => False
  | .getpixels => False
  | .clear _ => False
  | .ldimg _ _ => False
  | .setgain _ => False
  | .setinteg _ => False
  | .enable _ => False
  | .getraw => False

/-- The command has no write of the framebuffer (10_state.md R33, 42_frame.md R153). -/
def StoresNothing (i : Instr) : Prop :=
  match i with
  | .setpixel _ _ _ => False
  | .setpixels _ => False
  | .clear _ => False
  | .ldimg _ redraw => redraw = false
  | .pack _ => True
  | .unpack _ => True
  | .setrot _ => True
  | .mapxy _ _ => True
  | .getpixel _ _ => True
  | .getpixels => True
  | .setgain _ => True
  | .setinteg _ => True
  | .enable _ => True
  | .getraw => True
  | .maxraw => True
  | .torgb _ _ _ _ => True

/-- The command belongs to the ColourSensor pipeline (43_sensor.md); the others are the matrix side (00_scope.md R3). -/
def SensorSide (i : Instr) : Prop :=
  match i with
  | .setgain _ => True
  | .setinteg _ => True
  | .enable _ => True
  | .getraw => True
  | .maxraw => True
  | .torgb _ _ _ _ => True
  | .pack _ => False
  | .unpack _ => False
  | .setrot _ => False
  | .mapxy _ _ => False
  | .getpixel _ _ => False
  | .setpixel _ _ _ => False
  | .setpixels _ => False
  | .getpixels => False
  | .clear _ => False
  | .ldimg _ _ => False

/-- Every result register that the command's rule names holds `none` (10_state.md R28, R29; 60_exceptions.md R203). -/
def NamedResultsNone (i : Instr) (t : State) : Prop :=
  match i with
  | .pack _ => t.d0 = none
  | .unpack _ => t.d0 = none
  | .getpixel _ _ => t.d0 = none
  | .maxraw => t.d0 = none
  | .mapxy _ _ => t.d0 = none ∧ t.d1 = none
  | .torgb _ _ _ _ => t.d0 = none ∧ t.d1 = none ∧ t.d2 = none
  | .getraw => t.d0 = none ∧ t.d1 = none ∧ t.d2 = none ∧ t.d3 = none
  | .getpixels => t.pbuf = Vector.replicate 64 none
  | .ldimg _ _ => t.pbuf = Vector.replicate 64 none
  | .setrot _ => True
  | .setpixel _ _ _ => True
  | .setpixels _ => True
  | .clear _ => True
  | .setgain _ => True
  | .setinteg _ => True
  | .enable _ => True

/-- Every result register that the command's rule does not name holds in `t` what it held in `s` (R28, R29). -/
def OtherResultsKept (i : Instr) (s t : State) : Prop :=
  match i with
  | .pack _ => t.d1 = s.d1 ∧ t.d2 = s.d2 ∧ t.d3 = s.d3 ∧ t.pbuf = s.pbuf
  | .unpack _ => t.d1 = s.d1 ∧ t.d2 = s.d2 ∧ t.d3 = s.d3 ∧ t.pbuf = s.pbuf
  | .getpixel _ _ => t.d1 = s.d1 ∧ t.d2 = s.d2 ∧ t.d3 = s.d3 ∧ t.pbuf = s.pbuf
  | .maxraw => t.d1 = s.d1 ∧ t.d2 = s.d2 ∧ t.d3 = s.d3 ∧ t.pbuf = s.pbuf
  | .mapxy _ _ => t.d2 = s.d2 ∧ t.d3 = s.d3 ∧ t.pbuf = s.pbuf
  | .torgb _ _ _ _ => t.d3 = s.d3 ∧ t.pbuf = s.pbuf
  | .getraw => t.pbuf = s.pbuf
  | .getpixels => t.d0 = s.d0 ∧ t.d1 = s.d1 ∧ t.d2 = s.d2 ∧ t.d3 = s.d3
  | .ldimg _ _ => t.d0 = s.d0 ∧ t.d1 = s.d1 ∧ t.d2 = s.d2 ∧ t.d3 = s.d3
  | .setrot _ => t.d0 = s.d0 ∧ t.d1 = s.d1 ∧ t.d2 = s.d2 ∧ t.d3 = s.d3 ∧ t.pbuf = s.pbuf
  | .setpixel _ _ _ => t.d0 = s.d0 ∧ t.d1 = s.d1 ∧ t.d2 = s.d2 ∧ t.d3 = s.d3 ∧ t.pbuf = s.pbuf
  | .setpixels _ => t.d0 = s.d0 ∧ t.d1 = s.d1 ∧ t.d2 = s.d2 ∧ t.d3 = s.d3 ∧ t.pbuf = s.pbuf
  | .clear _ => t.d0 = s.d0 ∧ t.d1 = s.d1 ∧ t.d2 = s.d2 ∧ t.d3 = s.d3 ∧ t.pbuf = s.pbuf
  | .setgain _ => t.d0 = s.d0 ∧ t.d1 = s.d1 ∧ t.d2 = s.d2 ∧ t.d3 = s.d3 ∧ t.pbuf = s.pbuf
  | .setinteg _ => t.d0 = s.d0 ∧ t.d1 = s.d1 ∧ t.d2 = s.d2 ∧ t.d3 = s.d3 ∧ t.pbuf = s.pbuf
  | .enable _ => t.d0 = s.d0 ∧ t.d1 = s.d1 ∧ t.d2 = s.d2 ∧ t.d3 = s.d3 ∧ t.pbuf = s.pbuf

/-- The events a step added: the trace of `t` past the length of the trace of `s`. -/
def newEvents (s t : State) : List Event := t.trace.drop s.trace.length

/-- An event of the framebuffer port or the bus: device I/O in the sense of R201. -/
def Event.isDeviceIO : Event → Bool
  | .fbAcquire _ => true
  | .fbRead _ _ => true
  | .fbWrite _ _ _ => true
  | .fbRelease => true
  | .busWrite _ _ _ _ => true
  | .busRead16 _ _ _ => true
  | .imgOpen _ _ => false
  | .imgSample _ _ _ => false
  | .delay _ => false

/-- The framebuffer is in canonical form and lists only offsets that exist (R50). -/
abbrev State.MemOk (s : State) : Prop := s.mem.wf ∧ ∀ c ∈ s.mem, c.1 < s.cfg.fbLen

/-- `OMAP` holds the four tables (R30, R123: no command writes it). -/
abbrev State.OmapOk (s : State) : Prop := s.omap = omapTables

/-- The status registers agree with each other (R25 to R27): a code of R200; the reserved bits of `ERRLOG` zero; the bit of
the present error set; a cause only with DeviceIOError. -/
abbrev State.StatusOk (s : State) : Prop :=
  s.err.toNat ≤ 10 ∧ s.errLog &&& 0xF801#16 = 0 ∧ (s.err ≠ 0 → s.errLog.getLsbD s.err.toNat = true) ∧
    (s.err ≠ 4 → s.errCause = 0)

/-- R23: whenever `CYCLES` holds a value, it lies in 1..256. -/
abbrev State.CyclesOk (s : State) : Prop := ∀ c ∈ s.cycles, 1 ≤ c.toNat ∧ c.toNat ≤ 256

/-- R22: whenever `GAIN` holds a value, it is a level of `GAIN_TABLE`. -/
abbrev State.GainOk (s : State) : Prop := ∀ g ∈ s.gain, g.toNat ∈ s.cfg.gainTable.map Prod.fst

/-- R24: whenever `TIMING` holds a value, it is `SETTLE_INTEG_US`. -/
abbrev State.TimingOk (s : State) : Prop := ∀ t ∈ s.timing, t = s.cfg.settleIntegUs

/-- R29: `PBUF` is whole: all 64 entries hold a value, or none does. -/
abbrev State.PixelsOk (s : State) : Prop :=
  (∀ i : Fin 64, (s.pbuf.get i).isSome) ∨ ∀ i : Fin 64, s.pbuf.get i = none

/-- `ROT` and `CYCLES` hold values, so that no command meets UnwrittenState (R206). -/
abbrev State.HasValues (s : State) : Prop := s.rot.isSome ∧ s.cycles.isSome

/-- The invariant that every step keeps. -/
structure State.Inv (s : State) : Prop where
  mem : s.MemOk
  omap : s.OmapOk
  status : s.StatusOk
  cycles : s.CyclesOk
  gain : s.GainOk
  timing : s.TimingOk
  pixels : s.PixelsOk
  values : s.HasValues
  pointer : s.cp ≤ s.words.length

end Sys2Proof.Machine
end

