-- ==== Sys2Proof/Certificates/Slice0/Obligations.lean ====
section
/-! DEFINITION. The statements for the provers. Each docstring names the part of the spec that the statement formalises. -/

open Sys2Proof Sys2Proof.Machine

/-! ### Encoding (30_encoding.md) -/

/-- 30_encoding.md section 7: encoding then decoding a command gives the same command, whatever words follow it. -/
def Obligations.DecodeEncodeAgree : Prop :=
  ∀ (i : Instr) (rest : List Word), i.wellFormed = true → decode (encode i ++ rest) = .command i

/-- 30_encoding.md section 7: decoding then encoding a legal word sequence gives the same words; a decoded command is
well-formed and has `i.words` words. -/
def Obligations.EncodeDecodeAgree : Prop :=
  ∀ (ws : List Word) (i : Instr), decode ws = .command i →
    i.wellFormed = true ∧ (encode i).length = i.words ∧ ∃ rest, ws = encode i ++ rest

/-- R87: which head words and which payloads are illegal, and that an illegal command is consumed whole and raises
IllegalCommand (code 10), with no port request and no other change. -/
def Obligations.IllegalCommandsRaise : Prop :=
  (∀ (w : Word) (rest : List Word), decode (w :: rest) = .illegal 1 ↔
    ¬ (w.extractLsb' 24 8 ∈ [0x01#8, 0x24#8] ∨
      (w.extractLsb' 24 8 ∈ [0x02#8, 0x10#8, 0x11#8, 0x20#8, 0x21#8, 0x22#8, 0x30#8, 0x31#8] ∧ w.extractLsb' 16 8 = 0#8) ∨
      (w.extractLsb' 24 8 = 0x25#8 ∧ w.extractLsb' 17 7 = 0#7) ∨
      (w.extractLsb' 24 8 = 0x32#8 ∧ w.extractLsb' 1 23 = 0#23) ∨
      (w.extractLsb' 24 8 ∈ [0x23#8, 0x33#8, 0x34#8, 0x35#8] ∧ w.extractLsb' 0 24 = 0#24))) ∧
  (∀ (x y : Byte) (c : Word) (rest : List Word), c.extractLsb' 24 8 ≠ 0#8 →
    decode ((0x2100#16 ++ x ++ y : Word) :: c :: rest) = .illegal 2) ∧
  (∀ (n : Half) (ps rest : List Word), ps.length = n.toNat → (∃ c ∈ ps, c.extractLsb' 24 8 ≠ 0#8) →
    decode ((0x2200#16 ++ n : Word) :: (ps ++ rest)) = .illegal (1 + n.toNat)) ∧
  (∀ (s : State) (len : Nat), decode (s.words.drop s.cp) = .illegal len → step s = .next (s.errored 10 0 len)) ∧
  (∀ rest : List Word, decode (0x00000000#32 :: rest) = .illegal 1 ∧ decode (0xFFFFFFFF#32 :: rest) = .illegal 1)

/-- R88: at a command whose words have not all arrived the block neither executes nor reports: the step is stuck, and
the state it leaves is the one it found. -/
def Obligations.IncompleteCommandWaits : Prop :=
  ∀ (i : Instr) (k : Nat) (s : State), i.wellFormed = true → 0 < k → k < i.words →
    s.words.drop s.cp = (encode i).take k → step s = .fault (.incompleteCommand s)

/-- 95_test_vectors.md V1: words of the spec's table and the commands they decode to. -/
def Obligations.SpecWordsDecode : Prop :=
  decode [0x01C86432#32] = .command (.pack ⟨200, 100, 50⟩) ∧
  decode [0x1000FFA6#32] = .command (.setrot 0xFFA6) ∧
  decode [0x1100FF80#32] = .command (.mapxy 0xFF 0x80) ∧
  decode [0x21000200#32, 0x00FF0000#32] = .command (.setpixel 2 0 ⟨255, 0, 0⟩) ∧
  decode [0x22000002#32, 0x00010203#32, 0x00040506#32] = .command (.setpixels [⟨1, 2, 3⟩, ⟨4, 5, 6⟩]) ∧
  decode [0x25010007#32] = .command (.ldimg 7 true) ∧
  decode [0x35000000#32, 0x00800040#32, 0x002000FF#32] = .command (.torgb 128 64 32 255) ∧
  decode [0x35000001#32] = .illegal 1 ∧
  decode [0x21000000#32] = .incomplete

/-- R71: a word kept as bytes is least significant byte first, and the bytes hold the same program. -/
def Obligations.WordBytesLittleEndian : Prop :=
  (∀ w : Word, wordBytes w = [w.extractLsb' 0 8, w.extractLsb' 8 8, w.extractLsb' 16 8, w.extractLsb' 24 8]) ∧
  (∀ ws : List Word, wordsOfBytes (bytesOfWords ws) = ws) ∧
  ∀ ws : List Word, decodeBytes (bytesOfWords ws) = decode ws

/-! ### The step (R31, R84, R247) -/

/-- R84 (30_encoding.md section 1): a step runs the decoded command: when the words at `cp` decode to a command, the step is
`exec` of it and nothing around it (exec itself moves `cp`). R247 (70_reset_and_hazards.md section 4): when no word is offered,
the block idles, holding its state; that an idle step answers the same state is DEDUCED, log entry 14. -/
def Obligations.StepRunsDecodedCommand : Prop :=
  (∀ (s : State) (i : Instr), decode (s.words.drop s.cp) = .command i → step s = exec i s) ∧
  ∀ s : State, s.cp = s.words.length → step s = .next s

/-- R93: every command, whatever its outcome, is followed by the command whose head word comes right after its last
word; `cp` only grows. -/
def Obligations.CommandPointerOnlyAdvances : Prop :=
  (∀ (i : Instr) (s t : State), exec i s = .next t → t.cp = s.cp + i.words ∧ t.words = s.words) ∧
  (∀ (s t : State), step s = .next t → s.cp ≤ t.cp ∧ t.words = s.words) ∧
  ∀ (i : Instr) (rest : List Word) (s t : State), i.wellFormed = true → s.words.drop s.cp = encode i ++ rest →
    step s = .next t → t.words.drop t.cp = rest

/-! ### ColorCodec (40_codec.md) -/

/-- R110: `pack(c)` is `r5 ++ g6 ++ b5`, the high bits of each channel, the low bits dropped. -/
def Obligations.PackLanes : Prop :=
  ∀ c : RGB,
    pack c = c.r.extractLsb' 3 5 ++ c.g.extractLsb' 2 6 ++ c.b.extractLsb' 3 5 ∧
    (pack c).toNat = c.r.toNat / 8 * 2048 + c.g.toNat / 4 * 32 + c.b.toNat / 8

/-- R111: `unpack(v)` expands each lane by copying its high bits into the vacated low bits. -/
def Obligations.UnpackReplicatesHighBits : Prop :=
  ∀ v : Half,
    unpack v =
      ⟨v.extractLsb' 11 5 ++ v.extractLsb' 13 3, v.extractLsb' 5 6 ++ v.extractLsb' 9 2,
        v.extractLsb' 0 5 ++ v.extractLsb' 2 3⟩

/-- 40_codec.md section 1, the laws of the pair: idempotent under re-packing; at most the quantization step lost, with
the values where the bound is reached; full-scale values survive; `pack` undoes `unpack`. -/
def Obligations.CodecRoundTrip : Prop :=
  (∀ c : RGB, pack (unpack (pack c)) = pack c) ∧
  (∀ c : RGB,
    ((unpack (pack c)).r.toNat : Int) - c.r.toNat ≤ 7 ∧ (c.r.toNat : Int) - (unpack (pack c)).r.toNat ≤ 7 ∧
    ((unpack (pack c)).g.toNat : Int) - c.g.toNat ≤ 3 ∧ (c.g.toNat : Int) - (unpack (pack c)).g.toNat ≤ 3 ∧
    ((unpack (pack c)).b.toNat : Int) - c.b.toNat ≤ 7 ∧ (c.b.toNat : Int) - (unpack (pack c)).b.toNat ≤ 7) ∧
  (∀ c : RGB, (((unpack (pack c)).r.toNat : Int) - c.r.toNat).natAbs = 7 ↔
    c.r.toNat ∈ [7, 15, 23, 31, 224, 232, 240, 248]) ∧
  (unpack (pack ⟨0, 0, 0⟩) = ⟨0, 0, 0⟩ ∧ unpack (pack ⟨255, 255, 255⟩) = ⟨255, 255, 255⟩) ∧
  ∀ v : Half, pack (unpack v) = v

/-- R112: PACK. -/
def Obligations.PackCommand : Prop :=
  (∀ (c : RGB) (rest : List Word), decode ((0x01#8 ++ c.r ++ c.g ++ c.b : Word) :: rest) = .command (.pack c)) ∧
  (∀ (c : RGB) (s : State),
    exec (.pack c) s = .next ({ s with d0 := some ((pack c).setWidth 32) }.succeeded 1)) ∧
  (pack ⟨0, 0, 0⟩ = 0x0000 ∧ pack ⟨255, 255, 255⟩ = 0xFFFF ∧ pack ⟨7, 3, 7⟩ = 0x0000 ∧ pack ⟨8, 4, 8⟩ = 0x0821 ∧
    pack ⟨200, 100, 50⟩ = 0xCB26)

/-- R113: UNPACK. -/
def Obligations.UnpackCommand : Prop :=
  (∀ (v : Half) (rest : List Word), decode ((0x0200#16 ++ v : Word) :: rest) = .command (.unpack v)) ∧
  (∀ (w : Word) (rest : List Word), w.extractLsb' 24 8 = 0x02#8 → w.extractLsb' 16 8 ≠ 0#8 →
    decode (w :: rest) = .illegal 1) ∧
  (∀ (v : Half) (s : State),
    exec (.unpack v) s =
      .next ({ s with d0 := some (0#8 ++ (unpack v).r ++ (unpack v).g ++ (unpack v).b) }.succeeded 1)) ∧
  (unpack 0x0000 = ⟨0, 0, 0⟩ ∧ unpack 0xFFFF = ⟨255, 255, 255⟩ ∧ unpack 0xF800 = ⟨255, 0, 0⟩ ∧
    unpack 0x07E0 = ⟨0, 255, 0⟩ ∧ unpack 0x001F = ⟨0, 0, 255⟩ ∧ unpack 0x0821 = ⟨8, 4, 8⟩ ∧
    unpack 0x8410 = ⟨132, 130, 132⟩)

/-! ### OrientationMap (41_mapper.md) -/

/-- R121: where `rotate` moves the entry at row `r`, column `c`, for any sequence of 64 entries. -/
def Obligations.RotateMovesEntries : Prop :=
  ∀ (α : Type) (m : Vector α 64) (r c : Fin 8),
    (rotate m .r0).get (Fin.ofNat 64 (r.val * 8 + c.val)) = m.get (Fin.ofNat 64 (r.val * 8 + c.val)) ∧
    (rotate m .r90).get (Fin.ofNat 64 (c.val * 8 + (7 - r.val))) = m.get (Fin.ofNat 64 (r.val * 8 + c.val)) ∧
    (rotate m .r180).get (Fin.ofNat 64 ((7 - r.val) * 8 + (7 - c.val))) = m.get (Fin.ofNat 64 (r.val * 8 + c.val)) ∧
    (rotate m .r270).get (Fin.ofNat 64 ((7 - c.val) * 8 + r.val)) = m.get (Fin.ofNat 64 (r.val * 8 + c.val))

/-- 41_mapper.md section 1, the composition laws: `rotate(rotate(m, a), b) = rotate(m, (a + b) mod 360)` for every map
and all sixteen pairs of angles; so four quarter turns return the map. -/
def Obligations.RotateComposes : Prop :=
  (∀ (α : Type) (m : Vector α 64) (a b : Fin 4),
    rotate (rotate m (rotationOf a)) (rotationOf b) = rotate m (rotationOf (a + b))) ∧
  ∀ (α : Type) (m : Vector α 64), rotate (rotate (rotate (rotate m .r90) .r90) .r90) .r90 = m

/-- 41_mapper.md section 2: the closed forms of the four tables, and their inverses. -/
def Obligations.OmapClosedForms : Prop :=
  (∀ r c : Fin 8,
    ((omapTables.get 0).get (Fin.ofNat 64 (r.val * 8 + c.val))).toNat = r.val * 8 + c.val ∧
    ((omapTables.get 1).get (Fin.ofNat 64 (r.val * 8 + c.val))).toNat = (7 - c.val) * 8 + r.val ∧
    ((omapTables.get 2).get (Fin.ofNat 64 (r.val * 8 + c.val))).toNat = 63 - (r.val * 8 + c.val) ∧
    ((omapTables.get 3).get (Fin.ofNat 64 (r.val * 8 + c.val))).toNat = c.val * 8 + (7 - r.val)) ∧
  ∀ (s : Fin 4) (L : Fin 64), (omapTables.get (0 - s)).get ((omapTables.get s).get L).toFin = BitVec.ofNat 6 L.val

/-- R125: every map is a bijection on [0, 63]. -/
def Obligations.OmapBijections : Prop :=
  ∀ (s : Fin 4) (P : BitVec 6), ∃! L : Fin 64, (omapTables.get s).get L = P

/-- R127: the selector, as the commands meet it: a supported rotation selects its table, any other value is
InvalidRotation, no value is UnwrittenState; none makes a request or changes the state. -/
def Obligations.RotationSelector : Prop :=
  (sel 0 = some 0 ∧ sel 90 = some 1 ∧ sel 180 = some 2 ∧ sel 270 = some 3) ∧
  (∀ r : Half, Unsupported r → sel r = none) ∧
  (∀ (s : State) (k : Fin 4), s.Rotated k → selectTable s = .ok (s.omap.get k) s) ∧
  (∀ (s : State) (r : Half), s.rot = some r → Unsupported r → selectTable s = .err .invalidRotation 0 s) ∧
  ∀ s : State, s.rot = none → selectTable s = .unwritten s

/-- R128: SETROT stores any value and succeeds; an unsupported value (45, 360, -90) is not reduced to a supported one,
and every later command that selects a table raises InvalidRotation (code 3). -/
def Obligations.SetrotCommand : Prop :=
  (∀ (deg : Half) (rest : List Word), decode ((0x1000#16 ++ deg : Word) :: rest) = .command (.setrot deg)) ∧
  (∀ (deg : Half) (s : State), exec (.setrot deg) s = .next ({ s with rot := some deg }.succeeded 1)) ∧
  (∀ (x y : Byte) (s : State) (r : Half), r ∈ [45#16, 360#16, 0xFFA6#16] → s.rot = some r → OnGrid x y →
    exec (.mapxy x y) s = .next ({ s with d0 := none, d1 := none }.errored 3 0 1)) ∧
  ∀ (i : Instr) (s t : State) (r : Half), r ∈ [45#16, 360#16, 0xFFA6#16] → s.rot = some r → NeedsRotation i s →
    exec i s = .next t → t.err = 3

/-- R131: MAPXY. -/
def Obligations.MapxyCommand : Prop :=
  (∀ (x y : Byte) (rest : List Word), decode ((0x1100#16 ++ x ++ y : Word) :: rest) = .command (.mapxy x y)) ∧
  (∀ (x y : Byte) (s : State) (k : Fin 4) (L : Fin 64), OnGrid x y → s.Rotated k → L.val = y.toNat * 8 + x.toNat →
    exec (.mapxy x y) s =
      .next ({ s with d0 := some (((s.omap.get k).get L).setWidth 32), d1 := some (BitVec.ofNat 32 (s.offsetOf k L))
          }.succeeded 1)) ∧
  (∀ (x y : Byte) (s : State), ¬ OnGrid x y →
    exec (.mapxy x y) s = .next ({ s with d0 := none, d1 := none }.errored 1 0 1)) ∧
  (∀ (x y : Byte) (s : State) (r : Half), OnGrid x y → s.rot = some r → Unsupported r →
    exec (.mapxy x y) s = .next ({ s with d0 := none, d1 := none }.errored 3 0 1)) ∧
  ∀ (x y : Byte) (s : State), OnGrid x y → s.rot = none → exec (.mapxy x y) s = .fault (.unwrittenState s)

/-! ### MatrixFrame I/O (42_frame.md) -/

/-- R140, R141: the validation and the address computation: coordinates first, then the rotation, then `P =
OMAP[s][y*8+x]` and `off = P*2`, an even offset of at most 126; no request, no change of state. -/
def Obligations.AddressComputation : Prop :=
  (∀ (x y : Byte) (s : State), ¬ OnGrid x y → address x y s = .err .outOfRange 0 s) ∧
  (∀ (x y : Byte) (s : State) (r : Half), OnGrid x y → s.rot = some r → Unsupported r →
    address x y s = .err .invalidRotation 0 s) ∧
  (∀ (x y : Byte) (s : State), OnGrid x y → s.rot = none → address x y s = .unwritten s) ∧
  (∀ (x y : Byte) (s : State) (k : Fin 4), OnGrid x y → s.Rotated k →
    ∃ L : Fin 64, L.val = y.toNat * 8 + x.toNat ∧ address x y s = .ok ((s.omap.get k).get L) s) ∧
  ∀ P : BitVec 6, byteOffset P = P.toNat * 2 ∧ byteOffset P ≤ 126

/-- R142: GETPIXEL, with every error in its priority order, for every answer, ok or fail, of the port. (A request that is
never answered: StalledRequestStops.) -/
def Obligations.GetpixelCommand : Prop :=
  (∀ (x y : Byte) (rest : List Word), decode ((0x2000#16 ++ x ++ y : Word) :: rest) = .command (.getpixel x y)) ∧
  (∀ (x y : Byte) (s : State), ¬ OnGrid x y → exec (.getpixel x y) s = .next ({ s with d0 := none }.errored 1 0 1)) ∧
  (∀ (x y : Byte) (s : State) (r : Half), OnGrid x y → s.rot = some r → Unsupported r →
    exec (.getpixel x y) s = .next ({ s with d0 := none }.errored 3 0 1)) ∧
  (∀ (x y : Byte) (s : State), OnGrid x y → s.rot = none → exec (.getpixel x y) s = .fault (.unwrittenState s)) ∧
  ∀ (x y : Byte) (s : State) (k : Fin 4) (L : Fin 64), OnGrid x y → s.Rotated k → L.val = y.toNat * 8 + x.toNat →
    (s.fbAnswer 0 = .ok → s.fbAnswer 1 = .ok →
      exec (.getpixel x y) s =
        .next (({ s with d0 := some ((rgb24 (unpack (s.cellAt (s.offsetOf k L)))).setWidth 32) }.fbUsed 2
          [Event.fbAcquire (.ok ()), Event.fbRead (s.offsetOf k L) (.ok (s.cellAt (s.offsetOf k L))),
              Event.fbRelease]).succeeded 1)) ∧
    (∀ c : Word, s.fbAnswer 0 = .fail c →
      exec (.getpixel x y) s = .next (({ s with d0 := none }.fbUsed 1 [Event.fbAcquire (.fail c)]).errored 4 c 1)) ∧
    (∀ c : Word, s.fbAnswer 0 = .ok → s.fbAnswer 1 = .fail c →
      exec (.getpixel x y) s =
        .next (({ s with d0 := none }.fbUsed 2
          [Event.fbAcquire (.ok ()), Event.fbRead (s.offsetOf k L) (.fail c), Event.fbRelease]).errored 4 c 1))

/-- R144 (42_frame.md), SETPIXEL: the two bytes of the one cell get `pack(c)` little-endian; a failed write leaves
those two bytes open and every other byte unchanged. (The canonical form of the framebuffer is the model's, log entry 3;
it is an invariant, StepKeepsInvariant.) -/
def Obligations.SetpixelCommand : Prop :=
  (∀ (x y : Byte) (c : RGB) (rest : List Word),
    decode ((0x2100#16 ++ x ++ y : Word) :: (0#8 ++ c.r ++ c.g ++ c.b : Word) :: rest) = .command (.setpixel x y c)) ∧
  (∀ (x y : Byte) (c : RGB) (s : State), ¬ OnGrid x y → exec (.setpixel x y c) s = .next (s.errored 1 0 2)) ∧
  (∀ (x y : Byte) (c : RGB) (s : State) (r : Half), OnGrid x y → s.rot = some r → Unsupported r →
    exec (.setpixel x y c) s = .next (s.errored 3 0 2)) ∧
  ∀ (x y : Byte) (c : RGB) (s : State) (k : Fin 4) (L : Fin 64), s.mem.wf → OnGrid x y → s.Rotated k →
    L.val = y.toNat * 8 + x.toNat →
    (s.fbAnswer 0 = .ok → s.fbAnswer 1 = .ok →
      ∃ t : State, exec (.setpixel x y c) s = .next t ∧
        t.byteAt (s.offsetOf k L) = (pack c).extractLsb' 0 8 ∧ t.byteAt (s.offsetOf k L + 1) = (pack c).extractLsb' 8 8 ∧
        (∀ a, a ≠ s.offsetOf k L → a ≠ s.offsetOf k L + 1 → t.byteAt a = s.byteAt a) ∧
        t = ({ s with mem := t.mem }.fbUsed 2
          [Event.fbAcquire (.ok ()), Event.fbWrite (s.offsetOf k L) (pack c) (.ok ()), Event.fbRelease]).succeeded 2) ∧
    (∀ e : Word, s.fbAnswer 0 = .fail e →
      exec (.setpixel x y c) s = .next ((s.fbUsed 1 [Event.fbAcquire (.fail e)]).errored 4 e 2)) ∧
    (∀ e : Word, s.fbAnswer 0 = .ok → s.fbAnswer 1 = .fail e →
      ∃ t : State, exec (.setpixel x y c) s = .next t ∧
        (∀ a, a ≠ s.offsetOf k L → a ≠ s.offsetOf k L + 1 → t.byteAt a = s.byteAt a) ∧
        t = ({ s with mem := t.mem, freeCount := t.freeCount }.fbUsed 2
          [Event.fbAcquire (.ok ()), Event.fbWrite (s.offsetOf k L) (pack c) (.fail e), Event.fbRelease]).errored 4 e 2)

/-- The frame of SETPIXEL in every outcome that answers a next state: the address stored to is the one `address`
computes, and every byte outside its two bytes reads as before; where `address` computes none, every byte does. -/
def Obligations.SetpixelFrame : Prop :=
  ∀ (x y : Byte) (c : RGB) (s t : State), exec (.setpixel x y c) s = .next t →
    (∀ (P : BitVec 6) (u : State), address x y s = .ok P u →
      ∀ a, a ≠ byteOffset P → a ≠ byteOffset P + 1 → t.byteAt a = s.byteAt a) ∧
    ((¬ ∃ (P : BitVec 6) (u : State), address x y s = .ok P u) → ∀ a, t.byteAt a = s.byteAt a)

/-- 42_frame.md section 3, SETPIXELS: 64 colours are written each at its mapped offset, logical cell by logical cell;
any other number of colours is InvalidLength before `ROT` is read; the payload is consumed whole in every outcome. -/
def Obligations.SetpixelsCommand : Prop :=
  (∀ (cs : List RGB) (s : State), cs.length ≠ 64 →
    exec (.setpixels cs) s = .next (s.errored 2 0 (1 + cs.length))) ∧
  ∀ (cs : Vector RGB 64) (s : State) (k : Fin 4), s.mem.wf → s.OmapOk → s.Rotated k →
    (∀ n < 65, s.fbAnswer n = .ok) →
    ∃ t : State, exec (.setpixels cs.toList) s = .next t ∧
      (∀ L : Fin 64, t.cellAt (s.offsetOf k L) = pack (cs.get L)) ∧
      (∀ a, 128 ≤ a → t.byteAt a = s.byteAt a) ∧
      t = ({ s with mem := t.mem }.fbUsed 65
        ([Event.fbAcquire (.ok ())] ++
          ((List.finRange 64).map fun L => Event.fbWrite (s.offsetOf k L) (pack (cs.get L)) (.ok ())) ++
          [Event.fbRelease])).succeeded 65

/-- 42_frame.md sections 1 and 3: a command that addresses the whole matrix needs a supported rotation: for any other
value it raises InvalidRotation with no framebuffer request (LDIMG with redraw after its image requests). -/
def Obligations.BulkCommandsNeedSupportedRotation : Prop :=
  ∀ (s : State) (r : Half), s.rot = some r → Unsupported r →
    (∀ cs : List RGB, cs.length = 64 → exec (.setpixels cs) s = .next (s.errored 3 0 65)) ∧
    (∀ c : RGB, exec (.clear c) s = .next (s.errored 3 0 1)) ∧
    exec .getpixels s = .next ({ s with pbuf := Vector.replicate 64 none }.errored 3 0 1) ∧
    (∀ src : Half, s.imgAnswer = .ok → ∃ t : State, exec (.ldimg src true) s = .next t ∧ t.err = 3 ∧
      t.pbuf = Vector.replicate 64 none ∧ t.mem = s.mem ∧ ∀ e ∈ newEvents s t, e.isDeviceIO = false)

/-- R147: GETPIXELS: all 64 cells read in row-major order, `PBUF` written whole; on a failure nothing is delivered. -/
def Obligations.GetpixelsCommand : Prop :=
  (∀ rest : List Word, decode (0x23000000#32 :: rest) = .command .getpixels) ∧
  (∀ (s : State) (r : Half), s.rot = some r → Unsupported r →
    exec .getpixels s = .next ({ s with pbuf := Vector.replicate 64 none }.errored 3 0 1)) ∧
  ∀ (s : State) (k : Fin 4), s.Rotated k →
    ((∀ n < 65, s.fbAnswer n = .ok) →
      ∃ t : State, exec .getpixels s = .next t ∧
        (∀ L : Fin 64, t.pbuf.get L = some (rgb24 (unpack (s.cellAt (s.offsetOf k L))))) ∧
        t = ({ s with pbuf := t.pbuf }.fbUsed 65
          ([Event.fbAcquire (.ok ())] ++
            ((List.finRange 64).map fun L => Event.fbRead (s.offsetOf k L) (.ok (s.cellAt (s.offsetOf k L)))) ++
            [Event.fbRelease])).succeeded 1) ∧
    (∀ c : Word, s.fbAnswer 0 = .fail c →
      exec .getpixels s =
        .next (({ s with pbuf := Vector.replicate 64 none }.fbUsed 1 [Event.fbAcquire (.fail c)]).errored 4 c 1)) ∧
    (∀ (n : Nat) (hn : n < 64) (c : Word), (∀ m ≤ n, s.fbAnswer m = .ok) → s.fbAnswer (n + 1) = .fail c →
      exec .getpixels s =
        .next (({ s with pbuf := Vector.replicate 64 none }.fbUsed (n + 2)
          ([Event.fbAcquire (.ok ())] ++
            (((List.finRange 64).take n).map fun L => Event.fbRead (s.offsetOf k L) (.ok (s.cellAt (s.offsetOf k L)))) ++
            [Event.fbRead (s.offsetOf k ⟨n, hn⟩) (.fail c), Event.fbRelease])).errored 4 c 1))

/-- 42_frame.md section 3, CLEAR: every one of the 64 cells gets `pack(c)`, so that on success the content of bytes
0..127 does not depend on the rotation. -/
def Obligations.ClearCommand : Prop :=
  (∀ (c : RGB) (rest : List Word), decode ((0x24#8 ++ c.r ++ c.g ++ c.b : Word) :: rest) = .command (.clear c)) ∧
  ∀ (c : RGB) (s : State) (k : Fin 4), s.mem.wf → s.OmapOk → s.Rotated k → (∀ n < 65, s.fbAnswer n = .ok) →
    ∃ t : State, exec (.clear c) s = .next t ∧
      (∀ i < 64, t.cellAt (2 * i) = pack c) ∧
      (∀ a, 128 ≤ a → t.byteAt a = s.byteAt a) ∧
      t = ({ s with mem := t.mem }.fbUsed 65
        ([Event.fbAcquire (.ok ())] ++
          ((List.finRange 64).map fun L => Event.fbWrite (s.offsetOf k L) (pack c) (.ok ())) ++
          [Event.fbRelease])).succeeded 1

/-- 42_frame.md section 4, LDIMG without redraw: the image is opened and 64 samples are taken, the queued ones first; `PBUF`
gets the high bytes of the three colour channels of the very samples that the trace records; `ROT` is not read (it may hold
anything or nothing) and the framebuffer is not touched. -/
def Obligations.LdimgCommand : Prop :=
  ∀ (src : Half) (s : State), s.imgAnswer = .ok →
    ∃ (t : State) (ps : Vector Sample 64), exec (.ldimg src false) s = .next t ∧ SamplesOf s ps ∧
      (∀ L : Fin 64, t.pbuf.get L = some (rgb24 (highBytes (ps.get L)))) ∧
      t = { s with
        pbuf := t.pbuf, trace := s.trace ++ imageEvents src ps, ports := s.ports.afterImage 0
        freeCount := t.freeCount }.succeeded 1

/-- 42_frame.md section 4, LDIMG with redraw: as without, and the sampled colours are also written to the framebuffer,
packed, while `PBUF` holds them in full. -/
def Obligations.LdimgRedraw : Prop :=
  ∀ (src : Half) (s : State) (k : Fin 4), s.mem.wf → s.OmapOk → s.imgAnswer = .ok → s.Rotated k →
    (∀ n < 65, s.fbAnswer n = .ok) →
    ∃ (t : State) (ps : Vector Sample 64), exec (.ldimg src true) s = .next t ∧ SamplesOf s ps ∧
      (∀ L : Fin 64, t.pbuf.get L = some (rgb24 (highBytes (ps.get L))) ∧
        t.cellAt (s.offsetOf k L) = pack (highBytes (ps.get L))) ∧
      (∀ a, 128 ≤ a → t.byteAt a = s.byteAt a) ∧
      t = { s with
        mem := t.mem, pbuf := t.pbuf
        trace := s.trace ++ (imageEvents src ps ++ [Event.fbAcquire (.ok ())] ++ s.frameEvents k (ps.map highBytes) ++
          [Event.fbRelease])
        ports := s.ports.afterImage 65, freeCount := t.freeCount }.succeeded 1

/-- 42_frame.md section 4 and 60_exceptions.md section 2: an image that is not found or does not decode is reported
before the rotation is looked at, after one `ImgOpen` event, with `PBUF` all `none` and nothing else changed. -/
def Obligations.LdimgImageErrors : Prop :=
  ∀ (src : Half) (redraw : Bool) (s : State),
    (s.imgAnswer = .notFound → ∃ t : State, exec (.ldimg src redraw) s = .next t ∧
      t = ({ s with pbuf := Vector.replicate 64 none, trace := s.trace ++ [Event.imgOpen src .notFound], ports := t.ports
          }).errored 8 0 1) ∧
    (s.imgAnswer = .decodeError → ∃ t : State, exec (.ldimg src redraw) s = .next t ∧
      t = ({ s with pbuf := Vector.replicate 64 none, trace := s.trace ++ [Event.imgOpen src .decodeError], ports :=
          t.ports }).errored 9 0 1)

/-- 42_frame.md section 3 (the failing requests of `write_frame`) and 70_reset_and_hazards.md section 3, for its three users
SETPIXELS, CLEAR and LDIMG with redraw: when the write of logical cell `n` fails, the cells of 0..n-1 hold their new values,
the cells after `n` their old ones, and the command ends with DeviceIOError right after a release; when the acquire fails, it
ends there, with no release and the framebuffer unchanged. -/
def Obligations.FrameWriteFailsPartway : Prop :=
  (∀ (s : State) (k : Fin 4) (n : Fin 64) (e : Word), s.mem.wf → s.OmapOk → s.Rotated k →
    (∀ m ≤ n.val, s.fbAnswer m = .ok) → s.fbAnswer (n.val + 1) = .fail e →
    (∀ cs : Vector RGB 64, ∃ t : State, exec (.setpixels cs.toList) s = .next t ∧ PartWritten cs k n s t ∧
      t = ({ s with mem := t.mem, freeCount := t.freeCount }.fbUsed (n.val + 2) (s.failedFrameEvents k cs n e)).errored
        4 e 65) ∧
    (∀ c : RGB, ∃ t : State, exec (.clear c) s = .next t ∧ PartWritten (Vector.replicate 64 c) k n s t ∧
      t = ({ s with mem := t.mem, freeCount := t.freeCount }.fbUsed (n.val + 2)
        (s.failedFrameEvents k (Vector.replicate 64 c) n e)).errored 4 e 1) ∧
    ∀ src : Half, s.imgAnswer = .ok →
      ∃ (t : State) (ps : Vector Sample 64), exec (.ldimg src true) s = .next t ∧ SamplesOf s ps ∧
        PartWritten (ps.map highBytes) k n s t ∧
        t = { s with
          mem := t.mem, pbuf := Vector.replicate 64 none
          trace := s.trace ++ (imageEvents src ps ++ s.failedFrameEvents k (ps.map highBytes) n e)
          ports := s.ports.afterImage (n.val + 2), freeCount := t.freeCount }.errored 4 e 1) ∧
  ∀ (s : State) (k : Fin 4) (e : Word), s.Rotated k → s.fbAnswer 0 = .fail e →
    (∀ cs : List RGB, cs.length = 64 →
      exec (.setpixels cs) s = .next ((s.fbUsed 1 [Event.fbAcquire (.fail e)]).errored 4 e 65)) ∧
    (∀ c : RGB, exec (.clear c) s = .next ((s.fbUsed 1 [Event.fbAcquire (.fail e)]).errored 4 e 1)) ∧
    ∀ src : Half, s.imgAnswer = .ok →
      ∃ (t : State) (ps : Vector Sample 64), exec (.ldimg src true) s = .next t ∧ SamplesOf s ps ∧
        t = { s with
          pbuf := Vector.replicate 64 none
          trace := s.trace ++ (imageEvents src ps ++ [Event.fbAcquire (.fail e)])
          ports := s.ports.afterImage 1, freeCount := t.freeCount }.errored 4 e 1

/-- 42_frame.md section 2, 20_memory.md (read after write): a SETPIXEL that succeeds, followed immediately by a GETPIXEL
of the same coordinate that succeeds, gives `unpack(pack(c))`. -/
def Obligations.SetThenGetPixel : Prop :=
  ∀ (x y : Byte) (c : RGB) (s t u : State), s.mem.wf → exec (.setpixel x y c) s = .next t → t.err = 0 →
    exec (.getpixel x y) t = .next u → u.err = 0 →
    u.d0 = some (0#8 ++ (unpack (pack c)).r ++ (unpack (pack c)).g ++ (unpack (pack c)).b)

/-- 42_frame.md section 3 (rotation never changes a logical result): whatever the rotation, SETPIXELS and then
GETPIXELS, both succeeding, give back each colour as `unpack(pack(c))` in the same order. -/
def Obligations.FrameRoundTrip : Prop :=
  ∀ (cs : Vector RGB 64) (s t u : State), s.mem.wf → s.OmapOk → exec (.setpixels cs.toList) s = .next t → t.err = 0 →
    exec .getpixels t = .next u → u.err = 0 →
    ∀ L : Fin 64, u.pbuf.get L = some (rgb24 (unpack (pack (cs.get L))))

/-! ### ColourSensor pipeline (43_sensor.md) -/

/-- R174: SETGAIN. -/
def Obligations.SetgainCommand : Prop :=
  (∀ (level : Half) (rest : List Word), decode ((0x3000#16 ++ level : Word) :: rest) = .command (.setgain level)) ∧
  (∀ (level : Half) (s : State), (∀ p ∈ s.cfg.gainTable, (p.1 : Int) ≠ level.toInt) →
    exec (.setgain level) s = .next (s.errored 5 0 1)) ∧
  ∀ (level : Half) (s : State) (g : Nat) (code : Byte), s.cfg.wf → (g, code) ∈ s.cfg.gainTable → (g : Int) = level.toInt →
    (s.busAnswer 0 = .ok →
      exec (.setgain level) s =
        .next (({ s with gain := some level }.busUsed 1 [Event.busWrite s.cfg.sensorAddr 0x8F code (.ok ())]).succeeded
            1)) ∧
    ∀ e : Word, s.busAnswer 0 = .fail e →
      exec (.setgain level) s = .next ((s.busUsed 1 [Event.busWrite s.cfg.sensorAddr 0x8F code (.fail e)]).errored 4 e 1)

/-- R176: SETINTEG. -/
def Obligations.SetintegCommand : Prop :=
  (∀ (cycles : Half) (rest : List Word), decode ((0x3100#16 ++ cycles : Word) :: rest) = .command (.setinteg cycles)) ∧
  (∀ (cycles : Half) (s : State), ¬ (1 ≤ cycles.toInt ∧ cycles.toInt ≤ 256) →
    exec (.setinteg cycles) s = .next (s.errored 6 0 1)) ∧
  ∀ (cycles : Half) (s : State), 1 ≤ cycles.toInt → cycles.toInt ≤ 256 →
    (s.busAnswer 0 = .ok →
      exec (.setinteg cycles) s =
        .next (({ s with cycles := some cycles, timing := some s.cfg.settleIntegUs }.busUsed 1
          [Event.busWrite s.cfg.sensorAddr 0x81 (BitVec.ofInt 8 (256 - cycles.toInt)) (.ok ()),
            Event.delay s.cfg.settleIntegUs.toNat]).succeeded 1)) ∧
    ∀ e : Word, s.busAnswer 0 = .fail e →
      exec (.setinteg cycles) s =
        .next ((s.busUsed 1
          [Event.busWrite s.cfg.sensorAddr 0x81 (BitVec.ofInt 8 (256 - cycles.toInt)) (.fail e)]).errored 4 e 1)

/-- R180: ENABLE: the ordered two-step sequence, or one write of zero; no register of the block but the status changes. -/
def Obligations.EnableCommand : Prop :=
  (∀ (on : Bool) (rest : List Word),
    decode ((if on then 0x32000001#32 else 0x32000000#32) :: rest) = .command (.enable on)) ∧
  ∀ s : State,
    (s.busAnswer 0 = .ok → s.busAnswer 1 = .ok →
      exec (.enable true) s =
        .next ((s.busUsed 2
          [Event.busWrite s.cfg.sensorAddr 0x80 s.cfg.enPon (.ok ()), Event.delay s.cfg.settlePonUs,
            Event.busWrite s.cfg.sensorAddr 0x80 (s.cfg.enPon ||| s.cfg.enAen) (.ok ())]).succeeded 1)) ∧
    (s.busAnswer 0 = .ok →
      exec (.enable false) s =
        .next ((s.busUsed 1 [Event.busWrite s.cfg.sensorAddr 0x80 0x00 (.ok ())]).succeeded 1)) ∧
    (∀ e : Word, s.busAnswer 0 = .fail e →
      exec (.enable true) s =
        .next ((s.busUsed 1 [Event.busWrite s.cfg.sensorAddr 0x80 s.cfg.enPon (.fail e)]).errored 4 e 1) ∧
      exec (.enable false) s =
        .next ((s.busUsed 1 [Event.busWrite s.cfg.sensorAddr 0x80 0x00 (.fail e)]).errored 4 e 1)) ∧
    ∀ e : Word, s.busAnswer 0 = .ok → s.busAnswer 1 = .fail e →
      exec (.enable true) s =
        .next ((s.busUsed 2
          [Event.busWrite s.cfg.sensorAddr 0x80 s.cfg.enPon (.ok ()), Event.delay s.cfg.settlePonUs,
            Event.busWrite s.cfg.sensorAddr 0x80 (s.cfg.enPon ||| s.cfg.enAen) (.fail e)]).errored 4 e 1)

/-- R183: GETRAW: four reads, clear first, results red, green, blue, clear; a failing read ends the command, issues no
later read and leaves no partial result. -/
def Obligations.GetrawCommand : Prop :=
  (∀ rest : List Word, decode (0x33000000#32 :: rest) = .command .getraw) ∧
  (∀ s : State, (∀ n < 4, s.busAnswer n = .ok) →
    ∃ (r g b c : Half) (t : State), exec .getraw s = .next t ∧
      t = { s with
        d0 := some (r.setWidth 32), d1 := some (g.setWidth 32), d2 := some (b.setWidth 32), d3 := some (c.setWidth 32)
        trace := s.trace ++
          [Event.busRead16 s.cfg.sensorAddr 0x94 (.ok c), Event.busRead16 s.cfg.sensorAddr 0x96 (.ok r),
            Event.busRead16 s.cfg.sensorAddr 0x98 (.ok g), Event.busRead16 s.cfg.sensorAddr 0x9A (.ok b)]
        ports := t.ports, freeCount := t.freeCount }.succeeded 1 ∧
      (∀ c' r' g' b' : Half, s.cfg.backend = .fixture c' r' g' b' → c = c' ∧ r = r' ∧ g = g' ∧ b = b') ∧
      ∀ (c' r' g' b' : Half) (rest : List Half), s.cfg.backend = .device →
        s.ports.busData = c' :: r' :: g' :: b' :: rest → c = c' ∧ r = r' ∧ g = g' ∧ b = b') ∧
  ∀ (s : State) (n : Nat) (e : Word), n < 4 → (∀ m < n, s.busAnswer m = .ok) → s.busAnswer n = .fail e →
    ∃ t : State, exec .getraw s = .next t ∧ (newEvents s t).length = n + 1 ∧
      (newEvents s t).getLast? =
        some (Event.busRead16 s.cfg.sensorAddr (BitVec.ofNat 8 (0x94 + 2 * n)) (.fail e)) ∧
      t = { s with
        d0 := none, d1 := none, d2 := none, d3 := none
        trace := t.trace, ports := t.ports, freeCount := t.freeCount }.errored 4 e 1

/-- R186: MAXRAW delivers `MAX_RAW(CYCLES)`, and faults when `CYCLES` holds no value. -/
def Obligations.MaxrawCommand : Prop :=
  (∀ rest : List Word, decode (0x34000000#32 :: rest) = .command .maxraw) ∧
  (∀ (s : State) (c : Half), s.cycles = some c →
    exec .maxraw s = .next ({ s with d0 := some (maxRawAt s.cfg c) }.succeeded 1)) ∧
  (∀ (s : State) (n : Fin 256), maxRawAt s.cfg (BitVec.ofNat 16 (n.val + 1)) = s.cfg.maxRaw.get n) ∧
  ∀ s : State, s.cycles = none → exec .maxraw s = .fault (.unwrittenState s)

/-- R188: TORGB: each channel is `raw / scaling`, floor, unclamped; SensorRangeError exactly when `MAX_RAW(CYCLES) <
256`; the `clear` operand and `GAIN` are not read; a result is at most 255 exactly when `raw < 256 * scaling`. -/
def Obligations.TorgbCommand : Prop :=
  (∀ (red green blue clear : Half) (rest : List Word),
    decode (0x35000000#32 :: (red ++ green : Word) :: (blue ++ clear : Word) :: rest) =
      .command (.torgb red green blue clear)) ∧
  (∀ (red green blue clear c : Half) (s : State), s.cycles = some c → 256 ≤ (maxRawAt s.cfg c).toNat →
    exec (.torgb red green blue clear) s =
      .next ({ s with
        d0 := some (BitVec.ofNat 32 (red.toNat / ((maxRawAt s.cfg c).toNat / 256)))
        d1 := some (BitVec.ofNat 32 (green.toNat / ((maxRawAt s.cfg c).toNat / 256)))
        d2 := some (BitVec.ofNat 32 (blue.toNat / ((maxRawAt s.cfg c).toNat / 256))) }.succeeded 3)) ∧
  (∀ (red green blue clear c : Half) (s : State), s.cycles = some c → (maxRawAt s.cfg c).toNat < 256 →
    exec (.torgb red green blue clear) s =
      .next ({ s with d0 := none, d1 := none, d2 := none }.errored 7 0 3)) ∧
  (∀ (red green blue clear : Half) (s : State), s.cycles = none →
    exec (.torgb red green blue clear) s = .fault (.unwrittenState s)) ∧
  ∀ (raw : Half) (scaling : Nat), 0 < scaling →
    ((scaled raw scaling).toNat ≤ 255 ↔ raw.toNat < 256 * scaling) ∧ (scaled raw scaling).toNat ≤ 65535

/-- R172: the reverse lookup gives the smallest level with the code, and no result when no level has it. -/
def Obligations.GainOfCodeLowest : Prop :=
  ∀ (table : List (Nat × Byte)) (k : Byte),
    (∀ g : Nat, gainOfCode table k = some g ↔ (g, k) ∈ table ∧ ∀ g' : Nat, (g', k) ∈ table → g ≤ g') ∧
    (gainOfCode table k = none ↔ ∀ g : Nat, (g, k) ∉ table)

/-! ### Errors and the machine as a whole (60_exceptions.md) -/

/-- R25, R26, R27: after every command that completes, `ERR` is 0 or a code of R200; the bit of the code, and no other,
is set in `ERRLOG`, and none is cleared; `ERRCAUSE` is the cause of an answer that failed, for DeviceIOError only. -/
def Obligations.StatusAfterEveryCommand : Prop :=
  (∀ (i : Instr) (s t : State), exec i s = .next t →
    (t.err = 0 ∧ t.errLog = s.errLog ∧ t.errCause = 0) ∨
    (1 ≤ t.err.toNat ∧ t.err.toNat ≤ 9 ∧ t.errLog = s.errLog ||| BitVec.twoPow 16 t.err.toNat ∧
      (t.err ≠ 4 → t.errCause = 0) ∧ (t.err = 4 → ∃ e ∈ newEvents s t, e.failCause = some t.errCause))) ∧
  (∀ (len : Nat) (s : State), execIllegal len s = .next (s.errored 10 0 len)) ∧
  (∀ (s t : State), step s = .next t → s.errLog &&& 0xF801#16 = 0 → t.errLog &&& 0xF801#16 = 0) ∧
  State.reset.err = 0 ∧ State.reset.errLog = 0 ∧ State.reset.errCause = 0

/-- R201: a command that ends in a validation error makes no framebuffer or bus request, changes no byte of `FB` and no
register other than the status registers, `cp` and the result registers it names, which become `none`; an illegal
command (code 10) changes only the status registers and `cp`; the image errors come after one `ImgOpen` event and
likewise change nothing else. -/
def Obligations.ValidationErrorsTouchNoDevice : Prop :=
  (∀ (i : Instr) (s t : State), exec i s = .next t →
    (t.err ∈ [1#8, 2#8, 3#8, 5#8, 6#8, 7#8] →
      (∀ e ∈ newEvents s t, e.isDeviceIO = false) ∧
      ((∀ src, i ≠ .ldimg src true) → newEvents s t = []) ∧
      t.mem = s.mem ∧ t.rot = s.rot ∧ t.gain = s.gain ∧ t.cycles = s.cycles ∧ t.timing = s.timing ∧ t.omap = s.omap ∧
      NamedResultsNone i t ∧ OtherResultsKept i s t) ∧
    (t.err ∈ [8#8, 9#8] →
      (∃ src a, newEvents s t = [Event.imgOpen src a]) ∧
      t.mem = s.mem ∧ t.rot = s.rot ∧ t.gain = s.gain ∧ t.cycles = s.cycles ∧ t.timing = s.timing ∧ t.omap = s.omap ∧
      NamedResultsNone i t ∧ OtherResultsKept i s t)) ∧
  ∀ (s t : State) (len : Nat), decode (s.words.drop s.cp) = .illegal len → step s = .next t →
    t = { s with err := 10, errLog := s.errLog ||| BitVec.twoPow 16 10, errCause := 0, cp := s.cp + len }

/-- R202: DeviceIOError ends the command at the first request that fails: no later access, no delay after it (at most
the release of the port), and no update of `GAIN`, `CYCLES` or `TIMING`. -/
def Obligations.DeviceErrorEndsCommand : Prop :=
  ∀ (i : Instr) (s t : State), exec i s = .next t → t.err = 4 →
    (∃ (es : List Event) (e : Event), (newEvents s t = es ++ [e] ∨ newEvents s t = es ++ [e, Event.fbRelease]) ∧
      e.failCause = some t.errCause ∧ ∀ e' ∈ es, e'.failCause = none) ∧
    t.rot = s.rot ∧ t.gain = s.gain ∧ t.cycles = s.cycles ∧ t.timing = s.timing

/-- 60_exceptions.md section 2: one error is reported, the first in the priority order: a coordinate out of range, a
wrong length and an image error each come before an unsupported (or missing) rotation. -/
def Obligations.ErrorPriority : Prop :=
  ∀ s t : State,
    (∀ (x y : Byte) (c : RGB) (i : Instr), ¬ OnGrid x y → i ∈ [.mapxy x y, .getpixel x y, .setpixel x y c] →
      exec i s = .next t → t.err = 1) ∧
    (∀ cs : List RGB, cs.length ≠ 64 → exec (.setpixels cs) s = .next t → t.err = 2) ∧
    (∀ (src : Half) (redraw : Bool), s.imgAnswer = .notFound → exec (.ldimg src redraw) s = .next t → t.err = 8) ∧
    (∀ (src : Half) (redraw : Bool), s.imgAnswer = .decodeError → exec (.ldimg src redraw) s = .next t → t.err = 9) ∧
    (∀ (i : Instr) (r : Half), NeedsRotation i s → s.rot = some r → Unsupported r → exec i s = .next t → t.err = 3)

/-- R206: a command faults with UnwrittenState exactly when it comes to its read of `ROT` or `CYCLES` and the register
holds `none`. -/
def Obligations.UnwrittenStateExactly : Prop :=
  ∀ (i : Instr) (s : State),
    (∃ l : State, exec i s = .fault (.unwrittenState l)) ↔
      (NeedsRotation i s ∧ s.rot = none) ∨ (NeedsCycles i ∧ s.cycles = none)

/-- 60_exceptions.md section 3 (R207): a command stuck on a port has not completed: the status registers, `cp`, the results and
the other registers hold what they held before it; a command whose words never all arrived leaves the whole state as it was.
The last clause is vector V13 (95_test_vectors.md): a GETRAW whose second read is never answered has the first read's event and
no other; that an unanswered request leaves no event is DEDUCED, log entry 12. -/
def Obligations.StuckKeepsStatus : Prop :=
  (∀ (i : Instr) (s l : State), exec i s = .fault (.stuckPort l) →
    l = { s with mem := l.mem, trace := l.trace, ports := l.ports, freeCount := l.freeCount }) ∧
  (∀ (i : Instr) (s l : State), exec i s = .fault (.stuckPort l) → ¬ s.NoIOFail) ∧
  (∀ s l : State, step s = .fault (.incompleteCommand l) → l = s ∧ decode (s.words.drop s.cp) = .incomplete) ∧
  ∀ s : State, s.busAnswer 0 = .ok → s.busAnswer 1 = .stall →
    ∃ (c : Half) (l : State), exec .getraw s = .fault (.stuckPort l) ∧
      newEvents s l = [Event.busRead16 s.cfg.sensorAddr 0x94 (.ok c)]

/-- The frame of the named registers, for all sixteen commands (10_state.md section 2, 30_encoding.md section 8: `ROT`
is written by SETROT, `GAIN` by SETGAIN, `CYCLES` and `TIMING` by SETINTEG, `OMAP` and the configuration by none). -/
def Obligations.NamedRegistersFrame : Prop :=
  ∀ (i : Instr) (s t : State), exec i s = .next t →
    ((∀ deg, i ≠ .setrot deg) → t.rot = s.rot) ∧
    ((∀ level, i ≠ .setgain level) → t.gain = s.gain) ∧
    ((∀ cycles, i ≠ .setinteg cycles) → t.cycles = s.cycles ∧ t.timing = s.timing) ∧
    t.omap = s.omap ∧ t.cfg = s.cfg ∧ t.words = s.words ∧ ∃ es, t.trace = s.trace ++ es

/-- The frame of the result registers (10_state.md section 4): a register the command's rule does not name keeps its
content in every outcome that answers a next state; one it names holds `none` after an error. -/
def Obligations.ResultRegistersFrame : Prop :=
  ∀ (i : Instr) (s t : State), exec i s = .next t →
    OtherResultsKept i s t ∧ (t.err ≠ 0 → NamedResultsNone i t)

/-- The frame of the framebuffer: a command that stores nothing leaves every byte; no command touches a byte from 128
on, and every access is of two bytes at an even offset of at most 126 (20_memory.md section 1). -/
def Obligations.FramebufferFrame : Prop :=
  ∀ (i : Instr) (s t : State), exec i s = .next t →
    (StoresNothing i → ∀ a, t.byteAt a = s.byteAt a) ∧
    (∀ a, 128 ≤ a → t.byteAt a = s.byteAt a) ∧
    ∀ e ∈ newEvents s t, ∀ off ∈ e.offset, off % 2 = 0 ∧ off ≤ 126

/-- 20_memory.md section 1 (ownership per command): in every command that completes, the port is released exactly as
often as it was acquired, at most once; and where the command accesses the framebuffer, its accesses stand, without a
gap, between the acquire, before which there was no device request, and the release, which comes last. -/
def Obligations.FramebufferPortBracketed : Prop :=
  ∀ (i : Instr) (s t : State), exec i s = .next t →
    (newEvents s t).count (Event.fbAcquire (.ok ())) = (newEvents s t).count Event.fbRelease ∧
    (newEvents s t).count Event.fbRelease ≤ 1 ∧
    ((∃ e ∈ newEvents s t, e.offset ≠ none) →
      ∃ pre mid : List Event, newEvents s t = pre ++ [Event.fbAcquire (.ok ())] ++ mid ++ [Event.fbRelease] ∧
        (∀ e ∈ pre, e.isDeviceIO = false) ∧ ∀ e ∈ mid, e.offset ≠ none)

/-- 00_scope.md section 1: no command of the matrix side depends on the sensor registers, and none of the sensor side on
the rotation or the framebuffer. -/
def Obligations.SensorAndMatrixIndependent : Prop :=
  (∀ (i : Instr) (s t : State) (g c : Option Half) (tm : Option Word) (ba : List PortAnswer) (bd : List Half),
    ¬ SensorSide i → exec i s = .next t →
    exec i { s with gain := g, cycles := c, timing := tm, ports := { s.ports with bus := ba, busData := bd } } =
      .next { t with gain := g, cycles := c, timing := tm, ports := { t.ports with bus := ba, busData := bd } }) ∧
  ∀ (i : Instr) (s t : State) (r : Option Half) (m : Memory) (fa : List PortAnswer), SensorSide i → exec i s = .next t →
    exec i { s with rot := r, mem := m, ports := { s.ports with fb := fa } } =
      .next { t with rot := r, mem := m, ports := { t.ports with fb := fa } }

/-- 10_state.md section 4: no command reads a result register: what a command answers does not depend on what `D0` to
`D3` and `PBUF` held before it. -/
def Obligations.ResultRegistersNeverRead : Prop :=
  ∀ (i : Instr) (s t : State) (a b c d : Option Word) (p : Vector (Option (BitVec 24)) 64), exec i s = .next t →
    ∃ u : State, exec i { s with d0 := a, d1 := b, d2 := c, d3 := d, pbuf := p } = .next u ∧
      u = { t with d0 := u.d0, d1 := u.d1, d2 := u.d2, d3 := u.d3, pbuf := u.pbuf } ∧
      (u.d0 = t.d0 ∨ u.d0 = a) ∧ (u.d1 = t.d1 ∨ u.d1 = b) ∧ (u.d2 = t.d2 ∨ u.d2 = c) ∧ (u.d3 = t.d3 ∨ u.d3 = d) ∧
      (u.pbuf = t.pbuf ∨ u.pbuf = p)

/-- With no failing and no stalling answer still to come (NoIOFail, 92_eei_decisions.md D15), a command never ends in
DeviceIOError and is never stuck, and the property is kept. A statement under NoIOFail says nothing of a device that
fails. -/
def Obligations.NoIOFailNoDeviceError : Prop :=
  ∀ (i : Instr) (s : State), s.NoIOFail →
    (∀ t : State, exec i s = .next t → t.err ≠ 4 ∧ t.NoIOFail) ∧ ∀ l : State, exec i s ≠ .fault (.stuckPort l)

/-! ### Reset, the invariant, the read port -/

/-- 10_state.md section 10 and 70_reset_and_hazards.md section 1: what reset leaves, for the registers to which the spec gives
a value; a reset event on a machine that ran does the same, and leaves the framebuffer, the configuration and the queued
answers alone (log entry 18). (The values of ROT, GAIN, CYCLES and TIMING after reset are the model's choice, log entry 1, and
are not stated here.) -/
def Obligations.ResetState : Prop :=
  (State.reset.omap = Vector.ofFn (fun k : Fin 4 => rotate identityMap (rotationOf k)) ∧ State.reset.err = 0 ∧
    State.reset.errLog = 0 ∧ State.reset.errCause = 0 ∧ State.reset.d0 = none ∧ State.reset.d1 = none ∧
    State.reset.d2 = none ∧ State.reset.d3 = none ∧ State.reset.pbuf = Vector.replicate 64 none ∧ State.reset.cp = 0 ∧
    State.reset.trace = []) ∧
  ∀ s : State,
    s.resetEvent.omap = Vector.ofFn (fun k : Fin 4 => rotate identityMap (rotationOf k)) ∧ s.resetEvent.err = 0 ∧
      s.resetEvent.errLog = 0 ∧ s.resetEvent.errCause = 0 ∧ s.resetEvent.d0 = none ∧ s.resetEvent.d1 = none ∧
      s.resetEvent.d2 = none ∧ s.resetEvent.d3 = none ∧ s.resetEvent.pbuf = Vector.replicate 64 none ∧
      s.resetEvent.cp = 0 ∧ s.resetEvent.trace = [] ∧
      s.resetEvent.mem = s.mem ∧ s.resetEvent.cfg = s.cfg ∧ s.resetEvent.ports = s.ports

/-- The invariant holds after reset (its parts about ROT, GAIN, CYCLES and TIMING rest on the model's reset values, log
entry 1). -/
def Obligations.ResetMeetsInvariant : Prop := State.reset.Inv

/-- Every step keeps the invariant, from every state that meets it: the framebuffer stays in canonical form within
FBLEN, the orientation maps stay the four tables, the status registers stay consistent, `CYCLES` stays in 1..256, `GAIN`
stays a level of the gain table, `TIMING` stays the settle interval, `PBUF` stays whole, `ROT` and `CYCLES` keep holding
values (log entry 1), `cp` stays within the words offered; and no step from such a state faults with UnwrittenState. -/
def Obligations.StepKeepsInvariant : Prop :=
  (∀ s t : State, s.Inv → step s = .next t → t.Inv) ∧
  ∀ s l : State, s.Inv → step s ≠ .fault (.unwrittenState l)

/-- R32: the read port: the numbered registers zero-extended, every other number 0, and the fault that a model gives a read of
a register that holds `none`. Where there is no fault, the value is the one that the port returns, whichever read it is. -/
def Obligations.ReadPort : Prop :=
  ∀ s : State,
    (∀ (k rn : Nat) (v : Word), regReadOrFault s rn = .ok v → regRead k s rn = v) ∧
    regReadOrFault s 0x000 = .ok (s.err.setWidth 32) ∧ regReadOrFault s 0x001 = .ok (s.errLog.setWidth 32) ∧
    regReadOrFault s 0x002 = .ok s.errCause ∧
    (∀ v, s.rot = some v → regReadOrFault s 0x003 = .ok (v.setWidth 32)) ∧
    (∀ v, s.gain = some v → regReadOrFault s 0x004 = .ok (v.setWidth 32)) ∧
    (∀ v, s.cycles = some v → regReadOrFault s 0x005 = .ok (v.setWidth 32)) ∧
    (∀ v, s.timing = some v → regReadOrFault s 0x006 = .ok v) ∧
    (∀ v, s.d0 = some v → regReadOrFault s 0x008 = .ok v) ∧ (∀ v, s.d1 = some v → regReadOrFault s 0x009 = .ok v) ∧
    (∀ v, s.d2 = some v → regReadOrFault s 0x00A = .ok v) ∧ (∀ v, s.d3 = some v → regReadOrFault s 0x00B = .ok v) ∧
    (∀ (i : Fin 64) (v : BitVec 24), s.pbuf.get i = some v → regReadOrFault s (0x040 + i.val) = .ok (v.setWidth 32)) ∧
    (∀ (k : Fin 4) (i : Fin 64),
      regReadOrFault s (0x100 + 64 * k.val + i.val) = .ok (((s.omap.get k).get i).setWidth 32)) ∧
    (∀ rn : Nat, rn = 0x007 ∨ (0x00C ≤ rn ∧ rn < 0x040) ∨ (0x080 ≤ rn ∧ rn < 0x100) ∨ 0x200 ≤ rn →
      regReadOrFault s rn = .ok 0) ∧
    (s.rot = none → regReadOrFault s 0x003 = .error (.unwrittenState s)) ∧
    (s.gain = none → regReadOrFault s 0x004 = .error (.unwrittenState s)) ∧
    (s.cycles = none → regReadOrFault s 0x005 = .error (.unwrittenState s)) ∧
    (s.timing = none → regReadOrFault s 0x006 = .error (.unwrittenState s)) ∧
    (s.d0 = none → regReadOrFault s 0x008 = .error (.unwrittenState s)) ∧
    (s.d1 = none → regReadOrFault s 0x009 = .error (.unwrittenState s)) ∧
    (s.d2 = none → regReadOrFault s 0x00A = .error (.unwrittenState s)) ∧
    (s.d3 = none → regReadOrFault s 0x00B = .error (.unwrittenState s)) ∧
    ∀ i : Fin 64, s.pbuf.get i = none → regReadOrFault s (0x040 + i.val) = .error (.unwrittenState s)

/-! ### Requests never answered, and the hardware's side of the read port -/

/-- A request that is never answered stops the command where it stands (60_exceptions.md section 3, vector V13 of
95_test_vectors.md). DEDUCED, log entry 12: the unanswered request leaves no event, an acquired port is not released, and the
cell of an unanswered write keeps its content, at a SETPIXEL and at each write of a frame (StoppedAt). The requests are:
GETPIXEL and SETPIXEL at their acquire and at their access; SETPIXELS, GETPIXELS, CLEAR and LDIMG with redraw at their acquire
and at any of their 64 accesses; SETGAIN, SETINTEG and ENABLE at their first write, ENABLE at its second, GETRAW at any of its
four reads. -/
def Obligations.StalledRequestStops : Prop :=
  (∀ (x y : Byte) (c : RGB) (s : State) (k : Fin 4), OnGrid x y → s.Rotated k →
    (s.fbAnswer 0 = .stall →
      exec (.getpixel x y) s = .fault (.stuckPort (s.fbUsed 1 [])) ∧
      exec (.setpixel x y c) s = .fault (.stuckPort (s.fbUsed 1 []))) ∧
    (s.fbAnswer 0 = .ok → s.fbAnswer 1 = .stall →
      exec (.getpixel x y) s = .fault (.stuckPort (s.fbUsed 2 [Event.fbAcquire (.ok ())])) ∧
      exec (.setpixel x y c) s = .fault (.stuckPort (s.fbUsed 2 [Event.fbAcquire (.ok ())])))) ∧
  (∀ (s : State) (k : Fin 4), s.Rotated k → s.fbAnswer 0 = .stall →
    (∀ cs : List RGB, cs.length = 64 → exec (.setpixels cs) s = .fault (.stuckPort (s.fbUsed 1 []))) ∧
    exec .getpixels s = .fault (.stuckPort (s.fbUsed 1 [])) ∧
    (∀ c : RGB, exec (.clear c) s = .fault (.stuckPort (s.fbUsed 1 []))) ∧
    ∀ src : Half, s.imgAnswer = .ok →
      ∃ (l : State) (ps : Vector Sample 64), exec (.ldimg src true) s = .fault (.stuckPort l) ∧ SamplesOf s ps ∧
        l = { s with
          trace := s.trace ++ imageEvents src ps, ports := s.ports.afterImage 1, freeCount := l.freeCount }) ∧
  (∀ (s : State) (k : Fin 4) (n : Fin 64), s.Rotated k → (∀ m ≤ n.val, s.fbAnswer m = .ok) →
    s.fbAnswer (n.val + 1) = .stall →
    exec .getpixels s =
      .fault (.stuckPort (s.fbUsed (n.val + 2) ([Event.fbAcquire (.ok ())] ++
        ((List.finRange 64).take n.val).map fun L =>
          Event.fbRead (s.offsetOf k L) (.ok (s.cellAt (s.offsetOf k L))))))) ∧
  (∀ (s : State) (k : Fin 4) (n : Fin 64), s.mem.wf → s.OmapOk → s.Rotated k →
    (∀ m ≤ n.val, s.fbAnswer m = .ok) → s.fbAnswer (n.val + 1) = .stall →
    (∀ cs : Vector RGB 64, ∃ l : State, exec (.setpixels cs.toList) s = .fault (.stuckPort l) ∧ StoppedAt cs k n s l ∧
      l = { s with mem := l.mem }.fbUsed (n.val + 2) (s.silentFrameEvents k cs n)) ∧
    (∀ c : RGB, ∃ l : State, exec (.clear c) s = .fault (.stuckPort l) ∧ StoppedAt (Vector.replicate 64 c) k n s l ∧
      l = { s with mem := l.mem }.fbUsed (n.val + 2) (s.silentFrameEvents k (Vector.replicate 64 c) n)) ∧
    ∀ src : Half, s.imgAnswer = .ok →
      ∃ (l : State) (ps : Vector Sample 64), exec (.ldimg src true) s = .fault (.stuckPort l) ∧ SamplesOf s ps ∧
        StoppedAt (ps.map highBytes) k n s l ∧
        l = { s with
          mem := l.mem, trace := s.trace ++ (imageEvents src ps ++ s.silentFrameEvents k (ps.map highBytes) n)
          ports := s.ports.afterImage (n.val + 2), freeCount := l.freeCount }) ∧
  (∀ (level : Half) (s : State), (∃ p ∈ s.cfg.gainTable, (p.1 : Int) = level.toInt) → s.busAnswer 0 = .stall →
    exec (.setgain level) s = .fault (.stuckPort (s.busUsed 1 []))) ∧
  (∀ (cycles : Half) (s : State), 1 ≤ cycles.toInt → cycles.toInt ≤ 256 → s.busAnswer 0 = .stall →
    exec (.setinteg cycles) s = .fault (.stuckPort (s.busUsed 1 []))) ∧
  (∀ (on : Bool) (s : State), s.busAnswer 0 = .stall → exec (.enable on) s = .fault (.stuckPort (s.busUsed 1 []))) ∧
  (∀ s : State, s.busAnswer 0 = .ok → s.busAnswer 1 = .stall →
    exec (.enable true) s =
      .fault (.stuckPort (s.busUsed 2
        [Event.busWrite s.cfg.sensorAddr 0x80 s.cfg.enPon (.ok ()), Event.delay s.cfg.settlePonUs]))) ∧
  ∀ (s : State) (n : Nat), n < 4 → (∀ m < n, s.busAnswer m = .ok) → s.busAnswer n = .stall →
    ∃ l : State, exec .getraw s = .fault (.stuckPort l) ∧ (newEvents s l).length = n ∧
      l = { s with trace := l.trace, ports := l.ports, freeCount := l.freeCount }

/-- 93_implementation_defined.md U4, 10_state.md sections 7 and 10: what the read port returns in every state: the register's
content where it holds a value, and where it holds `none` (there, and only there, a model's read faults) an unspecified value,
free for each read and each register number. So right after reset, and after a reset event, a read of `D0` to `D3` and of
`PBUF` returns a value that nothing constrains (log entries 2 and 24). -/
def Obligations.HostReadValue : Prop :=
  (∀ (k : Nat) (s : State) (rn : Nat),
    (∃ v : Word, regReadOrFault s rn = .ok v ∧ regRead k s rn = v) ∨
    (regReadOrFault s rn = .error (.unwrittenState s) ∧ regRead k s rn = Config.freeRead k rn)) ∧
  ∀ (k : Nat) (s : State) (rn : Nat), (0x008 ≤ rn ∧ rn ≤ 0x00B) ∨ (0x040 ≤ rn ∧ rn ≤ 0x07F) →
    regRead k State.reset rn = Config.freeRead k rn ∧ regRead k s.resetEvent rn = Config.freeRead k rn
end

