-- ==== Sys2Proof/Laws/Memory.lean ====
section
/-! SUPPORT. The framebuffer's bytes: read after write, and that every write keeps the canonical form. -/

namespace Sys2Proof.Machine

/-- A write leaves every other byte alone. -/
theorem memGet_memSet_other (m : Memory) {a a' : Nat} (b : Byte) (h : a' ≠ a) :
    memGet (memSet m a b) a' = memGet m a' := by
  induction m with
  | nil => unfold memSet; split <;> simp [memGet, h]
  | cons c t ih =>
    obtain ⟨k, v⟩ := c
    unfold memSet
    split
    · split <;> simp [memGet, h]
    · split
      · rename_i _ hk
        subst hk
        split <;> simp [memGet, h]
      · simp only [memGet, ih]

/-- A byte below every listed offset is not listed. -/
theorem memGet_of_below (m : Memory) {a : Nat} (h : ∀ c ∈ m, a < c.1) : memGet m a = Memory.unlisted := by
  induction m with
  | nil => rfl
  | cons c t ih =>
    obtain ⟨k, v⟩ := c
    have hk : a < k := h (k, v) (by simp)
    simp only [memGet, Nat.ne_of_lt hk, if_false]
    exact ih fun c hc => h c (by simp [hc])

/-- A write is read back. -/
theorem memGet_memSet_same {m : Memory} (hwf : m.wf) (a : Nat) (b : Byte) : memGet (memSet m a b) a = b := by
  induction m with
  | nil => unfold memSet; split <;> simp_all [memGet]
  | cons c t ih =>
    obtain ⟨k, v⟩ := c
    obtain ⟨hs, hv⟩ := hwf
    have hbelow := (List.pairwise_cons.mp hs).1
    have ht : Memory.wf t := ⟨(List.pairwise_cons.mp hs).2, fun c hc => hv c (by simp [hc])⟩
    unfold memSet
    split
    · rename_i hlt
      split
      · rename_i hb
        rw [hb]
        exact memGet_of_below _ fun c hc => by
          rcases List.mem_cons.mp hc with rfl | hc
          · exact hlt
          · exact Nat.lt_trans hlt (hbelow c hc)
      · simp [memGet]
    · split
      · rename_i hk
        subst hk
        split
        · rename_i hb
          rw [hb]
          exact memGet_of_below _ hbelow
        · simp [memGet]
      · rename_i _ hk
        simp only [memGet, hk, if_false]
        exact ih ht

/-- The offsets listed after a write: the written one, and ones listed before. -/
theorem mem_memSet {m : Memory} {a : Nat} {b : Byte} {c : Host.Cell} (h : c ∈ memSet m a b) :
    (c = (a, b) ∧ b ≠ Memory.unlisted) ∨ c ∈ m := by
  induction m with
  | nil =>
    unfold memSet at h
    split at h
    · simp at h
    · exact .inl ⟨by simpa using h, ‹_›⟩
  | cons d t ih =>
    obtain ⟨k, v⟩ := d
    unfold memSet at h
    split at h
    · split at h
      · exact .inr h
      · rcases List.mem_cons.mp h with rfl | h
        · exact .inl ⟨rfl, ‹_›⟩
        · exact .inr h
    · split at h
      · split at h
        · exact .inr (List.mem_cons_of_mem _ h)
        · rcases List.mem_cons.mp h with rfl | h
          · exact .inl ⟨rfl, ‹_›⟩
          · exact .inr (List.mem_cons_of_mem _ h)
      · rcases List.mem_cons.mp h with rfl | h
        · exact .inr (by simp)
        · rcases ih h with h | h
          · exact .inl h
          · exact .inr (List.mem_cons_of_mem _ h)

/-- Every write keeps the canonical form. -/
theorem memSet_wf {m : Memory} (hwf : m.wf) (a : Nat) (b : Byte) : Memory.wf (memSet m a b) := by
  refine ⟨?_, fun c hc => ?_⟩
  · induction m with
    | nil => unfold memSet; split <;> simp
    | cons d t ih =>
      obtain ⟨k, v⟩ := d
      obtain ⟨hs, hv⟩ := hwf
      have hbelow := (List.pairwise_cons.mp hs).1
      have ht : Memory.wf t := ⟨(List.pairwise_cons.mp hs).2, fun c hc => hv c (by simp [hc])⟩
      unfold memSet
      split
      · rename_i hlt
        split
        · exact hs
        · refine List.pairwise_cons.mpr ⟨fun c hc => ?_, hs⟩
          rcases List.mem_cons.mp hc with rfl | hc
          · exact hlt
          · exact Nat.lt_trans hlt (hbelow c hc)
      · split
        · rename_i hk
          subst hk
          split
          · exact ht.1
          · exact List.pairwise_cons.mpr ⟨hbelow, ht.1⟩
        · rename_i hlt hk
          refine List.pairwise_cons.mpr ⟨fun c hc => ?_, ih ht⟩
          rcases mem_memSet hc with ⟨rfl, _⟩ | hc
          · show k < a
            omega
          · exact hbelow c hc
  · rcases mem_memSet hc with ⟨rfl, hb⟩ | hc
    · exact hb
    · exact hwf.2 c hc

/-- A bound on the listed offsets is kept by a write below it. -/
theorem memSet_bound {m : Memory} {n a : Nat} {b : Byte} (hm : ∀ c ∈ m, c.1 < n) (ha : a < n) :
    ∀ c ∈ memSet m a b, c.1 < n := fun c hc => by
  rcases mem_memSet hc with ⟨rfl, _⟩ | hc
  · exact ha
  · exact hm c hc

theorem reset_mem_wf : Memory.wf State.reset.mem := by decide

/-! ### Cells -/

@[simp] theorem cellHi_append_cellLo (v : Half) : cellHi v ++ cellLo v = v := by
  unfold cellHi cellLo
  exact BitVec.extractLsb'_append_extractLsb'_eq_extractLsb' (by omega) |>.trans (by simp)

/-- A cell written is read back (R51). -/
theorem memCell_memSetCell_same {m : Memory} (hwf : m.wf) (off : Nat) (v : Half) :
    memCell (memSetCell m off v) off = v := by
  unfold memCell memSetCell
  rw [memGet_memSet_same (memSet_wf hwf _ _), memGet_memSet_other _ _ (by omega), memGet_memSet_same hwf,
    cellHi_append_cellLo]

/-- A cell write leaves every byte outside the cell alone. -/
theorem memGet_memSetCell_other (m : Memory) {off a : Nat} (v : Half) (h0 : a ≠ off) (h1 : a ≠ off + 1) :
    memGet (memSetCell m off v) a = memGet m a := by
  unfold memSetCell
  rw [memGet_memSet_other _ _ h1, memGet_memSet_other _ _ h0]

theorem memSetCell_wf {m : Memory} (hwf : m.wf) (off : Nat) (v : Half) : Memory.wf (memSetCell m off v) :=
  memSet_wf (memSet_wf hwf _ _) _ _

theorem memSetCell_bound {m : Memory} {n off : Nat} {v : Half} (hm : ∀ c ∈ m, c.1 < n) (h : off + 1 < n) :
    ∀ c ∈ memSetCell m off v, c.1 < n :=
  memSet_bound (memSet_bound hm (by omega)) h

end Sys2Proof.Machine
end

