-- ==== Sys2Proof/Laws/State.lean ====
section
/-! SUPPORT. One lemma per field per update of the state, so that no proof unfolds a record update. -/

namespace Sys2Proof.Machine

/-! `log` -/
@[simp] theorem State.log_err (s : State) (e : Event) : (s.log e).err = s.err := rfl
@[simp] theorem State.log_errLog (s : State) (e : Event) : (s.log e).errLog = s.errLog := rfl
@[simp] theorem State.log_errCause (s : State) (e : Event) : (s.log e).errCause = s.errCause := rfl
@[simp] theorem State.log_rot (s : State) (e : Event) : (s.log e).rot = s.rot := rfl
@[simp] theorem State.log_gain (s : State) (e : Event) : (s.log e).gain = s.gain := rfl
@[simp] theorem State.log_cycles (s : State) (e : Event) : (s.log e).cycles = s.cycles := rfl
@[simp] theorem State.log_timing (s : State) (e : Event) : (s.log e).timing = s.timing := rfl
@[simp] theorem State.log_d0 (s : State) (e : Event) : (s.log e).d0 = s.d0 := rfl
@[simp] theorem State.log_d1 (s : State) (e : Event) : (s.log e).d1 = s.d1 := rfl
@[simp] theorem State.log_d2 (s : State) (e : Event) : (s.log e).d2 = s.d2 := rfl
@[simp] theorem State.log_d3 (s : State) (e : Event) : (s.log e).d3 = s.d3 := rfl
@[simp] theorem State.log_pbuf (s : State) (e : Event) : (s.log e).pbuf = s.pbuf := rfl
@[simp] theorem State.log_omap (s : State) (e : Event) : (s.log e).omap = s.omap := rfl
@[simp] theorem State.log_cp (s : State) (e : Event) : (s.log e).cp = s.cp := rfl
@[simp] theorem State.log_mem (s : State) (e : Event) : (s.log e).mem = s.mem := rfl
@[simp] theorem State.log_trace (s : State) (e : Event) : (s.log e).trace = s.trace ++ [e] := rfl
@[simp] theorem State.log_words (s : State) (e : Event) : (s.log e).words = s.words := rfl
@[simp] theorem State.log_cfg (s : State) (e : Event) : (s.log e).cfg = s.cfg := rfl
@[simp] theorem State.log_ports (s : State) (e : Event) : (s.log e).ports = s.ports := rfl
@[simp] theorem State.log_freeCount (s : State) (e : Event) : (s.log e).freeCount = s.freeCount := rfl

/-! `statusOk` -/
@[simp] theorem State.statusOk_err (s : State) : (s.statusOk).err = 0 := rfl
@[simp] theorem State.statusOk_errLog (s : State) : (s.statusOk).errLog = s.errLog := rfl
@[simp] theorem State.statusOk_errCause (s : State) : (s.statusOk).errCause = 0 := rfl
@[simp] theorem State.statusOk_rot (s : State) : (s.statusOk).rot = s.rot := rfl
@[simp] theorem State.statusOk_gain (s : State) : (s.statusOk).gain = s.gain := rfl
@[simp] theorem State.statusOk_cycles (s : State) : (s.statusOk).cycles = s.cycles := rfl
@[simp] theorem State.statusOk_timing (s : State) : (s.statusOk).timing = s.timing := rfl
@[simp] theorem State.statusOk_d0 (s : State) : (s.statusOk).d0 = s.d0 := rfl
@[simp] theorem State.statusOk_d1 (s : State) : (s.statusOk).d1 = s.d1 := rfl
@[simp] theorem State.statusOk_d2 (s : State) : (s.statusOk).d2 = s.d2 := rfl
@[simp] theorem State.statusOk_d3 (s : State) : (s.statusOk).d3 = s.d3 := rfl
@[simp] theorem State.statusOk_pbuf (s : State) : (s.statusOk).pbuf = s.pbuf := rfl
@[simp] theorem State.statusOk_omap (s : State) : (s.statusOk).omap = s.omap := rfl
@[simp] theorem State.statusOk_cp (s : State) : (s.statusOk).cp = s.cp := rfl
@[simp] theorem State.statusOk_mem (s : State) : (s.statusOk).mem = s.mem := rfl
@[simp] theorem State.statusOk_trace (s : State) : (s.statusOk).trace = s.trace := rfl
@[simp] theorem State.statusOk_words (s : State) : (s.statusOk).words = s.words := rfl
@[simp] theorem State.statusOk_cfg (s : State) : (s.statusOk).cfg = s.cfg := rfl
@[simp] theorem State.statusOk_ports (s : State) : (s.statusOk).ports = s.ports := rfl
@[simp] theorem State.statusOk_freeCount (s : State) : (s.statusOk).freeCount = s.freeCount := rfl

/-! `statusErr` -/
@[simp] theorem State.statusErr_err (s : State) (k : ErrKind) (c : Word) : (s.statusErr k c).err = k.code := rfl
@[simp] theorem State.statusErr_errLog (s : State) (k : ErrKind) (c : Word) : (s.statusErr k c).errLog = s.errLog ||| k.logBit := rfl
@[simp] theorem State.statusErr_errCause (s : State) (k : ErrKind) (c : Word) : (s.statusErr k c).errCause = if k = .deviceIOError then c else 0 := rfl
@[simp] theorem State.statusErr_rot (s : State) (k : ErrKind) (c : Word) : (s.statusErr k c).rot = s.rot := rfl
@[simp] theorem State.statusErr_gain (s : State) (k : ErrKind) (c : Word) : (s.statusErr k c).gain = s.gain := rfl
@[simp] theorem State.statusErr_cycles (s : State) (k : ErrKind) (c : Word) : (s.statusErr k c).cycles = s.cycles := rfl
@[simp] theorem State.statusErr_timing (s : State) (k : ErrKind) (c : Word) : (s.statusErr k c).timing = s.timing := rfl
@[simp] theorem State.statusErr_d0 (s : State) (k : ErrKind) (c : Word) : (s.statusErr k c).d0 = s.d0 := rfl
@[simp] theorem State.statusErr_d1 (s : State) (k : ErrKind) (c : Word) : (s.statusErr k c).d1 = s.d1 := rfl
@[simp] theorem State.statusErr_d2 (s : State) (k : ErrKind) (c : Word) : (s.statusErr k c).d2 = s.d2 := rfl
@[simp] theorem State.statusErr_d3 (s : State) (k : ErrKind) (c : Word) : (s.statusErr k c).d3 = s.d3 := rfl
@[simp] theorem State.statusErr_pbuf (s : State) (k : ErrKind) (c : Word) : (s.statusErr k c).pbuf = s.pbuf := rfl
@[simp] theorem State.statusErr_omap (s : State) (k : ErrKind) (c : Word) : (s.statusErr k c).omap = s.omap := rfl
@[simp] theorem State.statusErr_cp (s : State) (k : ErrKind) (c : Word) : (s.statusErr k c).cp = s.cp := rfl
@[simp] theorem State.statusErr_mem (s : State) (k : ErrKind) (c : Word) : (s.statusErr k c).mem = s.mem := rfl
@[simp] theorem State.statusErr_trace (s : State) (k : ErrKind) (c : Word) : (s.statusErr k c).trace = s.trace := rfl
@[simp] theorem State.statusErr_words (s : State) (k : ErrKind) (c : Word) : (s.statusErr k c).words = s.words := rfl
@[simp] theorem State.statusErr_cfg (s : State) (k : ErrKind) (c : Word) : (s.statusErr k c).cfg = s.cfg := rfl
@[simp] theorem State.statusErr_ports (s : State) (k : ErrKind) (c : Word) : (s.statusErr k c).ports = s.ports := rfl
@[simp] theorem State.statusErr_freeCount (s : State) (k : ErrKind) (c : Word) : (s.statusErr k c).freeCount = s.freeCount := rfl

/-! `advance` -/
@[simp] theorem State.advance_err (s : State) (n : Nat) : (s.advance n).err = s.err := rfl
@[simp] theorem State.advance_errLog (s : State) (n : Nat) : (s.advance n).errLog = s.errLog := rfl
@[simp] theorem State.advance_errCause (s : State) (n : Nat) : (s.advance n).errCause = s.errCause := rfl
@[simp] theorem State.advance_rot (s : State) (n : Nat) : (s.advance n).rot = s.rot := rfl
@[simp] theorem State.advance_gain (s : State) (n : Nat) : (s.advance n).gain = s.gain := rfl
@[simp] theorem State.advance_cycles (s : State) (n : Nat) : (s.advance n).cycles = s.cycles := rfl
@[simp] theorem State.advance_timing (s : State) (n : Nat) : (s.advance n).timing = s.timing := rfl
@[simp] theorem State.advance_d0 (s : State) (n : Nat) : (s.advance n).d0 = s.d0 := rfl
@[simp] theorem State.advance_d1 (s : State) (n : Nat) : (s.advance n).d1 = s.d1 := rfl
@[simp] theorem State.advance_d2 (s : State) (n : Nat) : (s.advance n).d2 = s.d2 := rfl
@[simp] theorem State.advance_d3 (s : State) (n : Nat) : (s.advance n).d3 = s.d3 := rfl
@[simp] theorem State.advance_pbuf (s : State) (n : Nat) : (s.advance n).pbuf = s.pbuf := rfl
@[simp] theorem State.advance_omap (s : State) (n : Nat) : (s.advance n).omap = s.omap := rfl
@[simp] theorem State.advance_cp (s : State) (n : Nat) : (s.advance n).cp = s.cp + n := rfl
@[simp] theorem State.advance_mem (s : State) (n : Nat) : (s.advance n).mem = s.mem := rfl
@[simp] theorem State.advance_trace (s : State) (n : Nat) : (s.advance n).trace = s.trace := rfl
@[simp] theorem State.advance_words (s : State) (n : Nat) : (s.advance n).words = s.words := rfl
@[simp] theorem State.advance_cfg (s : State) (n : Nat) : (s.advance n).cfg = s.cfg := rfl
@[simp] theorem State.advance_ports (s : State) (n : Nat) : (s.advance n).ports = s.ports := rfl
@[simp] theorem State.advance_freeCount (s : State) (n : Nat) : (s.advance n).freeCount = s.freeCount := rfl

/-! `setPixels` -/
@[simp] theorem State.setPixels_err (s : State) (cs : List RGB) : (s.setPixels cs).err = s.err := by simp only [State.setPixels]
@[simp] theorem State.setPixels_errLog (s : State) (cs : List RGB) : (s.setPixels cs).errLog = s.errLog := by simp only [State.setPixels]
@[simp] theorem State.setPixels_errCause (s : State) (cs : List RGB) : (s.setPixels cs).errCause = s.errCause := by simp only [State.setPixels]
@[simp] theorem State.setPixels_rot (s : State) (cs : List RGB) : (s.setPixels cs).rot = s.rot := by simp only [State.setPixels]
@[simp] theorem State.setPixels_gain (s : State) (cs : List RGB) : (s.setPixels cs).gain = s.gain := by simp only [State.setPixels]
@[simp] theorem State.setPixels_cycles (s : State) (cs : List RGB) : (s.setPixels cs).cycles = s.cycles := by simp only [State.setPixels]
@[simp] theorem State.setPixels_timing (s : State) (cs : List RGB) : (s.setPixels cs).timing = s.timing := by simp only [State.setPixels]
@[simp] theorem State.setPixels_d0 (s : State) (cs : List RGB) : (s.setPixels cs).d0 = s.d0 := by simp only [State.setPixels]
@[simp] theorem State.setPixels_d1 (s : State) (cs : List RGB) : (s.setPixels cs).d1 = s.d1 := by simp only [State.setPixels]
@[simp] theorem State.setPixels_d2 (s : State) (cs : List RGB) : (s.setPixels cs).d2 = s.d2 := by simp only [State.setPixels]
@[simp] theorem State.setPixels_d3 (s : State) (cs : List RGB) : (s.setPixels cs).d3 = s.d3 := by simp only [State.setPixels]
@[simp] theorem State.setPixels_pbuf (s : State) (cs : List RGB) : (s.setPixels cs).pbuf = Vector.ofFn fun i : Fin 64 => (cs[i.val]?).map rgb24 := by simp only [State.setPixels]
@[simp] theorem State.setPixels_omap (s : State) (cs : List RGB) : (s.setPixels cs).omap = s.omap := by simp only [State.setPixels]
@[simp] theorem State.setPixels_cp (s : State) (cs : List RGB) : (s.setPixels cs).cp = s.cp := by simp only [State.setPixels]
@[simp] theorem State.setPixels_mem (s : State) (cs : List RGB) : (s.setPixels cs).mem = s.mem := by simp only [State.setPixels]
@[simp] theorem State.setPixels_trace (s : State) (cs : List RGB) : (s.setPixels cs).trace = s.trace := by simp only [State.setPixels]
@[simp] theorem State.setPixels_words (s : State) (cs : List RGB) : (s.setPixels cs).words = s.words := by simp only [State.setPixels]
@[simp] theorem State.setPixels_cfg (s : State) (cs : List RGB) : (s.setPixels cs).cfg = s.cfg := by simp only [State.setPixels]
@[simp] theorem State.setPixels_ports (s : State) (cs : List RGB) : (s.setPixels cs).ports = s.ports := by simp only [State.setPixels]
@[simp] theorem State.setPixels_freeCount (s : State) (cs : List RGB) : (s.setPixels cs).freeCount = s.freeCount := by simp only [State.setPixels]

/-! `spoilCell` -/
@[simp] theorem State.spoilCell_err (s : State) (off : Nat) : (s.spoilCell off).err = s.err := rfl
@[simp] theorem State.spoilCell_errLog (s : State) (off : Nat) : (s.spoilCell off).errLog = s.errLog := rfl
@[simp] theorem State.spoilCell_errCause (s : State) (off : Nat) : (s.spoilCell off).errCause = s.errCause := rfl
@[simp] theorem State.spoilCell_rot (s : State) (off : Nat) : (s.spoilCell off).rot = s.rot := rfl
@[simp] theorem State.spoilCell_gain (s : State) (off : Nat) : (s.spoilCell off).gain = s.gain := rfl
@[simp] theorem State.spoilCell_cycles (s : State) (off : Nat) : (s.spoilCell off).cycles = s.cycles := rfl
@[simp] theorem State.spoilCell_timing (s : State) (off : Nat) : (s.spoilCell off).timing = s.timing := rfl
@[simp] theorem State.spoilCell_d0 (s : State) (off : Nat) : (s.spoilCell off).d0 = s.d0 := rfl
@[simp] theorem State.spoilCell_d1 (s : State) (off : Nat) : (s.spoilCell off).d1 = s.d1 := rfl
@[simp] theorem State.spoilCell_d2 (s : State) (off : Nat) : (s.spoilCell off).d2 = s.d2 := rfl
@[simp] theorem State.spoilCell_d3 (s : State) (off : Nat) : (s.spoilCell off).d3 = s.d3 := rfl
@[simp] theorem State.spoilCell_pbuf (s : State) (off : Nat) : (s.spoilCell off).pbuf = s.pbuf := rfl
@[simp] theorem State.spoilCell_omap (s : State) (off : Nat) : (s.spoilCell off).omap = s.omap := rfl
@[simp] theorem State.spoilCell_cp (s : State) (off : Nat) : (s.spoilCell off).cp = s.cp := rfl
@[simp] theorem State.spoilCell_trace (s : State) (off : Nat) : (s.spoilCell off).trace = s.trace := rfl
@[simp] theorem State.spoilCell_words (s : State) (off : Nat) : (s.spoilCell off).words = s.words := rfl
@[simp] theorem State.spoilCell_cfg (s : State) (off : Nat) : (s.spoilCell off).cfg = s.cfg := rfl
@[simp] theorem State.spoilCell_ports (s : State) (off : Nat) : (s.spoilCell off).ports = s.ports := rfl
@[simp] theorem State.spoilCell_freeCount (s : State) (off : Nat) : (s.spoilCell off).freeCount = s.freeCount + 2 := rfl

/-! `nextFb` -/
@[simp] theorem State.nextFb_err (s : State) : (s.nextFb.2).err = s.err := rfl
@[simp] theorem State.nextFb_errLog (s : State) : (s.nextFb.2).errLog = s.errLog := rfl
@[simp] theorem State.nextFb_errCause (s : State) : (s.nextFb.2).errCause = s.errCause := rfl
@[simp] theorem State.nextFb_rot (s : State) : (s.nextFb.2).rot = s.rot := rfl
@[simp] theorem State.nextFb_gain (s : State) : (s.nextFb.2).gain = s.gain := rfl
@[simp] theorem State.nextFb_cycles (s : State) : (s.nextFb.2).cycles = s.cycles := rfl
@[simp] theorem State.nextFb_timing (s : State) : (s.nextFb.2).timing = s.timing := rfl
@[simp] theorem State.nextFb_d0 (s : State) : (s.nextFb.2).d0 = s.d0 := rfl
@[simp] theorem State.nextFb_d1 (s : State) : (s.nextFb.2).d1 = s.d1 := rfl
@[simp] theorem State.nextFb_d2 (s : State) : (s.nextFb.2).d2 = s.d2 := rfl
@[simp] theorem State.nextFb_d3 (s : State) : (s.nextFb.2).d3 = s.d3 := rfl
@[simp] theorem State.nextFb_pbuf (s : State) : (s.nextFb.2).pbuf = s.pbuf := rfl
@[simp] theorem State.nextFb_omap (s : State) : (s.nextFb.2).omap = s.omap := rfl
@[simp] theorem State.nextFb_cp (s : State) : (s.nextFb.2).cp = s.cp := rfl
@[simp] theorem State.nextFb_mem (s : State) : (s.nextFb.2).mem = s.mem := rfl
@[simp] theorem State.nextFb_trace (s : State) : (s.nextFb.2).trace = s.trace := rfl
@[simp] theorem State.nextFb_words (s : State) : (s.nextFb.2).words = s.words := rfl
@[simp] theorem State.nextFb_cfg (s : State) : (s.nextFb.2).cfg = s.cfg := rfl
@[simp] theorem State.nextFb_ports (s : State) : (s.nextFb.2).ports = { s.ports with fb := s.ports.fb.tail } := rfl
@[simp] theorem State.nextFb_freeCount (s : State) : (s.nextFb.2).freeCount = s.freeCount := rfl

/-! `nextImg` -/
@[simp] theorem State.nextImg_err (s : State) : (s.nextImg.2).err = s.err := rfl
@[simp] theorem State.nextImg_errLog (s : State) : (s.nextImg.2).errLog = s.errLog := rfl
@[simp] theorem State.nextImg_errCause (s : State) : (s.nextImg.2).errCause = s.errCause := rfl
@[simp] theorem State.nextImg_rot (s : State) : (s.nextImg.2).rot = s.rot := rfl
@[simp] theorem State.nextImg_gain (s : State) : (s.nextImg.2).gain = s.gain := rfl
@[simp] theorem State.nextImg_cycles (s : State) : (s.nextImg.2).cycles = s.cycles := rfl
@[simp] theorem State.nextImg_timing (s : State) : (s.nextImg.2).timing = s.timing := rfl
@[simp] theorem State.nextImg_d0 (s : State) : (s.nextImg.2).d0 = s.d0 := rfl
@[simp] theorem State.nextImg_d1 (s : State) : (s.nextImg.2).d1 = s.d1 := rfl
@[simp] theorem State.nextImg_d2 (s : State) : (s.nextImg.2).d2 = s.d2 := rfl
@[simp] theorem State.nextImg_d3 (s : State) : (s.nextImg.2).d3 = s.d3 := rfl
@[simp] theorem State.nextImg_pbuf (s : State) : (s.nextImg.2).pbuf = s.pbuf := rfl
@[simp] theorem State.nextImg_omap (s : State) : (s.nextImg.2).omap = s.omap := rfl
@[simp] theorem State.nextImg_cp (s : State) : (s.nextImg.2).cp = s.cp := rfl
@[simp] theorem State.nextImg_mem (s : State) : (s.nextImg.2).mem = s.mem := rfl
@[simp] theorem State.nextImg_trace (s : State) : (s.nextImg.2).trace = s.trace := rfl
@[simp] theorem State.nextImg_words (s : State) : (s.nextImg.2).words = s.words := rfl
@[simp] theorem State.nextImg_cfg (s : State) : (s.nextImg.2).cfg = s.cfg := rfl
@[simp] theorem State.nextImg_ports (s : State) : (s.nextImg.2).ports = { s.ports with imgOpen := s.ports.imgOpen.tail } := rfl
@[simp] theorem State.nextImg_freeCount (s : State) : (s.nextImg.2).freeCount = s.freeCount := rfl

/-! `dropResults` -/
@[simp] theorem State.dropResults_err (s : State) (n : Results) : (s.dropResults n).err = s.err := by
  cases n <;> rfl
@[simp] theorem State.dropResults_errLog (s : State) (n : Results) : (s.dropResults n).errLog = s.errLog := by
  cases n <;> rfl
@[simp] theorem State.dropResults_errCause (s : State) (n : Results) : (s.dropResults n).errCause = s.errCause := by
  cases n <;> rfl
@[simp] theorem State.dropResults_rot (s : State) (n : Results) : (s.dropResults n).rot = s.rot := by
  cases n <;> rfl
@[simp] theorem State.dropResults_gain (s : State) (n : Results) : (s.dropResults n).gain = s.gain := by
  cases n <;> rfl
@[simp] theorem State.dropResults_cycles (s : State) (n : Results) : (s.dropResults n).cycles = s.cycles := by
  cases n <;> rfl
@[simp] theorem State.dropResults_timing (s : State) (n : Results) : (s.dropResults n).timing = s.timing := by
  cases n <;> rfl
@[simp] theorem State.dropResults_omap (s : State) (n : Results) : (s.dropResults n).omap = s.omap := by
  cases n <;> rfl
@[simp] theorem State.dropResults_cp (s : State) (n : Results) : (s.dropResults n).cp = s.cp := by
  cases n <;> rfl
@[simp] theorem State.dropResults_mem (s : State) (n : Results) : (s.dropResults n).mem = s.mem := by
  cases n <;> rfl
@[simp] theorem State.dropResults_trace (s : State) (n : Results) : (s.dropResults n).trace = s.trace := by
  cases n <;> rfl
@[simp] theorem State.dropResults_words (s : State) (n : Results) : (s.dropResults n).words = s.words := by
  cases n <;> rfl
@[simp] theorem State.dropResults_cfg (s : State) (n : Results) : (s.dropResults n).cfg = s.cfg := by
  cases n <;> rfl
@[simp] theorem State.dropResults_ports (s : State) (n : Results) : (s.dropResults n).ports = s.ports := by
  cases n <;> rfl
@[simp] theorem State.dropResults_freeCount (s : State) (n : Results) : (s.dropResults n).freeCount = s.freeCount := by
  cases n <;> rfl

/-! `nextBus` -/
@[simp] theorem State.nextBus_err (s : State) : (s.nextBus.2).err = s.err := by
  unfold State.nextBus
  split <;> rfl
@[simp] theorem State.nextBus_errLog (s : State) : (s.nextBus.2).errLog = s.errLog := by
  unfold State.nextBus
  split <;> rfl
@[simp] theorem State.nextBus_errCause (s : State) : (s.nextBus.2).errCause = s.errCause := by
  unfold State.nextBus
  split <;> rfl
@[simp] theorem State.nextBus_rot (s : State) : (s.nextBus.2).rot = s.rot := by
  unfold State.nextBus
  split <;> rfl
@[simp] theorem State.nextBus_gain (s : State) : (s.nextBus.2).gain = s.gain := by
  unfold State.nextBus
  split <;> rfl
@[simp] theorem State.nextBus_cycles (s : State) : (s.nextBus.2).cycles = s.cycles := by
  unfold State.nextBus
  split <;> rfl
@[simp] theorem State.nextBus_timing (s : State) : (s.nextBus.2).timing = s.timing := by
  unfold State.nextBus
  split <;> rfl
@[simp] theorem State.nextBus_d0 (s : State) : (s.nextBus.2).d0 = s.d0 := by
  unfold State.nextBus
  split <;> rfl
@[simp] theorem State.nextBus_d1 (s : State) : (s.nextBus.2).d1 = s.d1 := by
  unfold State.nextBus
  split <;> rfl
@[simp] theorem State.nextBus_d2 (s : State) : (s.nextBus.2).d2 = s.d2 := by
  unfold State.nextBus
  split <;> rfl
@[simp] theorem State.nextBus_d3 (s : State) : (s.nextBus.2).d3 = s.d3 := by
  unfold State.nextBus
  split <;> rfl
@[simp] theorem State.nextBus_pbuf (s : State) : (s.nextBus.2).pbuf = s.pbuf := by
  unfold State.nextBus
  split <;> rfl
@[simp] theorem State.nextBus_omap (s : State) : (s.nextBus.2).omap = s.omap := by
  unfold State.nextBus
  split <;> rfl
@[simp] theorem State.nextBus_cp (s : State) : (s.nextBus.2).cp = s.cp := by
  unfold State.nextBus
  split <;> rfl
@[simp] theorem State.nextBus_mem (s : State) : (s.nextBus.2).mem = s.mem := by
  unfold State.nextBus
  split <;> rfl
@[simp] theorem State.nextBus_trace (s : State) : (s.nextBus.2).trace = s.trace := by
  unfold State.nextBus
  split <;> rfl
@[simp] theorem State.nextBus_words (s : State) : (s.nextBus.2).words = s.words := by
  unfold State.nextBus
  split <;> rfl
@[simp] theorem State.nextBus_cfg (s : State) : (s.nextBus.2).cfg = s.cfg := by
  unfold State.nextBus
  split <;> rfl
@[simp] theorem State.nextBus_freeCount (s : State) : (s.nextBus.2).freeCount = s.freeCount := by
  unfold State.nextBus
  split <;> rfl

/-! `queuedData` -/
@[simp] theorem State.queuedData_err (s : State) : (s.queuedData.2).err = s.err := by
  unfold State.queuedData
  split <;> rfl
@[simp] theorem State.queuedData_errLog (s : State) : (s.queuedData.2).errLog = s.errLog := by
  unfold State.queuedData
  split <;> rfl
@[simp] theorem State.queuedData_errCause (s : State) : (s.queuedData.2).errCause = s.errCause := by
  unfold State.queuedData
  split <;> rfl
@[simp] theorem State.queuedData_rot (s : State) : (s.queuedData.2).rot = s.rot := by
  unfold State.queuedData
  split <;> rfl
@[simp] theorem State.queuedData_gain (s : State) : (s.queuedData.2).gain = s.gain := by
  unfold State.queuedData
  split <;> rfl
@[simp] theorem State.queuedData_cycles (s : State) : (s.queuedData.2).cycles = s.cycles := by
  unfold State.queuedData
  split <;> rfl
@[simp] theorem State.queuedData_timing (s : State) : (s.queuedData.2).timing = s.timing := by
  unfold State.queuedData
  split <;> rfl
@[simp] theorem State.queuedData_d0 (s : State) : (s.queuedData.2).d0 = s.d0 := by
  unfold State.queuedData
  split <;> rfl
@[simp] theorem State.queuedData_d1 (s : State) : (s.queuedData.2).d1 = s.d1 := by
  unfold State.queuedData
  split <;> rfl
@[simp] theorem State.queuedData_d2 (s : State) : (s.queuedData.2).d2 = s.d2 := by
  unfold State.queuedData
  split <;> rfl
@[simp] theorem State.queuedData_d3 (s : State) : (s.queuedData.2).d3 = s.d3 := by
  unfold State.queuedData
  split <;> rfl
@[simp] theorem State.queuedData_pbuf (s : State) : (s.queuedData.2).pbuf = s.pbuf := by
  unfold State.queuedData
  split <;> rfl
@[simp] theorem State.queuedData_omap (s : State) : (s.queuedData.2).omap = s.omap := by
  unfold State.queuedData
  split <;> rfl
@[simp] theorem State.queuedData_cp (s : State) : (s.queuedData.2).cp = s.cp := by
  unfold State.queuedData
  split <;> rfl
@[simp] theorem State.queuedData_mem (s : State) : (s.queuedData.2).mem = s.mem := by
  unfold State.queuedData
  split <;> rfl
@[simp] theorem State.queuedData_trace (s : State) : (s.queuedData.2).trace = s.trace := by
  unfold State.queuedData
  split <;> rfl
@[simp] theorem State.queuedData_words (s : State) : (s.queuedData.2).words = s.words := by
  unfold State.queuedData
  split <;> rfl
@[simp] theorem State.queuedData_cfg (s : State) : (s.queuedData.2).cfg = s.cfg := by
  unfold State.queuedData
  split <;> rfl

/-! `nextSample` -/
@[simp] theorem State.nextSample_err (s : State) : (s.nextSample.2).err = s.err := by
  unfold State.nextSample
  split <;> rfl
@[simp] theorem State.nextSample_errLog (s : State) : (s.nextSample.2).errLog = s.errLog := by
  unfold State.nextSample
  split <;> rfl
@[simp] theorem State.nextSample_errCause (s : State) : (s.nextSample.2).errCause = s.errCause := by
  unfold State.nextSample
  split <;> rfl
@[simp] theorem State.nextSample_rot (s : State) : (s.nextSample.2).rot = s.rot := by
  unfold State.nextSample
  split <;> rfl
@[simp] theorem State.nextSample_gain (s : State) : (s.nextSample.2).gain = s.gain := by
  unfold State.nextSample
  split <;> rfl
@[simp] theorem State.nextSample_cycles (s : State) : (s.nextSample.2).cycles = s.cycles := by
  unfold State.nextSample
  split <;> rfl
@[simp] theorem State.nextSample_timing (s : State) : (s.nextSample.2).timing = s.timing := by
  unfold State.nextSample
  split <;> rfl
@[simp] theorem State.nextSample_d0 (s : State) : (s.nextSample.2).d0 = s.d0 := by
  unfold State.nextSample
  split <;> rfl
@[simp] theorem State.nextSample_d1 (s : State) : (s.nextSample.2).d1 = s.d1 := by
  unfold State.nextSample
  split <;> rfl
@[simp] theorem State.nextSample_d2 (s : State) : (s.nextSample.2).d2 = s.d2 := by
  unfold State.nextSample
  split <;> rfl
@[simp] theorem State.nextSample_d3 (s : State) : (s.nextSample.2).d3 = s.d3 := by
  unfold State.nextSample
  split <;> rfl
@[simp] theorem State.nextSample_pbuf (s : State) : (s.nextSample.2).pbuf = s.pbuf := by
  unfold State.nextSample
  split <;> rfl
@[simp] theorem State.nextSample_omap (s : State) : (s.nextSample.2).omap = s.omap := by
  unfold State.nextSample
  split <;> rfl
@[simp] theorem State.nextSample_cp (s : State) : (s.nextSample.2).cp = s.cp := by
  unfold State.nextSample
  split <;> rfl
@[simp] theorem State.nextSample_mem (s : State) : (s.nextSample.2).mem = s.mem := by
  unfold State.nextSample
  split <;> rfl
@[simp] theorem State.nextSample_trace (s : State) : (s.nextSample.2).trace = s.trace := by
  unfold State.nextSample
  split <;> rfl
@[simp] theorem State.nextSample_words (s : State) : (s.nextSample.2).words = s.words := by
  unfold State.nextSample
  split <;> rfl
@[simp] theorem State.nextSample_cfg (s : State) : (s.nextSample.2).cfg = s.cfg := by
  unfold State.nextSample
  split <;> rfl

/-! `nextData` -/
@[simp] theorem State.nextData_err (s : State) (reg : Byte) : (s.nextData reg).2.err = s.err := by
  unfold State.nextData
  repeat' split
  all_goals first | rfl | simp
@[simp] theorem State.nextData_errLog (s : State) (reg : Byte) : (s.nextData reg).2.errLog = s.errLog := by
  unfold State.nextData
  repeat' split
  all_goals first | rfl | simp
@[simp] theorem State.nextData_errCause (s : State) (reg : Byte) : (s.nextData reg).2.errCause = s.errCause := by
  unfold State.nextData
  repeat' split
  all_goals first | rfl | simp
@[simp] theorem State.nextData_rot (s : State) (reg : Byte) : (s.nextData reg).2.rot = s.rot := by
  unfold State.nextData
  repeat' split
  all_goals first | rfl | simp
@[simp] theorem State.nextData_gain (s : State) (reg : Byte) : (s.nextData reg).2.gain = s.gain := by
  unfold State.nextData
  repeat' split
  all_goals first | rfl | simp
@[simp] theorem State.nextData_cycles (s : State) (reg : Byte) : (s.nextData reg).2.cycles = s.cycles := by
  unfold State.nextData
  repeat' split
  all_goals first | rfl | simp
@[simp] theorem State.nextData_timing (s : State) (reg : Byte) : (s.nextData reg).2.timing = s.timing := by
  unfold State.nextData
  repeat' split
  all_goals first | rfl | simp
@[simp] theorem State.nextData_d0 (s : State) (reg : Byte) : (s.nextData reg).2.d0 = s.d0 := by
  unfold State.nextData
  repeat' split
  all_goals first | rfl | simp
@[simp] theorem State.nextData_d1 (s : State) (reg : Byte) : (s.nextData reg).2.d1 = s.d1 := by
  unfold State.nextData
  repeat' split
  all_goals first | rfl | simp
@[simp] theorem State.nextData_d2 (s : State) (reg : Byte) : (s.nextData reg).2.d2 = s.d2 := by
  unfold State.nextData
  repeat' split
  all_goals first | rfl | simp
@[simp] theorem State.nextData_d3 (s : State) (reg : Byte) : (s.nextData reg).2.d3 = s.d3 := by
  unfold State.nextData
  repeat' split
  all_goals first | rfl | simp
@[simp] theorem State.nextData_pbuf (s : State) (reg : Byte) : (s.nextData reg).2.pbuf = s.pbuf := by
  unfold State.nextData
  repeat' split
  all_goals first | rfl | simp
@[simp] theorem State.nextData_omap (s : State) (reg : Byte) : (s.nextData reg).2.omap = s.omap := by
  unfold State.nextData
  repeat' split
  all_goals first | rfl | simp
@[simp] theorem State.nextData_cp (s : State) (reg : Byte) : (s.nextData reg).2.cp = s.cp := by
  unfold State.nextData
  repeat' split
  all_goals first | rfl | simp
@[simp] theorem State.nextData_mem (s : State) (reg : Byte) : (s.nextData reg).2.mem = s.mem := by
  unfold State.nextData
  repeat' split
  all_goals first | rfl | simp
@[simp] theorem State.nextData_trace (s : State) (reg : Byte) : (s.nextData reg).2.trace = s.trace := by
  unfold State.nextData
  repeat' split
  all_goals first | rfl | simp
@[simp] theorem State.nextData_words (s : State) (reg : Byte) : (s.nextData reg).2.words = s.words := by
  unfold State.nextData
  repeat' split
  all_goals first | rfl | simp
@[simp] theorem State.nextData_cfg (s : State) (reg : Byte) : (s.nextData reg).2.cfg = s.cfg := by
  unfold State.nextData
  repeat' split
  all_goals first | rfl | simp

end Sys2Proof.Machine
end

