-- ==== Sys2Proof/Laws/Ops.lean ====
section
/-! SUPPORT. What each shared operation can do, said once: the exact result for each answer of a port, the parts of the
state no port operation touches, and what each keeps. -/

namespace Sys2Proof.Machine

/-! ### Completion -/

@[simp] theorem succeed_eq (s : State) (len : Nat) : s.succeed len = s.succeeded len := rfl

/-- `raise` in the terms of R203: the named results dropped, then the status registers and `cp`. -/
theorem raise_eq (s : State) (k : ErrKind) (c : Word) (n : Results) (len : Nat) :
    s.raise k c n len = (s.dropResults n).errored k.code.toNat (if k = .deviceIOError then c else 0) len := by
  cases k <;> cases n <;> rfl

@[simp] theorem dropResults_nothing (s : State) : s.dropResults .nothing = s := rfl

@[simp] theorem finish_ok {α : Type} (len : Nat) (n : Results) (f : α → State → State) (a : α) (s : State) :
    (Res.ok a s).finish len n f = .next ((f a s).succeeded len) := rfl

@[simp] theorem finish_err {α : Type} (len : Nat) (n : Results) (f : α → State → State) (k : ErrKind) (c : Word)
    (s : State) : (Res.err k c s : Res α).finish len n f =
      .next ((s.dropResults n).errored k.code.toNat (if k = .deviceIOError then c else 0) len) := by
  rw [← raise_eq]; rfl

@[simp] theorem finish_stall {α : Type} (len : Nat) (n : Results) (f : α → State → State) (s : State) :
    (Res.stall s : Res α).finish len n f = .fault (.stuckPort s) := rfl

@[simp] theorem finish_unwritten {α : Type} (len : Nat) (n : Results) (f : α → State → State) (s : State) :
    (Res.unwritten s : Res α).finish len n f = .fault (.unwrittenState s) := rfl

@[simp] theorem bind_ok {α β : Type} (a : α) (s : State) (f : α → State → Res β) : (Res.ok a s).bind f = f a s := rfl

@[simp] theorem bind_err {α β : Type} (k : ErrKind) (c : Word) (s : State) (f : α → State → Res β) :
    (Res.err k c s : Res α).bind f = .err k c s := rfl

@[simp] theorem bind_stall {α β : Type} (s : State) (f : α → State → Res β) : (Res.stall s : Res α).bind f = .stall s := rfl

@[simp] theorem bind_unwritten {α β : Type} (s : State) (f : α → State → Res β) :
    (Res.unwritten s : Res α).bind f = .unwritten s := rfl

/-- A command that answers a next state either succeeded or ended in an error. -/
theorem finish_next {α : Type} {len : Nat} {n : Results} {f : α → State → State} {r : Res α} {t : State}
    (h : r.finish len n f = .next t) :
    (∃ a s, r = .ok a s ∧ t = (f a s).succeeded len) ∨
      ∃ k c s, r = .err k c s ∧
        t = (s.dropResults n).errored k.code.toNat (if k = .deviceIOError then c else 0) len := by
  cases r with
  | ok a s => exact .inl ⟨a, s, rfl, by simpa using h.symm⟩
  | err k c s => exact .inr ⟨k, c, s, rfl, by simpa using h.symm⟩
  | stall s => simp at h
  | unwritten s => simp at h

@[simp] theorem release_ok {α : Type} (a : α) (s : State) : (Res.ok a s).release = .ok a (fbRelease s) := rfl

@[simp] theorem release_err {α : Type} (k : ErrKind) (c : Word) (s : State) :
    (Res.err k c s : Res α).release = .err k c (fbRelease s) := rfl

@[simp] theorem release_stall {α : Type} (s : State) : (Res.stall s : Res α).release = .stall s := rfl

@[simp] theorem release_unwritten {α : Type} (s : State) : (Res.unwritten s : Res α).release = .unwritten s := rfl

/-! ### Uses of the ports -/

@[simp] theorem fbUsed_nil (s : State) : s.fbUsed 0 [] = s := by simp [State.fbUsed]

@[simp] theorem fbUsed_fbUsed (s : State) (m n : Nat) (es es' : List Event) :
    (s.fbUsed m es).fbUsed n es' = s.fbUsed (m + n) (es ++ es') := by
  simp [State.fbUsed, List.drop_drop]

theorem fbUsed_log (s : State) (n : Nat) (es : List Event) (e : Event) :
    (s.fbUsed n es).log e = s.fbUsed n (es ++ [e]) := by simp [State.fbUsed, State.log]

@[simp] theorem fbUsed_fbAnswer (s : State) (n : Nat) (es : List Event) (k : Nat) :
    (s.fbUsed n es).fbAnswer k = s.fbAnswer (n + k) := by
  simp [State.fbUsed, State.fbAnswer]

@[simp] theorem fbRelease_fbUsed (s : State) (n : Nat) (es : List Event) :
    fbRelease (s.fbUsed n es) = s.fbUsed n (es ++ [.fbRelease]) := fbUsed_log s n es .fbRelease

theorem nextFb_eq (s : State) : s.nextFb = (s.fbAnswer 0, s.fbUsed 1 []) := by
  unfold State.nextFb State.fbAnswer State.fbUsed
  cases s.ports.fb <;> simp

@[simp] theorem busUsed_nil (s : State) : s.busUsed 0 [] = s := by
  cases s
  unfold State.busUsed
  split <;> simp_all

@[simp] theorem busUsed_cfg (s : State) (n : Nat) (es : List Event) : (s.busUsed n es).cfg = s.cfg := rfl

@[simp] theorem busUsed_busUsed (s : State) (m n : Nat) (es es' : List Event) :
    (s.busUsed m es).busUsed n es' = s.busUsed (m + n) (es ++ es') := by
  unfold State.busUsed
  cases s.cfg.backend <;> simp [List.drop_drop]

theorem busUsed_log (s : State) (n : Nat) (es : List Event) (e : Event) :
    (s.busUsed n es).log e = s.busUsed n (es ++ [e]) := by simp [State.busUsed, State.log]

@[simp] theorem busUsed_busAnswer (s : State) (n : Nat) (es : List Event) (k : Nat) :
    (s.busUsed n es).busAnswer k = s.busAnswer (n + k) := by
  unfold State.busUsed State.busAnswer
  cases s.cfg.backend <;> simp

@[simp] theorem delay_busUsed (s : State) (n : Nat) (es : List Event) (us : Nat) :
    delay us (s.busUsed n es) = s.busUsed n (es ++ [.delay us]) := busUsed_log s n es (.delay us)

theorem nextBus_eq (s : State) : s.nextBus = (s.busAnswer 0, s.busUsed 1 []) := by
  cases s
  unfold State.nextBus State.busAnswer State.busUsed
  split
  · simp_all
  · rename_i bus _ _
    simp_all [List.headD_eq_head?_getD, List.getD_eq_getElem?_getD, List.head?_eq_getElem?]

/-! ### The framebuffer port, answer by answer (R54 to R57) -/

theorem fbAcquire_ok {s : State} (h : s.fbAnswer 0 = .ok) :
    fbAcquire s = .ok () (s.fbUsed 1 [.fbAcquire (.ok ())]) := by
  simp [fbAcquire, nextFb_eq, h, fbUsed_log]

theorem fbAcquire_fail {s : State} {c : Word} (h : s.fbAnswer 0 = .fail c) :
    fbAcquire s = .err .deviceIOError c (s.fbUsed 1 [.fbAcquire (.fail c)]) := by
  simp [fbAcquire, nextFb_eq, h, fbUsed_log]

theorem fbAcquire_stall {s : State} (h : s.fbAnswer 0 = .stall) : fbAcquire s = .stall (s.fbUsed 1 []) := by
  simp [fbAcquire, nextFb_eq, h]

theorem memRead_ok {s : State} (off : Nat) (h : s.fbAnswer 0 = .ok) :
    memRead off s = .ok (memCell s.mem off) (s.fbUsed 1 [.fbRead off (.ok (memCell s.mem off))]) := by
  simp [memRead, nextFb_eq, h, fbUsed_log]
  simp [State.fbUsed]

theorem memRead_fail {s : State} (off : Nat) {c : Word} (h : s.fbAnswer 0 = .fail c) :
    memRead off s = .err .deviceIOError c (s.fbUsed 1 [.fbRead off (.fail c)]) := by
  simp [memRead, nextFb_eq, h, fbUsed_log]

theorem memRead_stall {s : State} (off : Nat) (h : s.fbAnswer 0 = .stall) : memRead off s = .stall (s.fbUsed 1 []) := by
  simp [memRead, nextFb_eq, h]

theorem memWrite_ok {s : State} (off : Nat) (v : Half) (h : s.fbAnswer 0 = .ok) :
    memWrite off v s =
      .ok () ({ s with mem := memSetCell s.mem off v }.fbUsed 1 [.fbWrite off v (.ok ())]) := by
  simp [memWrite, nextFb_eq, h, State.fbUsed, State.log]

theorem memWrite_fail {s : State} (off : Nat) (v : Half) {c : Word} (h : s.fbAnswer 0 = .fail c) :
    memWrite off v s = .err .deviceIOError c ((s.spoilCell off).fbUsed 1 [.fbWrite off v (.fail c)]) := by
  simp [memWrite, nextFb_eq, h, State.fbUsed, State.log, State.spoilCell]

theorem memWrite_stall {s : State} (off : Nat) (v : Half) (h : s.fbAnswer 0 = .stall) :
    memWrite off v s = .stall (s.fbUsed 1 []) := by
  simp [memWrite, nextFb_eq, h]

/-- The port is acquired, the body runs, and the port is released on every exit path on which it answered (R54). -/
theorem withFb_ok {α : Type} {body : State → Res α} {s : State} (h : s.fbAnswer 0 = .ok) :
    withFb body s = (body (s.fbUsed 1 [.fbAcquire (.ok ())])).release := by
  rw [withFb, fbAcquire_ok h, bind_ok]

theorem withFb_fail {α : Type} {body : State → Res α} {s : State} {c : Word} (h : s.fbAnswer 0 = .fail c) :
    withFb body s = .err .deviceIOError c (s.fbUsed 1 [.fbAcquire (.fail c)]) := by
  rw [withFb, fbAcquire_fail h, bind_err]

theorem withFb_stall {α : Type} {body : State → Res α} {s : State} (h : s.fbAnswer 0 = .stall) :
    withFb body s = .stall (s.fbUsed 1 []) := by
  rw [withFb, fbAcquire_stall h, bind_stall]

/-! ### The bus, answer by answer (R60) -/

theorem busWrite_ok {s : State} (reg b : Byte) (h : s.busAnswer 0 = .ok) :
    busWrite reg b s = .ok () (s.busUsed 1 [.busWrite s.cfg.sensorAddr reg b (.ok ())]) := by
  simp [busWrite, nextBus_eq, h, busUsed_log]

theorem busWrite_fail {s : State} (reg b : Byte) {c : Word} (h : s.busAnswer 0 = .fail c) :
    busWrite reg b s = .err .deviceIOError c (s.busUsed 1 [.busWrite s.cfg.sensorAddr reg b (.fail c)]) := by
  simp [busWrite, nextBus_eq, h, busUsed_log]

theorem busWrite_stall {s : State} (reg b : Byte) (h : s.busAnswer 0 = .stall) :
    busWrite reg b s = .stall (s.busUsed 1 []) := by
  simp [busWrite, nextBus_eq, h]

theorem busRead16_ok {s : State} (reg : Byte) (h : s.busAnswer 0 = .ok) :
    busRead16 reg s = .ok ((s.busUsed 1 []).nextData reg).1
      (((s.busUsed 1 []).nextData reg).2.log
        (.busRead16 s.cfg.sensorAddr reg (.ok ((s.busUsed 1 []).nextData reg).1))) := by
  simp [busRead16, nextBus_eq, h]

theorem busRead16_fail {s : State} (reg : Byte) {c : Word} (h : s.busAnswer 0 = .fail c) :
    busRead16 reg s = .err .deviceIOError c (s.busUsed 1 [.busRead16 s.cfg.sensorAddr reg (.fail c)]) := by
  simp [busRead16, nextBus_eq, h, busUsed_log]

theorem busRead16_stall {s : State} (reg : Byte) (h : s.busAnswer 0 = .stall) :
    busRead16 reg s = .stall (s.busUsed 1 []) := by
  simp [busRead16, nextBus_eq, h]

/-! ### What no port operation touches -/

/-- `t` differs from `s` at most in the framebuffer, the trace (which only grows), the queued answers and the free-value
counter. -/
structure PortStep (s t : State) : Prop where
  err : t.err = s.err
  errLog : t.errLog = s.errLog
  errCause : t.errCause = s.errCause
  rot : t.rot = s.rot
  gain : t.gain = s.gain
  cycles : t.cycles = s.cycles
  timing : t.timing = s.timing
  d0 : t.d0 = s.d0
  d1 : t.d1 = s.d1
  d2 : t.d2 = s.d2
  d3 : t.d3 = s.d3
  pbuf : t.pbuf = s.pbuf
  omap : t.omap = s.omap
  cp : t.cp = s.cp
  words : t.words = s.words
  cfg : t.cfg = s.cfg
  trace : ∃ es, t.trace = s.trace ++ es

theorem PortStep.refl (s : State) : PortStep s s := by
  constructor <;> first | rfl | exact ⟨[], by simp⟩

theorem PortStep.trans {s t u : State} (h : PortStep s t) (h' : PortStep t u) : PortStep s u := by
  obtain ⟨es, hes⟩ := h.trace
  obtain ⟨es', hes'⟩ := h'.trace
  exact ⟨h'.err.trans h.err, h'.errLog.trans h.errLog, h'.errCause.trans h.errCause, h'.rot.trans h.rot,
    h'.gain.trans h.gain, h'.cycles.trans h.cycles, h'.timing.trans h.timing, h'.d0.trans h.d0, h'.d1.trans h.d1,
    h'.d2.trans h.d2, h'.d3.trans h.d3, h'.pbuf.trans h.pbuf, h'.omap.trans h.omap, h'.cp.trans h.cp,
    h'.words.trans h.words, h'.cfg.trans h.cfg, ⟨es ++ es', by rw [hes', hes, List.append_assoc]⟩⟩

/-- The state a result carries. -/
def Res.state {α : Type} : Res α → State
  | .ok _ s => s
  | .err _ _ s => s
  | .stall s => s
  | .unwritten s => s

theorem PortStep.bind {α β : Type} {s : State} {r : Res α} {f : α → State → Res β} (h : PortStep s r.state)
    (hf : ∀ a t, PortStep t (f a t).state) : PortStep s (r.bind f).state := by
  cases r with
  | ok a t => exact h.trans (hf a t)
  | err k c t => exact h
  | stall t => exact h
  | unwritten t => exact h

theorem portStep_log (s : State) (e : Event) : PortStep s (s.log e) := by
  constructor <;> first | rfl | exact ⟨[e], rfl⟩

theorem portStep_fbUsed (s : State) (n : Nat) (es : List Event) : PortStep s (s.fbUsed n es) := by
  constructor <;> first | rfl | exact ⟨es, rfl⟩

theorem portStep_busUsed (s : State) (n : Nat) (es : List Event) : PortStep s (s.busUsed n es) := by
  constructor <;> first | rfl | exact ⟨es, rfl⟩

theorem portStep_mem (s : State) (m : Memory) (k : Nat) : PortStep s { s with mem := m, freeCount := k } := by
  constructor <;> first | rfl | exact ⟨[], by simp⟩

theorem portStep_nextData (s : State) (reg : Byte) : PortStep s (s.nextData reg).2 := by
  constructor <;> simp

theorem portStep_nextSample (s : State) : PortStep s s.nextSample.2 := by
  constructor <;> simp

theorem portStep_nextImg (s : State) : PortStep s s.nextImg.2 := by
  constructor <;> first | rfl | exact ⟨[], by simp⟩

theorem portStep_fbAcquire (s : State) : PortStep s (fbAcquire s).state := by
  cases h : s.fbAnswer 0 with
  | ok => rw [fbAcquire_ok h]; exact portStep_fbUsed _ _ _
  | fail c => rw [fbAcquire_fail h]; exact portStep_fbUsed _ _ _
  | stall => rw [fbAcquire_stall h]; exact portStep_fbUsed _ _ _

theorem portStep_memRead (off : Nat) (s : State) : PortStep s (memRead off s).state := by
  cases h : s.fbAnswer 0 with
  | ok => rw [memRead_ok off h]; exact portStep_fbUsed _ _ _
  | fail c => rw [memRead_fail off h]; exact portStep_fbUsed _ _ _
  | stall => rw [memRead_stall off h]; exact portStep_fbUsed _ _ _

theorem portStep_memWrite (off : Nat) (v : Half) (s : State) : PortStep s (memWrite off v s).state := by
  cases h : s.fbAnswer 0 with
  | ok => rw [memWrite_ok off v h]; exact (portStep_mem s _ s.freeCount).trans (portStep_fbUsed _ _ _)
  | fail c => rw [memWrite_fail off v h]; exact (portStep_mem s _ _).trans (portStep_fbUsed _ _ _)
  | stall => rw [memWrite_stall off v h]; exact portStep_fbUsed _ _ _

theorem portStep_release {α : Type} {s : State} {r : Res α} (h : PortStep s r.state) : PortStep s r.release.state := by
  cases r with
  | ok a u => exact h.trans (portStep_log u _)
  | err k c u => exact h.trans (portStep_log u _)
  | stall u => exact h
  | unwritten u => exact h

theorem portStep_withFb {α : Type} {body : State → Res α} (hb : ∀ t, PortStep t (body t).state) (s : State) :
    PortStep s (withFb body s).state := by
  exact PortStep.bind (portStep_fbAcquire s) fun _ t => portStep_release (hb t)

theorem portStep_busWrite (reg b : Byte) (s : State) : PortStep s (busWrite reg b s).state := by
  cases h : s.busAnswer 0 with
  | ok => rw [busWrite_ok reg b h]; exact portStep_busUsed _ _ _
  | fail c => rw [busWrite_fail reg b h]; exact portStep_busUsed _ _ _
  | stall => rw [busWrite_stall reg b h]; exact portStep_busUsed _ _ _

theorem portStep_busRead16 (reg : Byte) (s : State) : PortStep s (busRead16 reg s).state := by
  cases h : s.busAnswer 0 with
  | ok =>
    rw [busRead16_ok reg h]
    exact ((portStep_busUsed s 1 []).trans (portStep_nextData _ reg)).trans (portStep_log _ _)
  | fail c => rw [busRead16_fail reg h]; exact portStep_busUsed _ _ _
  | stall => rw [busRead16_stall reg h]; exact portStep_busUsed _ _ _

theorem portStep_imgOpen (src : Half) (s : State) : PortStep s (imgOpen src s).state := by
  unfold imgOpen
  have h := portStep_nextImg s
  cases hr : s.nextImg with
  | mk a t =>
    rw [hr] at h
    cases a <;> exact h.trans (portStep_log t _)

theorem portStep_imgSample (x y : Nat) (s : State) : PortStep s (imgSample x y s).2 :=
  (portStep_nextSample s).trans (portStep_log _ _)

end Sys2Proof.Machine
end

