-- ==== Sys2Proof/Laws/Operands.lean ====
section
/-! SUPPORT. The operand forms (41_mapper.md R127, 42_frame.md R140, R141): the exact result in each case, and the list
    of all
cases. -/

namespace Sys2Proof.Machine

theorem coordOk_iff (x y : Byte) : (coordOk x && coordOk y) = true ↔ OnGrid x y := by
  simp [coordOk, OnGrid, and_assoc]

theorem onGrid_toNat {x y : Byte} (h : OnGrid x y) : x.toNat ≤ 7 ∧ y.toNat ≤ 7 := by
  obtain ⟨h0, h1, h2, h3⟩ := h
  simp only [BitVec.toInt_eq_toNat_cond] at *
  have := x.isLt
  have := y.isLt
  split at h0 <;> split at h2 <;> simp_all <;> omega

theorem sel_unsupported {r : Half} (h : Unsupported r) : sel r = none := by
  obtain ⟨h0, h1, h2, h3⟩ := h
  have a0 : r ≠ 0#16 := h0
  have a1 : r ≠ 90#16 := h1
  have a2 : r ≠ 180#16 := h2
  have a3 : r ≠ 270#16 := h3
  simp [sel, a0, a1, a2, a3]

theorem sel_supported (k : Fin 4) : sel (BitVec.ofNat 16 (90 * k.val)) = some k := by
  revert k; decide

/-! ### The rotation selector -/

theorem selectTable_rotated {s : State} {k : Fin 4} (h : s.Rotated k) : selectTable s = .ok (s.omap.get k) s := by
  unfold selectTable
  rw [h]
  simp only [sel_supported]

theorem selectTable_unsupported {s : State} {r : Half} (h : s.rot = some r) (hu : Unsupported r) :
    selectTable s = .err .invalidRotation 0 s := by
  unfold selectTable
  rw [h]
  simp only [sel_unsupported hu]

theorem selectTable_none {s : State} (h : s.rot = none) : selectTable s = .unwritten s := by
  unfold selectTable
  rw [h]

/-- Every case of the selector; it never changes the state. -/
theorem selectTable_cases (s : State) :
    (∃ k : Fin 4, s.Rotated k ∧ selectTable s = .ok (s.omap.get k) s) ∨
    (∃ r, s.rot = some r ∧ sel r = none ∧ selectTable s = .err .invalidRotation 0 s) ∨
    (s.rot = none ∧ selectTable s = .unwritten s) := by
  cases hr : s.rot with
  | none => exact .inr (.inr ⟨rfl, selectTable_none hr⟩)
  | some r =>
    cases hk : sel r with
    | none =>
      refine .inr (.inl ⟨r, rfl, hk, ?_⟩)
      unfold selectTable
      rw [hr]
      simp only [hk]
    | some k =>
      have h : s.Rotated k := by
        show s.rot = _
        rw [hr]
        congr 1
        clear hr
        unfold sel at hk
        split at hk
        · cases hk; assumption
        · split at hk
          · cases hk; assumption
          · split at hk
            · cases hk; assumption
            · split at hk <;> cases hk
              assumption
      exact .inl ⟨k, h, selectTable_rotated h⟩

/-! ### The address computation -/

theorem address_offGrid {x y : Byte} {s : State} (h : ¬ OnGrid x y) : address x y s = .err .outOfRange 0 s := by
  unfold address
  rw [if_neg (by rwa [coordOk_iff])]

theorem address_onGrid {x y : Byte} {s : State} (h : OnGrid x y) :
    address x y s = (selectTable s).bind fun tbl t => .ok (tbl.get (logicalIndex x y)) t := by
  unfold address
  rw [if_pos ((coordOk_iff x y).2 h)]

theorem logicalIndex_onGrid {x y : Byte} {L : Fin 64} (h : OnGrid x y) (hL : L.val = y.toNat * 8 + x.toNat) :
    logicalIndex x y = L := by
  have := onGrid_toNat h
  apply Fin.ext
  simp [logicalIndex, Fin.ofNat, hL]
  omega

theorem address_ok {x y : Byte} {s : State} {k : Fin 4} {L : Fin 64} (h : OnGrid x y) (hr : s.Rotated k)
    (hL : L.val = y.toNat * 8 + x.toNat) : address x y s = .ok ((s.omap.get k).get L) s := by
  rw [address_onGrid h, selectTable_rotated hr, bind_ok, logicalIndex_onGrid h hL]

theorem address_unsupported {x y : Byte} {s : State} {r : Half} (h : OnGrid x y) (hr : s.rot = some r)
    (hu : Unsupported r) : address x y s = .err .invalidRotation 0 s := by
  rw [address_onGrid h, selectTable_unsupported hr hu, bind_err]

theorem address_none {x y : Byte} {s : State} (h : OnGrid x y) (hr : s.rot = none) : address x y s = .unwritten s := by
  rw [address_onGrid h, selectTable_none hr, bind_unwritten]

/-- Every case of the address computation; it never changes the state. -/
theorem address_cases (x y : Byte) (s : State) :
    (OnGrid x y ∧ ∃ P, address x y s = .ok P s) ∨
    (∃ k, (k = .outOfRange ∨ k = .invalidRotation) ∧ address x y s = .err k 0 s) ∨
    (OnGrid x y ∧ s.rot = none ∧ address x y s = .unwritten s) := by
  by_cases h : OnGrid x y
  · rcases selectTable_cases s with ⟨k, _, hk⟩ | ⟨r, _, _, hr⟩ | ⟨hn, hr⟩
    · exact .inl ⟨h, _, by rw [address_onGrid h, hk, bind_ok]⟩
    · exact .inr (.inl ⟨_, .inr rfl, by rw [address_onGrid h, hr, bind_err]⟩)
    · exact .inr (.inr ⟨h, hn, by rw [address_onGrid h, hr, bind_unwritten]⟩)
  · exact .inr (.inl ⟨_, .inl rfl, address_offGrid h⟩)

/-- The address depends on the rotation and the tables alone. -/
theorem address_congr {x y : Byte} {s t : State} {P : BitVec 6} (hr : t.rot = s.rot) (ho : t.omap = s.omap)
    (h : address x y s = .ok P s) : address x y t = .ok P t := by
  unfold address selectTable at *
  rw [hr, ho]
  split at h
  · rename_i hc
    rw [if_pos hc]
    cases hs : s.rot with
    | none => rw [hs] at h; simp at h
    | some r =>
      rw [hs] at h
      simp only at h ⊢
      cases hsel : sel r <;> simp_all
  · cases h

theorem byteOffset_bound (p : BitVec 6) : byteOffset p % 2 = 0 ∧ byteOffset p ≤ 126 := by
  have := p.isLt
  unfold byteOffset
  omega

end Sys2Proof.Machine
end

