-- ==== Sys2Proof/Laws/Frame.lean ====
section
/-! SUPPORT. Sequences of cell accesses (42_frame.md R145, R147): the exact result when every answer is ok and when one
fails, what a frame write leaves in the framebuffer, and what every sequence keeps. -/

namespace Sys2Proof.Machine

/-! ### Framebuffer content after a list of cell writes -/

@[simp] theorem memWritten_nil (m : Memory) : memWritten m [] = m := rfl

@[simp] theorem memWritten_cons (m : Memory) (w : Nat × Half) (ws : List (Nat × Half)) :
    memWritten m (w :: ws) = memWritten (memSetCell m w.1 w.2) ws := rfl

theorem memWritten_wf {m : Memory} (hwf : m.wf) (ws : List (Nat × Half)) : Memory.wf (memWritten m ws) := by
  induction ws generalizing m with
  | nil => exact hwf
  | cons w ws ih => exact ih (memSetCell_wf hwf _ _)

theorem memWritten_bound {m : Memory} {n : Nat} {ws : List (Nat × Half)} (hm : ∀ c ∈ m, c.1 < n)
    (hw : ∀ w ∈ ws, w.1 + 1 < n) : ∀ c ∈ memWritten m ws, c.1 < n := by
  induction ws generalizing m with
  | nil => exact hm
  | cons w ws ih =>
    exact ih (memSetCell_bound hm (hw w (by simp))) fun w' hw' => hw w' (List.mem_cons_of_mem _ hw')

/-- Bytes outside every written cell keep their value. -/
theorem memGet_memWritten_other (m : Memory) {ws : List (Nat × Half)} {a : Nat}
    (h : ∀ w ∈ ws, a ≠ w.1 ∧ a ≠ w.1 + 1) : memGet (memWritten m ws) a = memGet m a := by
  induction ws generalizing m with
  | nil => rfl
  | cons w ws ih =>
    obtain ⟨h0, h1⟩ := h w (by simp)
    rw [memWritten_cons, ih _ fun w' hw' => h w' (List.mem_cons_of_mem _ hw'), memGet_memSetCell_other _ _ h0 h1]

/-- Two cell offsets that do not overlap. -/
abbrev Apart (a b : Nat) : Prop := a ≠ b ∧ a ≠ b + 1 ∧ a + 1 ≠ b

theorem memCell_memWritten_other (m : Memory) {ws : List (Nat × Half)} {off : Nat} (h : ∀ w ∈ ws, Apart off w.1) :
    memCell (memWritten m ws) off = memCell m off := by
  unfold memCell
  rw [memGet_memWritten_other m fun w hw => by obtain ⟨h0, h1, h2⟩ := h w hw; omega,
    memGet_memWritten_other m fun w hw => by obtain ⟨h0, h1, h2⟩ := h w hw; omega]

/-- Every written cell holds what was written, if no two written cells overlap. -/
theorem memCell_memWritten {m : Memory} (hwf : m.wf) {ws : List (Nat × Half)}
    (hp : ws.Pairwise fun p q => Apart p.1 q.1) {off : Nat} {v : Half} (h : (off, v) ∈ ws) :
    memCell (memWritten m ws) off = v := by
  induction ws generalizing m with
  | nil => simp at h
  | cons w ws ih =>
    obtain ⟨hw, hp⟩ := List.pairwise_cons.mp hp
    rcases List.mem_cons.mp h with rfl | h
    · rw [memWritten_cons, memCell_memWritten_other _ fun w' hw' => hw w' hw']
      exact memCell_memSetCell_same hwf _ _
    · exact ih (memSetCell_wf hwf _ _) hp h

/-! ### Sequences of accesses -/

/-- The events of a list of writes that all answered ok. -/
def writeEvents (ws : List (Nat × Half)) : List Event := ws.map fun w => .fbWrite w.1 w.2 (.ok ())

theorem writeCells_ok {ws : List (Nat × Half)} {s : State} (h : ∀ k < ws.length, s.fbAnswer k = .ok) :
    writeCells ws s =
      .ok () ({ s with mem := memWritten s.mem ws }.fbUsed ws.length (writeEvents ws)) := by
  induction ws generalizing s with
  | nil => simp [writeCells, writeEvents]
  | cons w ws ih =>
    obtain ⟨off, v⟩ := w
    rw [writeCells, memWrite_ok off v (h 0 (by simp)), bind_ok, ih]
    · simp [State.fbUsed, writeEvents, Nat.add_comm]
    · intro k hk
      rw [fbUsed_fbAnswer]
      have := h (1 + k) (by simp; omega)
      simpa [State.fbAnswer] using this

/-- The write that fails ends the sequence: those before it are done, its own cell is spoilt, none after it is made. -/
theorem writeCells_fail {ws ws' : List (Nat × Half)} {off : Nat} {v : Half} {s : State} {c : Word}
    (h : ∀ k < ws.length, s.fbAnswer k = .ok) (hf : s.fbAnswer ws.length = .fail c) :
    writeCells (ws ++ (off, v) :: ws') s =
      .err .deviceIOError c (({ s with mem := memWritten s.mem ws }.spoilCell off).fbUsed (ws.length + 1)
        (writeEvents ws ++ [Event.fbWrite off v (.fail c)])) := by
  induction ws generalizing s with
  | nil => rw [List.nil_append, writeCells, memWrite_fail off v hf]; rfl
  | cons w ws ih =>
    obtain ⟨off', v'⟩ := w
    rw [List.cons_append, writeCells, memWrite_ok off' v' (h 0 (by simp)), bind_ok, ih]
    · simp [State.fbUsed, State.spoilCell, writeEvents]
    · intro k hk
      rw [fbUsed_fbAnswer]
      have := h (1 + k) (by simp; omega)
      simpa [State.fbAnswer] using this
    · rw [fbUsed_fbAnswer]
      rw [List.length_cons, Nat.add_comm] at hf
      simpa [State.fbAnswer] using hf

/-- The write that is never answered leaves the sequence stuck: those before it are done, its own cell is as it was. -/
theorem writeCells_stall {ws ws' : List (Nat × Half)} {off : Nat} {v : Half} {s : State}
    (h : ∀ k < ws.length, s.fbAnswer k = .ok) (hf : s.fbAnswer ws.length = .stall) :
    writeCells (ws ++ (off, v) :: ws') s =
      .stall ({ s with mem := memWritten s.mem ws }.fbUsed (ws.length + 1) (writeEvents ws)) := by
  induction ws generalizing s with
  | nil => rw [List.nil_append, writeCells, memWrite_stall off v hf]; rfl
  | cons w ws ih =>
    obtain ⟨off', v'⟩ := w
    rw [List.cons_append, writeCells, memWrite_ok off' v' (h 0 (by simp)), bind_ok, ih]
    · simp [State.fbUsed, writeEvents]
    · intro k hk
      rw [fbUsed_fbAnswer]
      have := h (1 + k) (by simp; omega)
      simpa [State.fbAnswer] using this
    · rw [fbUsed_fbAnswer]
      rw [List.length_cons, Nat.add_comm] at hf
      simpa [State.fbAnswer] using hf

/-- The events of a list of reads that all answered ok. -/
def readEvents (m : Memory) (offs : List Nat) : List Event := offs.map fun off => .fbRead off (.ok (memCell m off))

theorem readCells_ok {offs : List Nat} {s : State} (h : ∀ k < offs.length, s.fbAnswer k = .ok) :
    readCells offs s =
      .ok (offs.map (memCell s.mem)) (s.fbUsed offs.length (readEvents s.mem offs)) := by
  induction offs generalizing s with
  | nil => simp [readCells, readEvents]
  | cons off offs ih =>
    rw [readCells, memRead_ok off (h 0 (by simp)), bind_ok, ih]
    · simp [State.fbUsed, readEvents]
    · intro k hk
      rw [fbUsed_fbAnswer]
      exact h (1 + k) (by simp; omega)

theorem readCells_fail {offs offs' : List Nat} {off : Nat} {s : State} {c : Word}
    (h : ∀ k < offs.length, s.fbAnswer k = .ok) (hf : s.fbAnswer offs.length = .fail c) :
    readCells (offs ++ off :: offs') s =
      .err .deviceIOError c (s.fbUsed (offs.length + 1) (readEvents s.mem offs ++ [.fbRead off (.fail c)])) := by
  induction offs generalizing s with
  | nil => rw [List.nil_append, readCells, memRead_fail off hf]; rfl
  | cons off' offs ih =>
    rw [List.cons_append, readCells, memRead_ok off' (h 0 (by simp)), bind_ok, ih]
    · simp [State.fbUsed, readEvents]
    · intro k hk
      rw [fbUsed_fbAnswer]
      exact h (1 + k) (by simp; omega)
    · rw [fbUsed_fbAnswer]
      rw [List.length_cons, Nat.add_comm] at hf
      exact hf

/-- The read that is never answered leaves the sequence stuck after the events of those before it. -/
theorem readCells_stall {offs offs' : List Nat} {off : Nat} {s : State}
    (h : ∀ k < offs.length, s.fbAnswer k = .ok) (hf : s.fbAnswer offs.length = .stall) :
    readCells (offs ++ off :: offs') s = .stall (s.fbUsed (offs.length + 1) (readEvents s.mem offs)) := by
  induction offs generalizing s with
  | nil => rw [List.nil_append, readCells, memRead_stall off hf]; rfl
  | cons off' offs ih =>
    rw [List.cons_append, readCells, memRead_ok off' (h 0 (by simp)), bind_ok, ih]
    · simp [State.fbUsed, readEvents]
    · intro k hk
      rw [fbUsed_fbAnswer]
      exact h (1 + k) (by simp; omega)
    · rw [fbUsed_fbAnswer]
      rw [List.length_cons, Nat.add_comm] at hf
      exact hf

/-- A sequence of reads that went well brought one value for each offset. -/
theorem readCells_length {offs : List Nat} {s t : State} {vs : List Half} (h : readCells offs s = .ok vs t) :
    vs.length = offs.length := by
  induction offs generalizing s t vs with
  | nil =>
    simp only [readCells, Res.ok.injEq] at h
    simp [← h.1]
  | cons off offs ih =>
    rw [readCells] at h
    cases hr : memRead off s with
    | ok v u =>
      rw [hr, bind_ok] at h
      cases hc : readCells offs u with
      | ok ws w =>
        rw [hc, bind_ok, Res.ok.injEq] at h
        rw [← h.1, List.length_cons, List.length_cons, ih hc]
      | err k c w => rw [hc] at h; simp at h
      | stall w => rw [hc] at h; simp at h
      | unwritten w => rw [hc] at h; simp at h
    | err k c u => rw [hr] at h; simp at h
    | stall u => rw [hr] at h; simp at h
    | unwritten u => rw [hr] at h; simp at h

theorem portStep_writeCells (ws : List (Nat × Half)) (s : State) : PortStep s (writeCells ws s).state := by
  induction ws generalizing s with
  | nil => exact PortStep.refl s
  | cons w ws ih => exact PortStep.bind (portStep_memWrite w.1 w.2 s) fun _ t => ih t

theorem portStep_readCells (offs : List Nat) (s : State) : PortStep s (readCells offs s).state := by
  induction offs generalizing s with
  | nil => exact PortStep.refl s
  | cons off offs ih =>
    exact PortStep.bind (portStep_memRead off s) fun _ t => PortStep.bind (ih t) fun _ u => PortStep.refl u

theorem portStep_sampleAll (xs : List (Nat × Nat)) (s : State) : PortStep s (sampleAll xs s).2 := by
  induction xs generalizing s with
  | nil => exact PortStep.refl s
  | cons p xs ih => exact (portStep_imgSample p.1 p.2 s).trans (ih _)

/-- One colour for each coordinate. -/
theorem sampleAll_length (xs : List (Nat × Nat)) (s : State) : (sampleAll xs s).1.length = xs.length := by
  induction xs generalizing s with
  | nil => rfl
  | cons p xs ih => simp [sampleAll, ih]

@[simp] theorem gridCoords_length : gridCoords.length = 64 := by simp [gridCoords]

/-! ### Frames -/

@[simp] theorem frameOffsets_length (tbl : Vector (BitVec 6) 64) : (frameOffsets tbl).length = 64 := by
  simp [frameOffsets]

@[simp] theorem frameWrites_length (tbl : Vector (BitVec 6) 64) (cs : List RGB) :
    (frameWrites tbl cs).length = min 64 cs.length := by
  simp [frameWrites]

/-- Every access of a frame lies within bytes 0..127 (R50, R52). -/
theorem frameOffsets_bound {tbl : Vector (BitVec 6) 64} {off : Nat} (h : off ∈ frameOffsets tbl) : off + 1 < 128 := by
  simp only [frameOffsets, List.mem_map] at h
  obtain ⟨p, _, rfl⟩ := h
  unfold byteOffset
  have := p.isLt
  omega

theorem frameWrites_bound {tbl : Vector (BitVec 6) 64} {cs : List RGB} {w : Nat × Half} (h : w ∈ frameWrites tbl cs) :
    w.1 + 1 < 128 :=
  frameOffsets_bound (List.of_mem_zip h).1

theorem getElem_frameOffsets (tbl : Vector (BitVec 6) 64) (L : Nat) (h : L < (frameOffsets tbl).length) :
    (frameOffsets tbl)[L] = byteOffset (tbl.get ⟨L, by simpa using h⟩) := by
  simp [frameOffsets, Vector.get]

theorem getElem_frameWrites (tbl : Vector (BitVec 6) 64) (cs : List RGB) (L : Nat)
    (h : L < (frameWrites tbl cs).length) :
    (frameWrites tbl cs)[L] =
      (byteOffset (tbl.get ⟨L, by simp at h; omega⟩), pack (cs[L]'(by simp at h; omega))) := by
  simp [frameWrites, frameOffsets, Vector.get]

/-- The tables are permutations, so distinct logical cells never share a cell (41_mapper.md R125). -/
theorem omapTables_injective : ∀ s : Fin 4, ((omapTables.get s).toList).Nodup := by
  decide +kernel

theorem frameOffsets_apart {tbl : Vector (BitVec 6) 64} (h : tbl.toList.Nodup) :
    (frameOffsets tbl).Pairwise Apart := by
  unfold frameOffsets
  rw [List.pairwise_map]
  refine h.imp fun {p q} hpq => ?_
  have : p.toNat ≠ q.toNat := fun h => hpq (BitVec.eq_of_toNat_eq h)
  unfold byteOffset Apart
  omega

theorem frameWrites_apart {tbl : Vector (BitVec 6) 64} (h : tbl.toList.Nodup) (cs : List RGB) :
    (frameWrites tbl cs).Pairwise fun p q => Apart p.1 q.1 := by
  rw [List.pairwise_iff_getElem]
  intro i j hi hj hij
  rw [getElem_frameWrites, getElem_frameWrites]
  have hp := List.pairwise_iff_getElem.mp (frameOffsets_apart h) i j (by simp at hi ⊢; omega) (by simp at hj ⊢; omega) hij
  rwa [getElem_frameOffsets, getElem_frameOffsets] at hp

theorem frameOffsets_even {tbl : Vector (BitVec 6) 64} {off : Nat} (h : off ∈ frameOffsets tbl) :
    off % 2 = 0 ∧ off ≤ 126 := by
  simp only [frameOffsets, List.mem_map] at h
  obtain ⟨p, _, rfl⟩ := h
  exact byteOffset_bound p

/-- A frame write whose 65 requests are all answered ok. -/
theorem writeFrame_ok {cs : List RGB} {s : State} {k : Fin 4} (hr : s.Rotated k) (hcs : cs.length = 64)
    (ha : ∀ n < 65, s.fbAnswer n = .ok) :
    writeFrame cs s =
      .ok () ({ s with mem := memWritten s.mem (frameWrites (s.omap.get k) cs) }.fbUsed 65
        ([Event.fbAcquire (.ok ())] ++ writeEvents (frameWrites (s.omap.get k) cs) ++ [Event.fbRelease])) := by
  unfold writeFrame
  rw [selectTable_rotated hr, bind_ok, withFb_ok (ha 0 (by omega)), writeCells_ok, release_ok]
  · simp [hcs, State.fbUsed, fbRelease, State.log]
  · intro n hn
    rw [fbUsed_fbAnswer]
    apply ha
    simp [hcs] at hn
    omega

theorem writeEvents_frameWrites (tbl : Vector (BitVec 6) 64) (cs : Vector RGB 64) :
    writeEvents (frameWrites tbl cs.toList) =
      (List.finRange 64).map fun L => Event.fbWrite (byteOffset (tbl.get L)) (pack (cs.get L)) (.ok ()) := by
  apply List.ext_getElem
  · simp [writeEvents]
  · intro n h1 h2
    simp only [writeEvents, List.getElem_map, getElem_frameWrites, List.getElem_finRange]
    simp
    rfl

theorem readEvents_frameOffsets (m : Memory) (tbl : Vector (BitVec 6) 64) :
    readEvents m (frameOffsets tbl) =
      (List.finRange 64).map fun L =>
        Event.fbRead (byteOffset (tbl.get L)) (.ok (memCell m (byteOffset (tbl.get L)))) := by
  apply List.ext_getElem
  · simp [readEvents]
  · intro n h1 h2
    simp only [readEvents, List.getElem_map, getElem_frameOffsets, List.getElem_finRange]
    simp

/-- After a whole frame is written, logical cell `L` holds colour `L`. -/
theorem memCell_frame {s : State} {k : Fin 4} {cs : Vector RGB 64} (hwf : s.mem.wf) (ho : s.OmapOk) (L : Fin 64) :
    memCell (memWritten s.mem (frameWrites (s.omap.get k) cs.toList)) (s.offsetOf k L) = pack (cs.get L) := by
  apply memCell_memWritten hwf
  · apply frameWrites_apart
    rw [ho]
    exact omapTables_injective k
  · have hL : (frameWrites (s.omap.get k) cs.toList)[L.val]'(by simp) = (s.offsetOf k L, pack (cs.get L)) := by
      rw [getElem_frameWrites]
      simp
      exact ⟨rfl, rfl⟩
    rw [← hL]
    exact List.getElem_mem _

theorem memGet_frame_high (m : Memory) (tbl : Vector (BitVec 6) 64) (cs : List RGB) {a : Nat} (h : 128 ≤ a) :
    memGet (memWritten m (frameWrites tbl cs)) a = memGet m a := by
  apply memGet_memWritten_other
  intro w hw
  have := frameWrites_bound hw
  omega

theorem setPixels_get (s : State) (cs : List RGB) (L : Fin 64) :
    (s.setPixels cs).pbuf.get L = (cs[L.val]?).map rgb24 := by
  simp only [State.setPixels]
  rw [Vector.get_ofFn]

/-! ### A frame write that fails -/

/-- Under one table distinct logical cells lie apart (41_mapper.md R125). -/
theorem offsetOf_apart {s : State} (ho : s.OmapOk) (k : Fin 4) {L L' : Fin 64} (h : L ≠ L') :
    Apart (s.offsetOf k L) (s.offsetOf k L') := by
  have : ((s.omap.get k).get L).toNat ≠ ((s.omap.get k).get L').toNat := by
    rw [ho]
    intro e
    apply h
    apply Fin.ext
    apply ((omapTables_injective k).getElem_inj_iff (hi := by simp) (hj := by simp)).1
    exact BitVec.eq_of_toNat_eq e
  unfold State.offsetOf Apart
  omega

theorem getElem_frameWrites_offsetOf (s : State) (k : Fin 4) (cs : Vector RGB 64) (L : Fin 64) :
    (frameWrites (s.omap.get k) cs.toList)[L.val]'(by simp) = (s.offsetOf k L, pack (cs.get L)) := by
  rw [getElem_frameWrites]
  simp
  exact ⟨rfl, rfl⟩

theorem writeEvents_frameEvents (s : State) (k : Fin 4) (cs : Vector RGB 64) :
    writeEvents (frameWrites (s.omap.get k) cs.toList) = s.frameEvents k cs :=
  writeEvents_frameWrites (s.omap.get k) cs

/-- A failing acquire ends the frame write before any access. -/
theorem writeFrame_acquireFail {cs : List RGB} {s : State} {k : Fin 4} {e : Word} (hr : s.Rotated k)
    (hf : s.fbAnswer 0 = .fail e) :
    writeFrame cs s = .err .deviceIOError e (s.fbUsed 1 [Event.fbAcquire (.fail e)]) := by
  unfold writeFrame
  rw [selectTable_rotated hr, bind_ok, withFb_fail hf]

/-- An acquire that is never answered leaves the frame write stuck before any access. -/
theorem writeFrame_acquireStall {cs : List RGB} {s : State} {k : Fin 4} (hr : s.Rotated k) (hf : s.fbAnswer 0 = .stall) :
    writeFrame cs s = .stall (s.fbUsed 1 []) := by
  unfold writeFrame
  rw [selectTable_rotated hr, bind_ok, withFb_stall hf]

theorem frameOffsets_split (s : State) (k : Fin 4) (n : Fin 64) :
    frameOffsets (s.omap.get k) = (frameOffsets (s.omap.get k)).take n.val ++
      s.offsetOf k n :: (frameOffsets (s.omap.get k)).drop (n.val + 1) := by
  have : (frameOffsets (s.omap.get k))[n.val]'(by simp) = s.offsetOf k n := by rw [getElem_frameOffsets]; rfl
  rw [← this, List.cons_getElem_drop_succ, List.take_append_drop]

theorem readEvents_take (s : State) (k : Fin 4) (n : Nat) :
    readEvents s.mem ((frameOffsets (s.omap.get k)).take n) =
      ((List.finRange 64).take n).map fun L => Event.fbRead (s.offsetOf k L) (.ok (s.cellAt (s.offsetOf k L))) := by
  have h := readEvents_frameOffsets s.mem (s.omap.get k)
  unfold readEvents at h ⊢
  rw [List.map_take, List.map_take, h]
  rfl

/-- The framebuffer after the write of logical cell `n` failed: the cells before it written, its own spoilt. -/
def State.partFrame (s : State) (k : Fin 4) (cs : Vector RGB 64) (n : Fin 64) : State :=
  { s with mem := memWritten s.mem ((frameWrites (s.omap.get k) cs.toList).take n.val) }.spoilCell (s.offsetOf k n)

/-- The writes of a frame, cut at logical cell `n`. -/
theorem frameWrites_split (s : State) (k : Fin 4) (cs : Vector RGB 64) (n : Fin 64) :
    frameWrites (s.omap.get k) cs.toList = (frameWrites (s.omap.get k) cs.toList).take n.val ++
      (s.offsetOf k n, pack (cs.get n)) :: (frameWrites (s.omap.get k) cs.toList).drop (n.val + 1) := by
  rw [← getElem_frameWrites_offsetOf, List.cons_getElem_drop_succ, List.take_append_drop]

theorem writeEvents_take (s : State) (k : Fin 4) (cs : Vector RGB 64) (n : Nat) :
    writeEvents ((frameWrites (s.omap.get k) cs.toList).take n) = (s.frameEvents k cs).take n := by
  rw [← writeEvents_frameEvents]
  simp [writeEvents]

/-- A frame write whose write of logical cell `n` fails (42_frame.md R145). -/
theorem writeFrame_fail {cs : Vector RGB 64} {s : State} {k : Fin 4} {n : Fin 64} {e : Word} (hr : s.Rotated k)
    (ha : ∀ m ≤ n.val, s.fbAnswer m = .ok) (hf : s.fbAnswer (n.val + 1) = .fail e) :
    writeFrame cs.toList s =
      .err .deviceIOError e ((s.partFrame k cs n).fbUsed (n.val + 2) (s.failedFrameEvents k cs n e)) := by
  unfold writeFrame
  rw [selectTable_rotated hr, bind_ok, withFb_ok (ha 0 (by omega))]
  have htl : ((frameWrites (s.omap.get k) cs.toList).take n.val).length = n.val := by simp
  conv in writeCells _ => rw [frameWrites_split s k cs n]
  rw [writeCells_fail (by intro m hm; rw [fbUsed_fbAnswer]; apply ha; omega)
    (by rw [fbUsed_fbAnswer, htl, Nat.add_comm]; exact hf), release_err, writeEvents_take, htl]
  simp [State.partFrame, State.failedFrameEvents, State.fbUsed, State.spoilCell, fbRelease, State.log, Nat.add_comm]
  omega

/-- A frame write whose write of logical cell `n` is never answered: stuck there, with the port still acquired. -/
theorem writeFrame_stall {cs : Vector RGB 64} {s : State} {k : Fin 4} {n : Fin 64} (hr : s.Rotated k)
    (ha : ∀ m ≤ n.val, s.fbAnswer m = .ok) (hf : s.fbAnswer (n.val + 1) = .stall) :
    writeFrame cs.toList s =
      .stall ({ s with mem := memWritten s.mem ((frameWrites (s.omap.get k) cs.toList).take n.val) }.fbUsed (n.val + 2)
        (s.silentFrameEvents k cs n)) := by
  unfold writeFrame
  rw [selectTable_rotated hr, bind_ok, withFb_ok (ha 0 (by omega))]
  have htl : ((frameWrites (s.omap.get k) cs.toList).take n.val).length = n.val := by simp
  conv in writeCells _ => rw [frameWrites_split s k cs n]
  rw [writeCells_stall (by intro m hm; rw [fbUsed_fbAnswer]; apply ha; omega)
    (by rw [fbUsed_fbAnswer, htl, Nat.add_comm]; exact hf), release_stall, writeEvents_take, htl]
  simp [State.fbUsed, State.silentFrameEvents, Nat.add_comm]
  omega

/-- The first `n` writes of a frame: those cells are new, every other cell is old. -/
theorem prefix_written {cs : Vector RGB 64} {s t : State} {k : Fin 4} {n : Fin 64} (hwf : s.mem.wf) (ho : s.OmapOk)
    (ht : t.mem = memWritten s.mem ((frameWrites (s.omap.get k) cs.toList).take n.val)) :
    (∀ L : Fin 64, L < n → t.cellAt (s.offsetOf k L) = pack (cs.get L)) ∧
    (∀ L : Fin 64, n ≤ L → t.cellAt (s.offsetOf k L) = s.cellAt (s.offsetOf k L)) ∧
    ∀ a, 128 ≤ a → t.byteAt a = s.byteAt a := by
  have htl : ((frameWrites (s.omap.get k) cs.toList).take n.val).length = n.val := by simp
  have hap := frameWrites_apart (tbl := s.omap.get k) (by rw [ho]; exact omapTables_injective k) cs.toList
  refine ⟨fun L hL => ?_, fun L hL => ?_, fun a h => ?_⟩
  · show memCell t.mem _ = _
    rw [ht]
    apply memCell_memWritten hwf (hap.sublist (List.take_sublist _ _))
    have hLl : L.val < ((frameWrites (s.omap.get k) cs.toList).take n.val).length := by rw [htl]; exact hL
    rw [← getElem_frameWrites_offsetOf s k cs L, ← List.getElem_take (h := hLl)]
    exact List.getElem_mem _
  · show memCell t.mem _ = memCell s.mem _
    rw [ht]
    apply memCell_memWritten_other
    intro w hw
    obtain ⟨i, hi, rfl⟩ := List.getElem_of_mem hw
    rw [htl] at hi
    rw [List.getElem_take, getElem_frameWrites_offsetOf s k cs ⟨i, by omega⟩]
    apply offsetOf_apart ho k
    exact fun e => absurd (Fin.le_def.1 hL) (by rw [e]; exact Nat.not_le.2 hi)
  · show memGet t.mem a = memGet s.mem a
    rw [ht]
    apply memGet_memWritten_other
    intro w hw
    have := frameWrites_bound (List.mem_of_mem_take hw)
    omega

/-- The framebuffer after the write of logical cell `n` was never answered. -/
theorem prefix_stopped {cs : Vector RGB 64} {s l : State} {k : Fin 4} {n : Fin 64} (hwf : s.mem.wf) (ho : s.OmapOk)
    (hl : l.mem = memWritten s.mem ((frameWrites (s.omap.get k) cs.toList).take n.val)) : StoppedAt cs k n s l := by
  obtain ⟨h1, h2, h3⟩ := prefix_written hwf ho hl
  exact ⟨⟨h1, fun L h => h2 L (Fin.le_of_lt h), h3⟩, h2 n (Fin.le_refl n)⟩

/-- What a frame write whose write of logical cell `n` fails leaves in the framebuffer. -/
theorem partFrame_written {cs : Vector RGB 64} {s : State} (k : Fin 4) (n : Fin 64) (hwf : s.mem.wf) (ho : s.OmapOk) :
    PartWritten cs k n s (s.partFrame k cs n) := by
  obtain ⟨h1, h2, h3⟩ := prefix_written (cs := cs) (k := k) (n := n)
    (t := { s with mem := memWritten s.mem ((frameWrites (s.omap.get k) cs.toList).take n.val) }) hwf ho rfl
  have byte : ∀ a, a ≠ s.offsetOf k n → a ≠ s.offsetOf k n + 1 → (s.partFrame k cs n).byteAt a =
      memGet (memWritten s.mem ((frameWrites (s.omap.get k) cs.toList).take n.val)) a := by
    intro a h h'
    unfold State.byteAt State.partFrame State.spoilCell
    rw [memGet_memSet_other _ _ h', memGet_memSet_other _ _ h]
  have cell : ∀ L : Fin 64, L ≠ n → (s.partFrame k cs n).cellAt (s.offsetOf k L) =
      memCell (memWritten s.mem ((frameWrites (s.omap.get k) cs.toList).take n.val)) (s.offsetOf k L) := by
    intro L hL
    obtain ⟨a0, a1, a2⟩ := offsetOf_apart ho k hL
    unfold State.cellAt memCell
    rw [byte _ (by omega) (by omega), byte _ (by omega) (by omega)]
  refine ⟨fun L hL => (cell L (Fin.ne_of_lt hL)).trans (h1 L hL),
    fun L hL => (cell L (Fin.ne_of_gt hL)).trans (h2 L (Fin.le_of_lt hL)), fun a h => ?_⟩
  have := ((s.omap.get k).get n).isLt
  exact (byte a (by unfold State.offsetOf; omega) (by unfold State.offsetOf; omega)).trans (h3 a h)

/-! ### What a sequence that went well did -/

theorem writeCells_inv {ws : List (Nat × Half)} {s t : State} (h : writeCells ws s = .ok () t) :
    t.mem = memWritten s.mem ws := by
  induction ws generalizing s with
  | nil => cases h; rfl
  | cons w ws ih =>
    obtain ⟨off, v⟩ := w
    rw [writeCells] at h
    cases a0 : s.fbAnswer 0 with
    | ok => rw [memWrite_ok _ _ a0, bind_ok] at h; exact ih h
    | fail c => rw [memWrite_fail _ _ a0] at h; cases h
    | stall => rw [memWrite_stall _ _ a0] at h; cases h

theorem readCells_inv {offs : List Nat} {s t : State} {vs : List Half} (h : readCells offs s = .ok vs t) :
    vs = offs.map (memCell s.mem) := by
  induction offs generalizing s t vs with
  | nil => cases h; rfl
  | cons off offs ih =>
    rw [readCells] at h
    cases a0 : s.fbAnswer 0 with
    | ok =>
      rw [memRead_ok _ a0, bind_ok] at h
      cases hr : readCells offs (s.fbUsed 1 [Event.fbRead off (Answer.ok (memCell s.mem off))]) with
      | ok vs' u => rw [hr] at h; cases h; rw [ih hr]; rfl
      | err k c u => rw [hr] at h; cases h
      | stall u => rw [hr] at h; cases h
      | unwritten u => rw [hr] at h; cases h
    | fail c => rw [memRead_fail _ a0] at h; cases h
    | stall => rw [memRead_stall _ a0] at h; cases h

theorem withFb_inv {α : Type} {body : State → Res α} {s t : State} {a : α} (h : withFb body s = .ok a t) :
    ∃ u, body (s.fbUsed 1 [Event.fbAcquire (.ok ())]) = .ok a u ∧ t = fbRelease u := by
  cases a0 : s.fbAnswer 0 with
  | ok =>
    rw [withFb_ok a0] at h
    cases hb : body (s.fbUsed 1 [Event.fbAcquire (.ok ())]) with
    | ok b u => rw [hb] at h; cases h; exact ⟨u, rfl, rfl⟩
    | err k c u => rw [hb] at h; cases h
    | stall u => rw [hb] at h; cases h
    | unwritten u => rw [hb] at h; cases h
  | fail c => rw [withFb_fail a0] at h; cases h
  | stall => rw [withFb_stall a0] at h; cases h

end Sys2Proof.Machine
end

