-- ==== Sys2Proof/Laws/Access.lean ====
section
/-! SUPPORT. Everything the framebuffer part of a command can do, said once: what the accesses leave in the framebuffer,
    which
events they record, and how they end. -/

namespace Sys2Proof.Machine

/-- The framebuffer `m'` differs from `m` at most in bytes 0..127, and is as well-formed as `m` was. -/
structure LowBytes (m m' : Memory) : Prop where
  high : ∀ a, 128 ≤ a → memGet m' a = memGet m a
  wf : m.wf → m'.wf
  bound : ∀ n, 128 ≤ n → (∀ c ∈ m, c.1 < n) → ∀ c ∈ m', c.1 < n

theorem LowBytes.refl (m : Memory) : LowBytes m m := ⟨fun _ _ => rfl, id, fun _ _ h => h⟩

theorem LowBytes.trans {m m' m'' : Memory} (h : LowBytes m m') (h' : LowBytes m' m'') : LowBytes m m'' :=
  ⟨fun a ha => (h'.high a ha).trans (h.high a ha), fun hw => h'.wf (h.wf hw), fun n hn hb => h'.bound n hn
      (h.bound n hn hb)⟩

theorem lowBytes_memSet (m : Memory) {a : Nat} (b : Byte) (h : a < 128) : LowBytes m (memSet m a b) :=
  ⟨fun a' ha => memGet_memSet_other m b (by omega), fun hw => memSet_wf hw a b, fun n hn hb => memSet_bound hb (by omega)⟩

/-- An access of the frame: a read or a write of two bytes at an even offset of at most 126. -/
def Event.IsAccess (e : Event) : Prop := ∃ off, e.offset = some off ∧ off % 2 = 0 ∧ off ≤ 126

/-- Good accesses: none failed. -/
def Accesses (es : List Event) : Prop := ∀ e ∈ es, e.IsAccess ∧ e.failCause = none

/-- An event that is no failure and no part of a framebuffer access that went well: a delay or a bus event answered ok. -/
abbrev Event.Harmless (e : Event) : Prop :=
  e.failCause = none ∧ e.offset = none ∧ e ≠ .fbRelease ∧ e ≠ .fbAcquire (.ok ())

/-- Everything the accesses to the framebuffer of one command can do once the port is acquired (R54, R56, R57);
`stores` says whether the command writes. -/
inductive AccessCase (stores : Bool) (s : State) {α : Type} (r : Res α) : Prop where
  | ok (a : α) (n : Nat) (m : Memory) (es : List Event) (ha : Accesses es) (hm : LowBytes s.mem m)
      (hs : stores = false → m = s.mem)
      (hr : r = .ok a ({ s with mem := m }.fbUsed n es))
  | fail (n : Nat) (m : Memory) (fc : Nat) (es : List Event) (e : Event) (c : Word) (ha : Accesses es)
      (he : e.IsAccess) (hc : e.failCause = some c) (hm : LowBytes s.mem m) (hs : stores = false → m = s.mem)
      (hn : ∃ k, s.fbAnswer k = .fail c)
      (hr : r = .err .deviceIOError c ({ s with mem := m, freeCount := fc }.fbUsed n (es ++ [e])))
  | stall (n : Nat) (m : Memory) (es : List Event) (ha : Accesses es) (hm : LowBytes s.mem m)
      (hs : stores = false → m = s.mem) (hn : ∃ k, s.fbAnswer k = .stall)
      (hr : r = .stall ({ s with mem := m }.fbUsed n es))

theorem accesses_cons {e : Event} {es : List Event} (he : e.IsAccess) (hf : e.failCause = none) (h : Accesses es) :
    Accesses (e :: es) := by
  intro e' h'
  rcases List.mem_cons.1 h' with rfl | h'
  · exact ⟨he, hf⟩
  · exact h e' h'

theorem accesses_nil : Accesses [] := fun _ h => absurd h List.not_mem_nil
theorem accesses_one {e : Event} (he : e.IsAccess) (hf : e.failCause = none) : Accesses [e] := accesses_cons he hf
    accesses_nil

theorem accessCase_memRead (off : Nat) (h2 : off % 2 = 0) (h : off ≤ 126) (s : State) : AccessCase false s
    (memRead off s) := by
  cases h0 : s.fbAnswer 0 with
  | ok => exact .ok _ 1 s.mem _ (accesses_one ⟨off, rfl, h2, h⟩ rfl) (LowBytes.refl _) (fun _ => rfl) (memRead_ok off h0)
  | fail c =>
    exact .fail 1 s.mem s.freeCount [] _ c accesses_nil ⟨off, rfl, h2, h⟩ rfl (LowBytes.refl _) (fun _ => rfl) ⟨0, h0⟩
        (memRead_fail off h0)
  | stall => exact .stall 1 s.mem [] accesses_nil (LowBytes.refl _) (fun _ => rfl) ⟨0, h0⟩ (memRead_stall off h0)

theorem accessCase_memWrite (off : Nat) (v : Half) (h2 : off % 2 = 0) (h : off ≤ 126) (s : State) : AccessCase true s
    (memWrite off v s) := by
  cases h0 : s.fbAnswer 0 with
  | ok =>
    exact .ok _ 1 _ _ (accesses_one ⟨off, rfl, h2, h⟩ rfl) ((lowBytes_memSet _ _ (by omega)).trans (lowBytes_memSet _ _
        (by omega))) (fun h => by cases h) (memWrite_ok off v h0)
  | fail c =>
    exact .fail 1 _ _ [] _ c accesses_nil ⟨off, rfl, h2, h⟩ rfl ((lowBytes_memSet _ _ (by omega)).trans
        (lowBytes_memSet _ _ (by omega))) (fun h => by cases h) ⟨0, h0⟩ (memWrite_fail off v h0)
  | stall => exact .stall 1 s.mem [] accesses_nil (LowBytes.refl _) (fun h => by cases h) ⟨0, h0⟩ (memWrite_stall off v h0)

theorem AccessCase.bind {stores : Bool} {s : State} {α β : Type} {r : Res α} {f : α → State → Res β}
    (h : AccessCase stores s r)
    (hf : ∀ a t, AccessCase stores t (f a t)) : AccessCase stores s (r.bind f) := by
  cases h with
  | fail n m fc es e c ha he hc hm hs hn hr => subst hr; exact .fail n m fc es e c ha he hc hm hs hn rfl
  | stall n m es ha hm hs hn hr => subst hr; exact .stall n m es ha hm hs hn rfl
  | ok a n m es ha hm hs hr =>
    subst hr
    have hcat : ∀ {es'}, Accesses es' → Accesses (es ++ es') := fun h' e he => by
      rcases List.mem_append.1 he with h1 | h1
      · exact ha e h1
      · exact h' e h1
    have hans : ∀ {a}, (∃ k, ({ s with mem := m }.fbUsed n es).fbAnswer k = a) → ∃ k, s.fbAnswer k = a := fun ⟨k, hk⟩ =>
        ⟨n + k, by rw [fbUsed_fbAnswer] at hk; exact hk⟩
    cases hf a ({ s with mem := m }.fbUsed n es) with
    | ok b n' m' es' ha' hm' hs' hr' =>
      exact .ok b (n + n') m' (es ++ es') (hcat ha') (hm.trans hm') (fun h => (hs' h).trans (hs h))
          (by rw [bind_ok, hr']; simp [State.fbUsed])
    | fail n' m' fc es' e c ha' he hc hm' hs' hn hr' =>
      exact .fail (n + n') m' fc (es ++ es') e c (hcat ha') he hc (hm.trans hm') (fun h => (hs' h).trans (hs h))
          (hans hn) (by rw [bind_ok, hr']; simp [State.fbUsed])
    | stall n' m' es' ha' hm' hs' hn hr' =>
      exact .stall (n + n') m' (es ++ es') (hcat ha') (hm.trans hm') (fun h => (hs' h).trans (hs h)) (hans hn)
          (by rw [bind_ok, hr']; simp [State.fbUsed])

theorem accessCase_pure {stores : Bool} {α : Type} (a : α) (s : State) : AccessCase stores s (.ok a s) :=
  .ok a 0 s.mem [] accesses_nil (LowBytes.refl _) (fun _ => rfl) (by rw [fbUsed_nil])

theorem accessCase_writeCells (ws : List (Nat × Half)) (h : ∀ w ∈ ws, w.1 % 2 = 0 ∧ w.1 ≤ 126) (s : State) :
    AccessCase true s (writeCells ws s) := by
  induction ws generalizing s with
  | nil => exact accessCase_pure () s
  | cons w ws ih =>
    obtain ⟨off, v⟩ := w
    have := h (off, v) (by simp)
    exact (accessCase_memWrite off v this.1 this.2 s).bind fun _ t => ih (fun w hw => h w (List.mem_cons_of_mem _ hw)) t

theorem accessCase_readCells (offs : List Nat) (h : ∀ off ∈ offs, off % 2 = 0 ∧ off ≤ 126) (s : State) :
    AccessCase false s (readCells offs s) := by
  induction offs generalizing s with
  | nil => exact accessCase_pure [] s
  | cons off offs ih =>
    have := h off (by simp)
    exact (accessCase_memRead off this.1 this.2 s).bind fun v t =>
      (ih (fun w hw => h w (List.mem_cons_of_mem _ hw)) t).bind fun vs u => accessCase_pure (v :: vs) u

/-- Everything the framebuffer part of a command can do: it stops before the port, at the acquire, or between acquire and
release. -/
inductive FbCase (stores : Bool) (s : State) {α : Type} (r : Res α) : Prop where
  | unwritten (h : s.rot = none) (hr : r = .unwritten s)
  | invalid (k : ErrKind) (hk : (k = .outOfRange) ∨ (k = .invalidLength) ∨ k = .invalidRotation) (hr : r = .err k 0 s)
  | acquireFail (c : Word) (h : s.fbAnswer 0 = .fail c) (hr : r = .err .deviceIOError c (s.fbUsed 1 [.fbAcquire (.fail c)]))
  | ok (a : α) (n : Nat) (m : Memory) (es : List Event) (ha : Accesses es) (hm : LowBytes s.mem m)
      (hs : stores = false → m = s.mem)
      (hr : r = .ok a ({ s with mem := m }.fbUsed n (Event.fbAcquire (.ok ()) :: es ++ [Event.fbRelease])))
  | fail (n : Nat) (m : Memory) (fc : Nat) (es : List Event) (e : Event) (c : Word) (ha : Accesses es)
      (he : e.IsAccess) (hc : e.failCause = some c) (hm : LowBytes s.mem m) (hs : stores = false → m = s.mem)
      (hn : ∃ k, s.fbAnswer k = .fail c)
      (hr : r = .err .deviceIOError c ({ s with mem := m, freeCount := fc }.fbUsed n (Event.fbAcquire (.ok ()) :: es ++
          [e, Event.fbRelease])))
  | stall (n : Nat) (m : Memory) (es : List Event) (hm : LowBytes s.mem m)
      (hs : stores = false → m = s.mem) (hn : ∃ k, s.fbAnswer k = .stall)
      (hr : r = .stall ({ s with mem := m }.fbUsed n es))

theorem fbCase_withFb {stores : Bool} {α : Type} {body : State → Res α} (hb : ∀ t, AccessCase stores t (body t))
    (s : State) : FbCase stores s (withFb body s) := by
  cases h0 : s.fbAnswer 0 with
  | fail c => exact .acquireFail c h0 (withFb_fail h0)
  | stall => exact .stall 1 s.mem [] (LowBytes.refl _) (fun _ => rfl) ⟨0, h0⟩ (withFb_stall h0)
  | ok =>
    have hans : ∀ {a}, (∃ k, (s.fbUsed 1 [Event.fbAcquire (.ok ())]).fbAnswer k = a) → ∃ k, s.fbAnswer k = a :=
      fun ⟨k, hk⟩ => ⟨1 + k, by rw [fbUsed_fbAnswer] at hk; exact hk⟩
    cases hb (s.fbUsed 1 [Event.fbAcquire (.ok ())]) with
    | ok b n' m' es' ha' hm' hs' hr' =>
      refine .ok b (1 + n') m' es' ha' hm' hs' ?_
      rw [withFb_ok h0, hr']
      simp [State.fbUsed, fbRelease, State.log]
      omega
    | fail n' m' fc es' e c ha' he hc hm' hs' hn hr' =>
      refine .fail (1 + n') m' fc es' e c ha' he hc hm' hs' (hans hn) ?_
      rw [withFb_ok h0, hr']
      simp [State.fbUsed, fbRelease, State.log]
      omega
    | stall n' m' es' ha' hm' hs' hn hr' =>
      refine .stall (1 + n') m' (Event.fbAcquire (.ok ()) :: es') hm' hs' (hans hn) ?_
      rw [withFb_ok h0, hr']
      simp [State.fbUsed]
      omega

theorem fbCase_select {stores : Bool} {α : Type} {f : Vector (BitVec 6) 64 → State → Res α} (hf : ∀ t s, FbCase stores s (f t s))
    (s : State) : FbCase stores s ((selectTable s).bind f) := by
  unfold selectTable
  cases hs : s.rot with
  | none => exact .unwritten hs rfl
  | some r =>
    simp only
    cases sel r with
    | none => exact .invalid _ (.inr (.inr rfl)) rfl
    | some k => exact hf _ s

theorem fbCase_address {stores : Bool} {α : Type} {x y : Byte} {f : BitVec 6 → State → Res α} (hf : ∀ t s, FbCase stores
    s (f t s)) (s : State) :
    FbCase stores s ((address x y s).bind f) := by
  rcases address_cases x y s with ⟨_, P, h⟩ | ⟨k, hk, h⟩ | ⟨_, hr, h⟩
  · rw [h]
    exact hf P s
  · rw [h]
    exact .invalid k (by rcases hk with rfl | rfl <;> simp) rfl
  · rw [h]
    exact .unwritten hr rfl

theorem fbCase_writeFrame (cs : List RGB) (s : State) : FbCase true s (writeFrame cs s) :=
  fbCase_select (fun _ s => fbCase_withFb (accessCase_writeCells _ fun _ hw => frameOffsets_even (List.of_mem_zip hw).1)
      s) s

end Sys2Proof.Machine
end

