-- ==== Sys2Proof/Laws/Decode.lean ====
section
/-! SUPPORT. The fields of assembled words, the row a head word matches, and the decoder on a head word of a row. -/

namespace Sys2Proof.Laws

/-! ### Fields of words put together -/

@[simp] theorem byte3_bytes (a b c d : Byte) : byte3 (a ++ b ++ c ++ d) = a := by
  unfold byte3
  rw [BitVec.extractLsb'_append_eq_of_le (by omega), BitVec.extractLsb'_append_eq_of_le (by omega),
    BitVec.extractLsb'_append_eq_of_le (by omega)]
  simp

@[simp] theorem byte2_bytes (a b c d : Byte) : byte2 (a ++ b ++ c ++ d) = b := by
  unfold byte2
  rw [BitVec.extractLsb'_append_eq_of_le (by omega), BitVec.extractLsb'_append_eq_of_le (by omega),
    BitVec.extractLsb'_append_eq_of_add_le (by omega)]
  simp

@[simp] theorem byte1_bytes (a b c d : Byte) : byte1 (a ++ b ++ c ++ d) = c := by
  unfold byte1
  rw [BitVec.extractLsb'_append_eq_of_le (by omega), BitVec.extractLsb'_append_eq_of_add_le (by omega)]
  simp

@[simp] theorem byte0_bytes (a b c d : Byte) : byte0 (a ++ b ++ c ++ d) = d := by
  unfold byte0
  rw [BitVec.extractLsb'_append_eq_of_add_le (by omega)]
  simp

@[simp] theorem byte1_xy (h : Half) (x y : Byte) : byte1 (h ++ x ++ y) = x := by
  unfold byte1
  rw [BitVec.extractLsb'_append_eq_of_le (by omega), BitVec.extractLsb'_append_eq_of_add_le (by omega)]
  simp

@[simp] theorem byte0_xy (h : Half) (x y : Byte) : byte0 (h ++ x ++ y) = y := by
  unfold byte0
  rw [BitVec.extractLsb'_append_eq_of_add_le (by omega)]
  simp

@[simp] theorem hiHalf_halves (a b : Half) : hiHalf (a ++ b) = a := by
  unfold hiHalf
  rw [BitVec.extractLsb'_append_eq_of_le (by omega)]
  simp

@[simp] theorem loHalf_halves (a b : Half) : loHalf (a ++ b) = b := by
  unfold loHalf
  rw [BitVec.extractLsb'_append_eq_of_add_le (by omega)]
  simp

@[simp] theorem loHalf_flag (h : Byte) (f : Bool) (v : Half) : loHalf (h ++ 0#7 ++ BitVec.ofBool f ++ v) = v := by
  unfold loHalf
  rw [BitVec.extractLsb'_append_eq_of_add_le (by omega)]
  simp

@[simp] theorem flag_bit (h : Byte) (f : Bool) (v : Half) : (h ++ 0#7 ++ BitVec.ofBool f ++ v).getLsbD 16 = f := by
  rw [BitVec.getLsbD_append, BitVec.getLsbD_append]
  simp

@[simp] theorem on_bit (h : BitVec 31) (f : Bool) : (h ++ BitVec.ofBool f).getLsbD 0 = f := by
  rw [BitVec.getLsbD_append]
  simp

@[simp] theorem colourOf_bytes (h : Byte) (c : RGB) : colourOf (h ++ c.r ++ c.g ++ c.b) = c := by
  simp [colourOf]

@[simp] theorem colourOf_colourWord (c : RGB) : colourOf (colourWord c) = c := colourOf_bytes 0#8 c

@[simp] theorem colourWordOk_colourWord (c : RGB) : colourWordOk (colourWord c) = true := by
  simp [colourWordOk, colourWord]

/-! ### Masks on words put together -/

theorem mask_top_byte (h : Byte) (a b c : Byte) : (h ++ a ++ b ++ c) &&& 0xFF000000#32 = h ++ 0#8 ++ 0#8 ++ 0#8 := by
  have hm : (0xFF000000#32) = (BitVec.allOnes 8 ++ 0#8 ++ 0#8 ++ 0#8 : BitVec (8 + 8 + 8 + 8)) := rfl
  rw [hm, BitVec.and_append, BitVec.and_append, BitVec.and_append, BitVec.and_zero, BitVec.and_zero, BitVec.and_zero,
    BitVec.and_allOnes]

theorem mask_top_half (h v : Half) : (h ++ v) &&& 0xFFFF0000#32 = h ++ 0#16 := by
  have hm : (0xFFFF0000#32) = (BitVec.allOnes 16 ++ 0#16 : BitVec (16 + 16)) := rfl
  rw [hm, BitVec.and_append, BitVec.and_zero, BitVec.and_allOnes]

theorem mask_top_half_xy (h : Half) (x y : Byte) : (h ++ x ++ y) &&& 0xFFFF0000#32 = h ++ 0#8 ++ 0#8 := by
  have hm : (0xFFFF0000#32) = (BitVec.allOnes 16 ++ 0#8 ++ 0#8 : BitVec (16 + 8 + 8)) := rfl
  rw [hm, BitVec.and_append, BitVec.and_append, BitVec.and_zero, BitVec.and_zero, BitVec.and_allOnes]

theorem mask_flag (h : Byte) (f : Bool) (v : Half) :
    (h ++ 0#7 ++ BitVec.ofBool f ++ v) &&& 0xFFFE0000#32 = h ++ 0#7 ++ 0#1 ++ 0#16 := by
  have hm : (0xFFFE0000#32) = (BitVec.allOnes 8 ++ BitVec.allOnes 7 ++ 0#1 ++ 0#16 : BitVec (8 + 7 + 1 + 16)) := rfl
  rw [hm, BitVec.and_append, BitVec.and_append, BitVec.and_append, BitVec.and_zero, BitVec.and_zero, BitVec.and_allOnes,
    BitVec.and_allOnes]

theorem mask_on (h : BitVec 31) (f : Bool) : (h ++ BitVec.ofBool f) &&& 0xFFFFFFFE#32 = h ++ 0#1 := by
  have hm : (0xFFFFFFFE#32) = (BitVec.allOnes 31 ++ 0#1 : BitVec (31 + 1)) := rfl
  rw [hm, BitVec.and_append, BitVec.and_zero, BitVec.and_allOnes]

/-! ### The row of a head word -/

/-- A word matches a row when the row's mask leaves the row's pattern of it. -/
theorem matches_intro {r : Row} {w p : Word} (h : w &&& r.mask = p) (hp : (p == r.pattern) = true) :
    r.matches w = true := by
  rw [Row.matches, h, hp]

theorem rows_mask_op : ∀ r ∈ rows, byte3 r.mask = 0xFF#8 := by decide

theorem rows_op_unique : ∀ r ∈ rows, ∀ r' ∈ rows, byte3 r.pattern = byte3 r'.pattern → r = r' := by decide

/-- A head word that matches a row has that row's op byte (R84: every mask includes the whole op byte). -/
theorem op_of_matches {r : Row} {w : Word} (hr : r ∈ rows) (h : r.matches w = true) : byte3 w = byte3 r.pattern := by
  simp only [Row.matches, beq_iff_eq] at h
  have hand : byte3 (w &&& r.mask) = byte3 w &&& byte3 r.mask := by simp [byte3, BitVec.extractLsb'_and]
  rw [← h, hand, rows_mask_op r hr]
  exact (BitVec.and_allOnes (x := byte3 w)).symm

/-- At most one row matches a head word (R84). -/
theorem matches_unique {r r' : Row} {w : Word} (hr : r ∈ rows) (hr' : r' ∈ rows) (h : r.matches w = true)
    (h' : r'.matches w = true) : r = r' :=
  rows_op_unique r hr r' hr' ((op_of_matches hr h).symm.trans (op_of_matches hr' h'))

theorem matches_of_findRow {r : Row} {w : Word} (h : findRow w = some r) : r ∈ rows ∧ r.matches w = true :=
  ⟨List.mem_of_find?_eq_some h, List.find?_some (p := fun r : Row => r.matches w) h⟩

theorem findRow_of_matches {r : Row} {w : Word} (hr : r ∈ rows) (h : r.matches w = true) : findRow w = some r := by
  cases hf : findRow w with
  | none => exact absurd h (by simpa using List.find?_eq_none.mp hf r hr)
  | some r' => rw [matches_unique (matches_of_findRow hf).1 hr (matches_of_findRow hf).2 h]

/-! ### The decoder on a head word of a row -/

theorem decode_cons_of_findRow {r : Row} {w : Word} {rest : List Word} (h : findRow w = some r)
    (hlen : payloadLength r.format w ≤ rest.length) :
    decode (w :: rest) = assemble r.op w (rest.take (payloadLength r.format w)) := by
  simp [decode, h, Nat.not_lt.mpr hlen]

theorem decode_cons_illegal {w : Word} {rest : List Word} (h : findRow w = none) :
    decode (w :: rest) = .illegal 1 := by
  simp [decode, h]

end Sys2Proof.Laws
end

