-- ==== Sys2Proof/Laws/Image.lean ====
section
/-! SUPPORT. The image port (42_frame.md R151, R152): each answer of an `ImgOpen`, and the 64 samples. -/

namespace Sys2Proof.Machine

/-- The state after an `ImgOpen` that got the answer `a`. -/
def State.opened (s : State) (src : Half) (a : ImgAnswer) : State :=
  { s with ports := { s.ports with imgOpen := s.ports.imgOpen.tail }, trace := s.trace ++ [Event.imgOpen src a] }

theorem imgOpen_ok {s : State} (src : Half) (h : s.imgAnswer = .ok) : imgOpen src s = .ok () (s.opened src .ok) := by
  unfold imgOpen State.nextImg
  unfold State.imgAnswer at h
  rw [h]
  rfl

theorem imgOpen_notFound {s : State} (src : Half) (h : s.imgAnswer = .notFound) :
    imgOpen src s = .err .imageNotFound 0 (s.opened src .notFound) := by
  unfold imgOpen State.nextImg
  unfold State.imgAnswer at h
  rw [h]
  rfl

theorem imgOpen_decodeError {s : State} (src : Half) (h : s.imgAnswer = .decodeError) :
    imgOpen src s = .err .imageDecodeError 0 (s.opened src .decodeError) := by
  unfold imgOpen State.nextImg
  unfold State.imgAnswer at h
  rw [h]
  rfl

/-- One sample: its one event, and the queue or the counter of free values that it uses. -/
theorem imgSample_state (x y : Nat) (s : State) : ∃ fc, (imgSample x y s).2 =
    { s with
      trace := s.trace ++ [Event.imgSample x y (imgSample x y s).1]
      ports := { s.ports with imgSamples := s.ports.imgSamples.tail }, freeCount := fc } := by
  unfold imgSample State.nextSample
  split <;> rename_i h
  · exact ⟨s.freeCount, by simp [State.log, h]⟩
  · have hp : { s.ports with imgSamples := s.ports.imgSamples.tail } = s.ports := by rw [h, List.tail_nil, ← h]
    exact ⟨s.freeCount + 4, by rw [hp]; rfl⟩

/-- Samples in sequence: one sample for each coordinate, the queued ones first. -/
theorem sampleAll_cases (xs : List (Nat × Nat)) (s : State) :
    ∃ (ps : List Sample) (fc : Nat), ps.length = xs.length ∧
      sampleAll xs s = (ps.map sampleColour,
        { s with
          trace := s.trace ++ List.zipWith (fun c p => Event.imgSample c.1 c.2 p) xs ps
          ports := { s.ports with imgSamples := s.ports.imgSamples.drop xs.length }, freeCount := fc }) ∧
      ∀ (i : Nat) (p : Sample), i < xs.length → s.ports.imgSamples[i]? = some p → ps[i]? = some p := by
  induction xs generalizing s with
  | nil => exact ⟨[], s.freeCount, rfl, by simp [sampleAll], by simp⟩
  | cons c xs ih =>
    obtain ⟨x, y⟩ := c
    simp only [sampleAll]
    obtain ⟨ps, fc, hl, he, hp⟩ := ih (imgSample x y s).2
    refine ⟨(imgSample x y s).1 :: ps, fc, by simp [hl], ?_, ?_⟩
    · rw [he]
      obtain ⟨fc', hn⟩ := imgSample_state x y s
      rw [hn]
      simp
    · intro i p hi hs
      cases i with
      | zero =>
        simp
        unfold imgSample State.nextSample
        split <;> simp_all
      | succ i =>
        simp
        apply hp i p (by simpa using hi)
        unfold imgSample State.nextSample
        split <;> simp_all [State.log]

/-- The events of the 64 samples, in row-major order. -/
def sampleEvents (v : Vector Sample 64) : List Event :=
  (List.finRange 64).map fun L => Event.imgSample (L.val % 8) (L.val / 8) (v.get L)

theorem sampleEvents_eq {ps : List Sample} (h : ps.length = gridCoords.length) : ∃ v : Vector Sample 64, v.toList = ps ∧
    List.zipWith (fun c p => Event.imgSample c.1 c.2 p) gridCoords ps = sampleEvents v := by
  have hl : ps.length = 64 := by simpa using h
  refine ⟨⟨ps.toArray, by simpa using hl⟩, by simp, ?_⟩
  apply List.ext_getElem
  · simp [sampleEvents, hl]
  · intro n h1 h2
    simp [sampleEvents, gridCoords, Vector.get]

theorem sampleEvents_quiet (src : Half) (v : Vector Sample 64) :
    ∀ e ∈ imageEvents src v, e.isDeviceIO = false := by
  intro e he
  simp only [imageEvents, List.mem_append, List.mem_singleton, List.mem_map] at he
  rcases he with rfl | ⟨L, _, rfl⟩ <;> rfl

/-- LDIMG up to the frame write: the image opened and sampled. -/
theorem execLdimg_sampled {s : State} (src : Half) (redraw : Bool) (h : s.imgAnswer = .ok) :
    ∃ (v : Vector Sample 64) (fc : Nat) (t : State),
      t = { s with trace := s.trace ++ imageEvents src v, ports := s.ports.afterImage 0, freeCount := fc } ∧
      SamplesOf s v ∧
      execLdimg src redraw s =
        (if redraw then
          (writeFrame (v.toList.map sampleColour) t).bind fun _ u => .ok (v.toList.map sampleColour) u
        else .ok (v.toList.map sampleColour) t).finish 1 .pbuf fun img u => u.setPixels img := by
  unfold execLdimg
  rw [imgOpen_ok src h, bind_ok]
  obtain ⟨ps, fc, hl, he, hp⟩ := sampleAll_cases gridCoords (s.opened src .ok)
  obtain ⟨v, hv, hz⟩ := sampleEvents_eq hl
  refine ⟨v, fc, _, rfl, fun L p hs => ?_, ?_⟩
  · have := hp L.val p (by simp) hs
    rw [← hv] at this
    simpa [Vector.get] using this
  · rw [he, hz, hv]
    simp [State.opened, imageEvents, sampleEvents, Ports.afterImage]

end Sys2Proof.Machine
end

