-- ==== Sys2Proof/Laws/Sensor.lean ====
section
/-! SUPPORT. The bus reads of GETRAW (43_sensor.md R183) and the gain table lookups (R171, R172): what each brings and
    keeps. -/

namespace Sys2Proof.Machine

/-! ### The data of a bus read -/

theorem queuedData_ports (s : State) :
    s.queuedData.2.ports.fb = s.ports.fb ∧ s.queuedData.2.ports.bus = s.ports.bus ∧ s.queuedData.2.mem = s.mem := by
  unfold State.queuedData
  split <;> exact ⟨rfl, rfl, rfl⟩

/-- Bringing the data of a read uses up no answer and touches no memory. -/
theorem nextData_ports (s : State) (reg : Byte) :
    (s.nextData reg).2.ports.fb = s.ports.fb ∧ (s.nextData reg).2.ports.bus = s.ports.bus ∧
      (s.nextData reg).2.mem = s.mem := by
  unfold State.nextData
  split
  · exact queuedData_ports s
  · split
    · exact ⟨rfl, rfl, rfl⟩
    · split
      · exact ⟨rfl, rfl, rfl⟩
      · split
        · exact ⟨rfl, rfl, rfl⟩
        · split
          · exact ⟨rfl, rfl, rfl⟩
          · exact queuedData_ports s

theorem busAnswer_congr {s t : State} (h : t.ports.bus = s.ports.bus) (hc : t.cfg = s.cfg) (k : Nat) :
    t.busAnswer k = s.busAnswer k := by
  unfold State.busAnswer
  rw [h, hc]

/-- A read that answers ok: its value, its one event, the later answers, and where the value comes from. -/
theorem busRead16_cases_ok {s : State} (reg : Byte) (h : s.busAnswer 0 = .ok) :
    ∃ (v : Half) (t : State), busRead16 reg s = .ok v t ∧
      (∃ p f, t = { s with
        trace := s.trace ++ [Event.busRead16 s.cfg.sensorAddr reg (.ok v)], ports := p, freeCount := f }) ∧
      (∀ k, t.busAnswer k = s.busAnswer (1 + k)) ∧ v = ((s.busUsed 1 []).nextData reg).1 ∧
      ∀ v' rest, s.cfg.backend = .device → s.ports.busData = v' :: rest → v = v' ∧ t.ports.busData = rest := by
  rw [busRead16_ok reg h]
  refine ⟨_, _, rfl, ?_, fun k => ?_, rfl, fun v' rest hb hd => ?_⟩
  · unfold State.nextData State.queuedData State.busUsed State.log
    cases hb : s.cfg.backend
    · cases hd : s.ports.busData <;> simp
    · cases hd : s.ports.busData <;> simp <;> split <;> (try split) <;> (try split) <;> (try split) <;> simp
  · have hb := (nextData_ports (s.busUsed 1 []) reg).2.1
    have hc := (portStep_nextData (s.busUsed 1 []) reg).cfg
    exact (busAnswer_congr (s := s.busUsed 1 []) hb hc k).trans (busUsed_busAnswer s 1 [] k)
  · unfold State.nextData State.queuedData State.busUsed State.log
    simp [hb, hd]

/-! ### The gain table -/

theorem codeOfGain_none {table : List (Nat × Byte)} {level : Int} (h : ∀ p ∈ table, (p.1 : Int) ≠ level) :
    codeOfGain table level = none := by
  unfold codeOfGain
  rw [List.find?_eq_none.2]
  · rfl
  · intro p hp
    simpa using h p hp

/-- In a table with distinct levels a level has its one code. -/
theorem codeOfGain_some {c : Config} {g : Nat} {code : Byte} {level : Int} (hwf : c.wf) (hm : (g, code) ∈ c.gainTable)
    (hg : (g : Int) = level) : codeOfGain c.gainTable level = some code := by
  unfold codeOfGain
  obtain ⟨hn, -⟩ := hwf
  generalize c.gainTable = table at *
  induction table with
  | nil => simp at hm
  | cons p table ih =>
    simp only [List.map_cons, List.nodup_cons] at hn
    by_cases hp : (p.1 : Int) = level
    · rw [List.find?_cons_of_pos (by simpa using hp)]
      rcases List.mem_cons.1 hm with rfl | hm
      · rfl
      · have : p.1 = g := by omega
        exact absurd (this ▸ List.mem_map_of_mem hm) hn.1
    · rw [List.find?_cons_of_neg (by simpa using hp)]
      rcases List.mem_cons.1 hm with rfl | hm
      · exact absurd hg hp
      · exact ih hm hn.2

end Sys2Proof.Machine
end

