-- ==== Sys2Proof/Laws/Exec.lean ====
section
/-! SUPPORT. Everything a command can do, said once for all sixteen: `exec_next`, `exec_stuck`, `exec_unwritten`. -/

namespace Sys2Proof.Machine

/-- The events of one command, in the order they come: image events and delays; then, if the command reaches the
    framebuffer, its accesses between an acquire and a release; `c` is the cause of the answer that failed, if one did. -/
inductive EventShape : Option Word → List Event → Prop where
  | quiet (es) (h : ∀ e ∈ es, e.isDeviceIO = false) : EventShape none es
  | bus (es) (h : ∀ e ∈ es, e.Harmless) : EventShape none es
  | busFail (es e c) (h : ∀ e ∈ es, e.Harmless) (he : e.offset = none) (hc : e.failCause = some c) : EventShape (some c)
      (es ++ [e])
  | fb (pre es) (hp : ∀ e ∈ pre, e.isDeviceIO = false) (h : Accesses es) : EventShape none
      (pre ++ (Event.fbAcquire (.ok ()) :: es ++ [Event.fbRelease]))
  | fbFail (pre es e c) (hp : ∀ e ∈ pre, e.isDeviceIO = false) (h : Accesses es) (he : e.IsAccess) (hc : e.failCause =
      some c) :
      EventShape (some c) (pre ++ (Event.fbAcquire (.ok ()) :: es ++ [e, Event.fbRelease]))
  | acquireFail (pre c) (hp : ∀ e ∈ pre, e.isDeviceIO = false) : EventShape (some c) (pre ++ [Event.fbAcquire (.fail c)])

/-- Everything the work of a command can do before it completes: it goes well, ends in a validation or image error, ends
    at a request that failed, is stuck at a request that is never answered, or comes to a register without a value. -/
inductive WorkCase (i : Instr) (s : State) {α : Type} (r : Res α) : Prop where
  | ok (a : α) (u : State) (es : List Event) (hp : PortStep s u) (ht : u.trace = s.trace ++ es) (he : EventShape none es)
      (hm : LowBytes s.mem u.mem) (hs : StoresNothing i → u.mem = s.mem) (hr : r = .ok a u)
  | invalid (k : ErrKind) (u : State) (es : List Event) (hp : PortStep s u) (ht : u.trace = s.trace ++ es)
      (hq : ∀ e ∈ es, e.isDeviceIO = false)
      (hk : k ≠ .deviceIOError) (hk' : k ≠ .illegalCommand) (himg : (k = .imageNotFound ∨ k = .imageDecodeError) →
          (∃ src a, es = [Event.imgOpen src a]) ∧ ∃ src r, i = .ldimg src r) (hgr : i ≠ .getraw)
      (hne : k ≠ .imageNotFound → k ≠ .imageDecodeError → (∀ src, i ≠ .ldimg src true) → es = [])
      (hm : u.mem = s.mem) (hr : r = .err k 0 u)
  | fail (c : Word) (u : State) (es : List Event) (hp : PortStep s u) (ht : u.trace = s.trace ++ es)
      (he : EventShape (some c) es)
      (hm : LowBytes s.mem u.mem) (hs : StoresNothing i → u.mem = s.mem) (hn : ¬ s.NoIOFail)
          (hr : r = .err .deviceIOError c u)
  | stall (u : State) (hp : PortStep s u) (hn : ¬ s.NoIOFail) (hr : r = .stall u)
  | unwritten (u : State) (hv : (NeedsRotation i s ∧ s.rot = none) ∨ (NeedsCycles i ∧ s.cycles = none))
      (hr : r = .unwritten u)

theorem not_noFail_fb {s : State} {k : Nat} {a : PortAnswer} (h : s.fbAnswer k = a) (ha : a ≠ .ok) : ¬ s.NoIOFail := by
  intro hn
  apply ha
  rw [← h]
  unfold State.fbAnswer
  rw [List.getD_eq_getElem?_getD]
  cases hk : s.ports.fb[k]? with
  | none => rfl
  | some b => exact hn.1 b (List.mem_of_getElem? hk)

theorem not_noFail_bus {s : State} {k : Nat} {a : PortAnswer} (h : s.busAnswer k = a) (ha : a ≠ .ok) : ¬ s.NoIOFail := by
  intro hn
  apply ha
  rw [← h]
  unfold State.busAnswer
  split
  · rfl
  rw [List.getD_eq_getElem?_getD]
  cases hk : s.ports.bus[k]? with
  | none => rfl
  | some b => exact hn.2 b (List.mem_of_getElem? hk)

/-- The framebuffer part of a command, after image events alone. -/
theorem FbCase.work {stores : Bool} {i : Instr} {s u : State} {α : Type} {r : Res α} {pre : List Event}
    (h : FbCase stores u r)
    (hp : PortStep s u) (hm : u.mem = s.mem) (ht : u.trace = s.trace ++ pre) (hpre : ∀ e ∈ pre, e.isDeviceIO = false)
    (hpre' : (∀ src, i ≠ .ldimg src true) → pre = []) (hst : stores = true → ¬ StoresNothing i) (hnr : NeedsRotation i s
        ∨ u.rot ≠ none) (hfb : u.ports.fb = s.ports.fb) (hgr : i ≠ .getraw := by simp) : WorkCase i s r := by
  have hfba : ∀ k, u.fbAnswer k = s.fbAnswer k := fun k => by unfold State.fbAnswer; rw [hfb]
  have hs' : ∀ m : Memory, (stores = false → m = u.mem) → StoresNothing i → m = s.mem := by
    intro m h hsn
    cases stores with
    | false => rw [h rfl, hm]
    | true => exact absurd hsn (hst rfl)
  have hlog : ∀ (m : Memory) (n fc) (es : List Event), PortStep s ({ u with mem := m, freeCount := fc }.fbUsed n es) :=
    fun m n fc es => hp.trans ((portStep_mem u m fc).trans (portStep_fbUsed _ n es))
  cases h with
  | unwritten h hr =>
    exact .unwritten u (.inl ⟨by rcases hnr with h1 | h1; exact h1; exact absurd h h1, by rw [← hp.rot]; exact h⟩) hr
  | invalid k hk hr =>
    refine .invalid k u pre hp ht hpre ?_ ?_ ?_ hgr (fun _ _ => hpre') hm hr <;> rcases hk with rfl | rfl | rfl <;> simp
  | acquireFail c h hr =>
    refine .fail c (u.fbUsed 1 [Event.fbAcquire (.fail c)]) (pre ++ [Event.fbAcquire (.fail c)])
      (hp.trans (portStep_fbUsed _ _ _)) (by simp [State.fbUsed, ht]) (.acquireFail pre c hpre) ?_ (fun _ => hm)
      (not_noFail_fb ((hfba 0).symm.trans h) (by simp)) hr
    rw [show (u.fbUsed 1 [Event.fbAcquire (.fail c)]).mem = u.mem from rfl, hm]
    exact LowBytes.refl _
  | ok a n m es ha hm' hs hr =>
    exact .ok a _ _ (hlog m n u.freeCount _) (by simp only [State.fbUsed, ht, List.append_assoc]) (.fb pre es hpre ha)
        (by rw [hm] at hm'; exact hm') (hs' m hs) hr
  | fail n m fc es e c ha he hc hm' hs hn hr =>
    obtain ⟨k, hk⟩ := hn
    exact .fail c _ _ (hlog m n fc _) (by simp only [State.fbUsed, ht, List.append_assoc]) (.fbFail pre es e c hpre ha he
        hc) (by rw [hm] at hm'; exact hm') (hs' m hs) (not_noFail_fb ((hfba k).symm.trans hk) (by simp)) hr
  | stall n m es hm' hs hn hr =>
    obtain ⟨k, hk⟩ := hn
    exact .stall _ (hlog m n u.freeCount _) (not_noFail_fb ((hfba k).symm.trans hk) (by simp)) hr

/-- The framebuffer part of a command, with nothing before it. -/
theorem FbCase.work0 {stores : Bool} {i : Instr} {s : State} {α : Type} {r : Res α} (h : FbCase stores s r)
    (hst : stores = true → ¬ StoresNothing i) (hnr : NeedsRotation i s) (hgr : i ≠ .getraw := by simp) : WorkCase i s r :=
  h.work (pre := []) (PortStep.refl s) rfl (by simp) (by simp) (fun _ => rfl) hst (.inl hnr) rfl hgr

theorem work_pure (i : Instr) (s : State) {α : Type} (a : α) : WorkCase i s (.ok a s) :=
  .ok a s [] (PortStep.refl s) (by simp) (.quiet [] (by simp)) (LowBytes.refl _) (fun _ => rfl) rfl

theorem work_invalid (i : Instr) (s : State) {α : Type} (k : ErrKind) (h : k ∉ [ErrKind.deviceIOError, .illegalCommand,
    .imageNotFound, .imageDecodeError]) (hgr : i ≠ .getraw := by simp) : WorkCase i s (.err k 0 s : Res α) := by
  simp only [List.mem_cons, List.not_mem_nil, or_false, not_or] at h
  exact .invalid k s [] (PortStep.refl s) (by simp) (by simp) h.1 h.2.1
    (fun h' => h'.elim (fun e => absurd e h.2.2.1) fun e => absurd e h.2.2.2) hgr (fun _ _ _ => rfl) rfl rfl

/-- The result registers a command's rule names (10_state.md R28, R29). -/
def named : Instr → Results
  | .pack _ | .unpack _ | .getpixel _ _ | .maxraw => .d0
  | .mapxy _ _ => .d0d1
  | .torgb _ _ _ _ => .d0d1d2
  | .getraw => .d0d1d2d3
  | .getpixels | .ldimg _ _ => .pbuf
  | .setrot _ | .setpixel _ _ _ | .setpixels _ | .clear _ | .setgain _ | .setinteg _ | .enable _ => .nothing

/-- `v` differs from `u` only in the result registers that `i` names and in the register that `i` sets. -/
structure Written (i : Instr) (u v : State) : Prop where
  errLog : v.errLog = u.errLog
  cp : v.cp = u.cp
  words : v.words = u.words
  cfg : v.cfg = u.cfg
  omap : v.omap = u.omap
  mem : v.mem = u.mem
  ports : v.ports = u.ports
  freeCount : v.freeCount = u.freeCount
  trace : v.trace = u.trace ∨ ∃ us, v.trace = u.trace ++ [Event.delay us] ∧ ∃ c, i = .setinteg c
  rot : (∀ d, i ≠ .setrot d) → v.rot = u.rot
  rot' : u.rot.isSome → v.rot.isSome
  gain : (∀ d, i ≠ .setgain d) → v.gain = u.gain
  cycles : (∀ d, i ≠ .setinteg d) → v.cycles = u.cycles ∧ v.timing = u.timing
  d0 : named i ∈ [Results.nothing, .pbuf] → v.d0 = u.d0
  d1 : named i ∈ [Results.nothing, .pbuf, .d0] → v.d1 = u.d1
  d2 : named i ∈ [Results.nothing, .pbuf, .d0, .d0d1] → v.d2 = u.d2
  d3 : named i ∈ [Results.nothing, .pbuf, .d0, .d0d1, .d0d1d2] → v.d3 = u.d3
  pbuf : named i ≠ .pbuf → v.pbuf = u.pbuf

theorem work_busWrite (i : Instr) (reg b : Byte) (s : State) : WorkCase i s (busWrite reg b s) := by
  cases h : s.busAnswer 0 with
  | ok =>
    exact .ok _ _ _ (portStep_busUsed _ _ _) rfl (.bus _ (by simp [Event.Harmless, Event.failCause, Event.offset]))
        (LowBytes.refl _) (fun _ => rfl) (busWrite_ok reg b h)
  | fail c =>
    exact .fail c _ _ (portStep_busUsed _ _ _) rfl (.busFail [] _ c (by simp) rfl rfl) (LowBytes.refl _) (fun _ => rfl)
        (not_noFail_bus h (by simp)) (busWrite_fail reg b h)
  | stall => exact .stall _ (portStep_busUsed _ _ _) (not_noFail_bus h (by simp)) (busWrite_stall reg b h)

/-- Everything a sequence of bus requests can do. -/
inductive BusCase (s : State) {α : Type} (r : Res α) : Prop where
  | ok (a : α) (u : State) (es) (hp : PortStep s u) (hm : u.mem = s.mem) (ht : u.trace = s.trace ++ es)
      (h : ∀ e ∈ es, e.Harmless) (hb : s.NoIOFail → u.NoIOFail) (hr : r = .ok a u)
  | fail (c) (u : State) (es e) (hp : PortStep s u) (hm : u.mem = s.mem) (ht : u.trace = s.trace ++ (es ++ [e]))
      (h : ∀ e ∈ es, e.Harmless) (he : e.offset = none) (hc : e.failCause = some c) (hn : ¬ s.NoIOFail)
      (hr : r = .err .deviceIOError c u)
  | stall (u : State) (hp : PortStep s u) (hn : ¬ s.NoIOFail) (hr : r = .stall u)

theorem noFail_busUsed (s : State) (n es) : s.NoIOFail → (s.busUsed n es).NoIOFail := by
  rintro ⟨h1, h2⟩
  unfold State.busUsed State.NoIOFail
  cases s.cfg.backend
  · exact ⟨h1, fun a ha => h2 a (List.mem_of_mem_drop ha)⟩
  · exact ⟨h1, h2⟩

theorem noFail_congr {s t : State} (h1 : t.ports.fb = s.ports.fb) (h2 : t.ports.bus = s.ports.bus) : s.NoIOFail →
    t.NoIOFail := by
  unfold State.NoIOFail; rw [h1, h2]; exact id

theorem busCase_write (reg b : Byte) (s : State) : BusCase s (busWrite reg b s) := by
  cases h : s.busAnswer 0 with
  | ok =>
    exact .ok _ _ _ (portStep_busUsed _ _ _) rfl rfl (by simp [Event.Harmless, Event.failCause, Event.offset])
        (noFail_busUsed s _ _) (busWrite_ok reg b h)
  | fail c =>
    exact .fail c _ [] _ (portStep_busUsed _ _ _) rfl rfl (by simp) rfl rfl (not_noFail_bus h (by simp))
        (busWrite_fail reg b h)
  | stall => exact .stall _ (portStep_busUsed _ _ _) (not_noFail_bus h (by simp)) (busWrite_stall reg b h)

theorem busCase_read (reg : Byte) (s : State) : BusCase s (busRead16 reg s) := by
  cases h : s.busAnswer 0 with
  | ok =>
    refine .ok _ _ [Event.busRead16 s.cfg.sensorAddr reg (.ok ((s.busUsed 1 []).nextData reg).1)]
        (((portStep_busUsed s 1 []).trans (portStep_nextData _ reg)).trans (portStep_log _ _)) ?_ ?_
        (by simp [Event.Harmless, Event.failCause, Event.offset]) ?_ (busRead16_ok reg h)
    · exact (nextData_ports (s.busUsed 1 []) reg).2.2
    · simp [State.log, State.busUsed]
    · intro hn
      exact noFail_congr (s := s.busUsed 1 []) (nextData_ports (s.busUsed 1 []) reg).1 (nextData_ports (s.busUsed 1 [])
          reg).2.1 (noFail_busUsed s 1 [] hn)
  | fail c =>
    exact .fail c _ [] _ (portStep_busUsed _ _ _) rfl rfl (by simp) rfl rfl (not_noFail_bus h (by simp))
        (busRead16_fail reg h)
  | stall => exact .stall _ (portStep_busUsed _ _ _) (not_noFail_bus h (by simp)) (busRead16_stall reg h)

theorem busCase_pure {α} (a : α) (s : State) : BusCase s (.ok a s) := .ok a s [] (PortStep.refl s) rfl (by simp)
    (by simp) id rfl

theorem busCase_delay (us) (s : State) : BusCase s (.ok () (delay us s)) :=
  .ok () _ [Event.delay us] (portStep_log _ _) rfl rfl (by simp [Event.Harmless, Event.failCause, Event.offset])
      (fun h => h) rfl

theorem BusCase.bind {s : State} {α β} {r : Res α} {f : α → State → Res β} (h : BusCase s r) (hf : ∀ a t, BusCase t
    (f a t)) : BusCase s (r.bind f) := by
  cases h with
  | fail c u es e hp hm ht h he hc hn hr => subst hr; exact .fail c u es e hp hm ht h he hc hn rfl
  | stall u hp hn hr => subst hr; exact .stall u hp hn rfl
  | ok a u es hp hm ht h hb hr =>
    subst hr
    cases hf a u with
    | fail c u' es' e hp' hm' ht' h' he hc hn hr =>
      refine .fail c u' (es ++ es') e (hp.trans hp') (hm'.trans hm) (by rw [ht', ht]; simp) ?_ he hc (fun h => hn (hb h)) hr
      intro x hx; rcases List.mem_append.1 hx with h1 | h1
      · exact h x h1
      · exact h' x h1
    | stall u' hp' hn hr => exact .stall u' (hp.trans hp') (fun h => hn (hb h)) hr
    | ok b u' es' hp' hm' ht' h' hb' hr =>
      refine .ok b u' (es ++ es') (hp.trans hp') (hm'.trans hm) (by rw [ht', ht]; simp) ?_ (fun h => hb' (hb h)) hr
      intro x hx; rcases List.mem_append.1 hx with h1 | h1
      · exact h x h1
      · exact h' x h1

theorem BusCase.work {i : Instr} {s : State} {α} {r : Res α} (h : BusCase s r) : WorkCase i s r := by
  cases h with
  | fail c u es e hp hm ht h he hc hn hr =>
    exact .fail c u _ hp ht (.busFail es e c h he hc) (by rw [hm]; exact LowBytes.refl _) (fun _ => hm) hn hr
  | stall u hp hn hr => exact .stall u hp hn hr
  | ok a u es hp hm ht h hb hr => exact .ok a u es hp ht (.bus es h) (by rw [hm]; exact LowBytes.refl _) (fun _ => hm) hr

/-- Every command is a piece of work and its completion. -/
theorem exec_work (i : Instr) (s : State) : ∃ (α : Type) (r : Res α) (w : α → State → State),
    exec i s = r.finish i.words (named i) w ∧ WorkCase i s r ∧ ∀ a u, r = .ok a u → Written i u (w a u) := by
  cases i with
  | pack c =>
    exact ⟨Unit, .ok () s, fun _ u => { u with d0 := some ((pack c).setWidth 32) }, rfl, work_pure _ _ _,
      fun _ u _ => by constructor <;> simp [named]⟩
  | unpack c =>
    exact ⟨Unit, .ok () s, fun _ u => { u with d0 := some ((rgb24 (unpack c)).setWidth 32) }, rfl, work_pure _ _ _,
      fun _ u _ => by constructor <;> simp [named]⟩
  | setrot c => exact ⟨Unit, .ok () s, fun _ u => { u with rot := some c }, rfl, work_pure _ _ _,
      fun _ u _ => by constructor <;> simp [named]⟩
  | mapxy x y =>
    refine ⟨_, address x y s, _, rfl, ?_, fun a u _ => by constructor <;> simp [named]⟩
    rcases address_cases x y s with ⟨_, P, h⟩ | ⟨k, hk, h⟩ | ⟨hg, hr, h⟩
    · rw [h]
      exact work_pure _ _ _
    · rw [h]
      exact work_invalid _ _ _ (by rcases hk with rfl | rfl <;> simp)
    · rw [h]
      exact .unwritten s (.inl ⟨hg, hr⟩) rfl
  | getpixel x y =>
    refine ⟨_, (address x y s).bind fun p t => withFb (memRead (byteOffset p)) t, _, rfl, ?_, fun a u _ => by constructor
        <;> simp [named]⟩
    by_cases hg : OnGrid x y
    · exact (fbCase_address (stores := false) (fun p s => fbCase_withFb (accessCase_memRead _ (byteOffset_bound p).1
        (byteOffset_bound p).2) s) s).work0 (by simp) hg
    · rw [address_offGrid hg]; exact work_invalid _ _ _ (by simp)
  | setpixel x y c =>
    refine ⟨_, (address x y s).bind fun p t => withFb (memWrite (byteOffset p) (pack c)) t, _, rfl, ?_, fun a u _ => by
        constructor <;> simp [named]⟩
    by_cases hg : OnGrid x y
    · exact (fbCase_address (stores := true) (fun p s => fbCase_withFb (accessCase_memWrite _ _ (byteOffset_bound p).1
        (byteOffset_bound p).2) s) s).work0 (by simp [StoresNothing]) hg
    · rw [address_offGrid hg]; exact work_invalid _ _ _ (by simp)
  | setpixels cs =>
    refine ⟨_, if cs.length = 64 then writeFrame cs s else .err .invalidLength 0 s, _, rfl, ?_, fun a u _ => by
        constructor <;> simp [named]⟩
    by_cases h : cs.length = 64
    · rw [if_pos h]; exact (fbCase_writeFrame cs s).work0 (by simp [StoresNothing]) h
    · rw [if_neg h]; exact work_invalid _ _ _ (by simp)
  | getpixels =>
    refine ⟨_, (selectTable s).bind fun tbl t => withFb (readCells (frameOffsets tbl)) t, _, rfl, ?_, fun a u _ => by
        constructor <;> simp [named, State.setPixels]⟩
    exact (fbCase_select (stores := false) (fun p s => fbCase_withFb (accessCase_readCells _ fun off h =>
        frameOffsets_even h) s) s).work0 (by simp) trivial
  | clear c =>
    refine ⟨_, writeFrame (List.replicate 64 c) s, _, rfl, ?_, fun a u _ => by constructor <;> simp [named]⟩
    exact (fbCase_writeFrame _ s).work0 (by simp [StoresNothing]) trivial
  | ldimg src redraw =>
    have bad : ∀ (k : ErrKind) (a : ImgAnswer), k = .imageNotFound ∨ k = .imageDecodeError →
        imgOpen src s = .err k 0 (s.opened src a) →
        ∀ {β} (f : Unit → State → Res β), WorkCase (.ldimg src redraw) s ((imgOpen src s).bind f) := by
      intro k a hk he β f
      rw [he, bind_err]
      refine .invalid k (s.opened src a) [Event.imgOpen src a] ?_ rfl (by simp [Event.isDeviceIO]) ?_ ?_
        (fun _ => ⟨⟨src, a, rfl⟩, ⟨src, redraw, rfl⟩⟩) (by simp) ?_ rfl rfl
      · constructor <;> first | rfl | exact ⟨_, rfl⟩
      · rcases hk with rfl | rfl <;> simp
      · rcases hk with rfl | rfl <;> simp
      · intro h1 h2
        rcases hk with rfl | rfl
        · exact absurd rfl h1
        · exact absurd rfl h2
    cases hi : s.imgAnswer with
    | notFound =>
      exact ⟨_, _, _, rfl, bad _ _ (.inl rfl) (imgOpen_notFound src hi) _, fun a u _ => by constructor <;> simp
          [named, State.setPixels]⟩
    | decodeError =>
      exact ⟨_, _, _, rfl, bad _ _ (.inr rfl) (imgOpen_decodeError src hi) _, fun a u _ => by constructor <;> simp
          [named, State.setPixels]⟩
    | ok =>
      obtain ⟨v, fc, t, ht, -, he⟩ := execLdimg_sampled src redraw hi
      refine ⟨_, _, _, he, ?_, fun a u _ => by constructor <;> simp [named, State.setPixels]⟩
      have hp : PortStep s t := by subst ht; constructor <;> first | rfl | exact ⟨_, rfl⟩
      have hm : t.mem = s.mem := by subst ht; rfl
      have hfb : t.ports.fb = s.ports.fb := by subst ht; rfl
      have hq := sampleEvents_quiet src v
      have htr : t.trace = s.trace ++ imageEvents src v := by subst ht; rfl
      cases redraw with
      | false =>
        rw [if_neg (by simp)]
        refine .ok _ t _ hp htr (.quiet _ hq) ?_ (fun _ => hm) rfl
        rw [hm]
        exact LowBytes.refl _
      | true =>
        rw [if_pos rfl]
        have hb : ∀ {α β : Type} {r : Res α} (f : α → β), WorkCase (.ldimg src true) s r → WorkCase (.ldimg src true) s
            (r.bind fun a u => .ok (f a) u) := by
          intro α β r f h
          cases h with
          | ok a u es hp ht he hm hs hr => subst hr; exact .ok _ u es hp ht he hm hs rfl
          | invalid k u es hp ht hq hk hk' himg hgr hne hm hr =>
            subst hr
            exact .invalid k u es hp ht hq hk hk' himg hgr hne hm rfl
          | fail c u es hp ht he hm hs hn hr => subst hr; exact .fail c u es hp ht he hm hs hn rfl
          | stall u hp hn hr => subst hr; exact .stall u hp hn rfl
          | unwritten u hv hr => subst hr; exact .unwritten u hv rfl
        exact hb (fun _ => v.toList.map sampleColour) ((fbCase_writeFrame (v.toList.map sampleColour) t).work hp hm htr
            hq (fun h => absurd rfl (h src)) (by simp [StoresNothing]) (.inl ⟨rfl, hi⟩) hfb)
  | setgain l =>
    refine ⟨_, _, _, rfl, ?_, fun a u _ => by constructor <;> simp [named]⟩
    cases codeOfGain s.cfg.gainTable l.toInt with
    | none => exact work_invalid _ _ _ (by simp)
    | some code => exact work_busWrite _ _ _ _
  | setinteg c =>
    refine ⟨_, _, _, rfl, ?_, fun a u _ => by constructor <;> simp [named, delay, State.log]⟩
    split
    · exact work_busWrite _ _ _ _
    · exact work_invalid _ _ _ (by simp)
  | enable on =>
    refine ⟨_, _, _, rfl, ?_, fun a u _ => by constructor <;> simp [named]⟩
    split
    · have := ((busCase_write regEnable s.cfg.enPon s).bind fun (_ : Unit) t => (busCase_delay t.cfg.settlePonUs t).bind
        fun (_ : Unit) u => busCase_write regEnable (u.cfg.enPon ||| u.cfg.enAen) u).work (i := .enable on)
      exact this
    · exact work_busWrite _ _ _ _
  | getraw =>
    refine ⟨_, _, _, rfl, ?_, fun a u _ => by constructor <;> simp [named]⟩
    exact ((busCase_read _ s).bind fun c t => (busCase_read _ t).bind fun r t => (busCase_read _ t).bind fun g t =>
        (busCase_read _ t).bind fun b t => busCase_pure _ t).work
  | maxraw =>
    refine ⟨_, readCycles s, _, rfl, ?_, fun a u _ => by constructor <;> simp [named]⟩
    unfold readCycles
    cases h : s.cycles with
    | none => exact .unwritten s (.inr ⟨trivial, h⟩) rfl
    | some c => exact work_pure _ _ _
  | torgb r g b c =>
    refine ⟨_, (readCycles s).bind fun c t => if scalingOf t.cfg c = 0 then .err .sensorRangeError 0 t else .ok
        (scalingOf t.cfg c) t,
      fun k t => { t with d0 := some (scaled r k), d1 := some (scaled g k), d2 := some (scaled b k) }, ?_, ?_, fun a u _
          => by constructor <;> simp [named]⟩
    · rfl
    · unfold readCycles
      cases h : s.cycles with
      | none => exact .unwritten s (.inr ⟨trivial, h⟩) rfl
      | some c =>
        simp only [bind_ok]
        split
        · exact work_invalid _ _ _ (by simp)
        · exact work_pure _ _ _

/-- Everything a command that answers a next state did. -/
inductive NextCase (i : Instr) (s t : State) : Prop where
  | ok (u v : State) (es : List Event) (hp : PortStep s u) (htr : u.trace = s.trace ++ es) (he : EventShape none es)
      (hm : LowBytes s.mem u.mem) (hs : StoresNothing i → u.mem = s.mem) (hw : Written i u v) (ht : t = v.succeeded i.words)
  | invalid (k : ErrKind) (u : State) (es : List Event) (hp : PortStep s u) (htr : u.trace = s.trace ++ es)
      (hq : ∀ e ∈ es, e.isDeviceIO = false)
      (hk : k ≠ .deviceIOError) (hk' : k ≠ .illegalCommand) (himg : (k = .imageNotFound ∨ k = .imageDecodeError) →
          (∃ src a, es = [Event.imgOpen src a]) ∧ ∃ src r, i = .ldimg src r) (hgr : i ≠ .getraw)
      (hne : k ≠ .imageNotFound → k ≠ .imageDecodeError → (∀ src, i ≠ .ldimg src true) → es = [])
      (hm : u.mem = s.mem) (ht : t = (u.dropResults (named i)).errored k.code.toNat 0 i.words)
  | fail (c : Word) (u : State) (es : List Event) (hp : PortStep s u) (htr : u.trace = s.trace ++ es)
      (he : EventShape (some c) es)
      (hm : LowBytes s.mem u.mem) (hs : StoresNothing i → u.mem = s.mem) (hn : ¬ s.NoIOFail)
          (ht : t = (u.dropResults (named i)).errored 4 c i.words)

/-- The inversion lemma of the commands. -/
theorem exec_next {i : Instr} {s t : State} (h : exec i s = .next t) : NextCase i s t := by
  obtain ⟨α, r, w, hex, hw, hwr⟩ := exec_work i s
  rw [hex] at h
  cases hw with
  | ok a u es hp htr he hm hs hr =>
    subst hr
    rw [finish_ok] at h
    cases h
    exact .ok u _ es hp htr he hm hs (hwr a u rfl) rfl
  | invalid k u es hp htr hq hk hk' himg hgr hne hm hr =>
    subst hr
    rw [finish_err, if_neg hk] at h
    cases h
    exact .invalid k u es hp htr hq hk hk' himg hgr hne hm rfl
  | fail c u es hp htr he hm hs hn hr =>
    subst hr
    rw [finish_err, if_pos rfl] at h
    cases h
    exact .fail c u es hp htr he hm hs hn rfl
  | stall u hp hn hr => subst hr; cases h
  | unwritten u hv hr => subst hr; cases h

/-- A command that is stuck on a port. -/
theorem exec_stuck {i : Instr} {s l : State} (h : exec i s = .fault (.stuckPort l)) : PortStep s l ∧ ¬ s.NoIOFail := by
  obtain ⟨α, r, w, hex, hw, hwr⟩ := exec_work i s
  rw [hex] at h
  cases hw with
  | ok a u es hp htr he hm hs hr => subst hr; cases h
  | invalid k u es hp htr hq hk hk' himg hgr hne hm hr => subst hr; cases h
  | fail c u es hp htr he hm hs hn hr => subst hr; cases h
  | stall u hp hn hr => subst hr; cases h; exact ⟨hp, hn⟩
  | unwritten u hv hr => subst hr; cases h

/-- A command at a read of a register that holds no value. -/
theorem exec_unwritten {i : Instr} {s l : State} (h : exec i s = .fault (.unwrittenState l)) : (NeedsRotation i s ∧ s.rot
    = none) ∨ (NeedsCycles i ∧ s.cycles = none) := by
  obtain ⟨α, r, w, hex, hw, hwr⟩ := exec_work i s
  rw [hex] at h
  cases hw with
  | ok a u es hp htr he hm hs hr => subst hr; cases h
  | invalid k u es hp htr hq hk hk' himg hgr hne hm hr => subst hr; cases h
  | fail c u es hp htr he hm hs hn hr => subst hr; cases h
  | stall u hp hn hr => subst hr; cases h
  | unwritten u hv hr => exact hv

end Sys2Proof.Machine
end

