-- ==== Sys2Proof/Laws/HostPort.lean ====
section
/-! SUPPORT. The read port (10_state.md R32): its two readings agree wherever a register holds a value. -/

namespace Sys2Proof.Machine

theorem regRead_of_content {s : State} {rn : Nat} {v : Word} (h : regContent s rn = some v) (k : Nat) :
    regRead k s rn = v := by
  rw [regRead, h, Option.getD_some]

theorem regRead_of_none {s : State} {rn : Nat} (h : regContent s rn = none) (k : Nat) :
    regRead k s rn = Config.freeRead k rn := by
  rw [regRead, h, Option.getD_none]

theorem regReadOrFault_ok {s : State} {rn : Nat} {v : Word} : regReadOrFault s rn = .ok v ↔ regContent s rn = some v := by
  unfold regReadOrFault
  cases regContent s rn <;> simp

/-- The model's reading faults with UnwrittenState and nothing else, exactly where the register holds `none`. -/
theorem regReadOrFault_error {s : State} {rn : Nat} {f : Fault} :
    regReadOrFault s rn = .error f ↔ regContent s rn = none ∧ f = .unwrittenState s := by
  unfold regReadOrFault
  cases regContent s rn <;> simp [eq_comm]

end Sys2Proof.Machine
end

