-- ==== Sys2Proof/Laws/PerInstr.lean ====
section
/-! SUPPORT. Statements made per command. `EncodedHead`: the words of a well-formed command are a head word that matches the
command's own row of the opcode map, and as many payload words as that head word announces (R84, R85, R90). -/

namespace Sys2Proof.Laws.EncodedHead

/-- The statement for one command. -/
def Statement (i : Instr) : Prop :=
  i.wellFormed = true → ∃ w ps r, encode i = w :: ps ∧ findRow w = some r ∧ r.op = i.op ∧
    payloadLength r.format w = ps.length ∧ (encode i).length = i.words

theorem pack (c : RGB) : Statement (.pack c) := fun _ =>
  ⟨_, _, ⟨.pack, .c, 0x01000000, 0xFF000000⟩, rfl,
    findRow_of_matches (by decide) (matches_intro (mask_top_byte _ _ _ _) (by decide)), rfl, rfl, rfl⟩

theorem unpack (v : Half) : Statement (.unpack v) := fun _ =>
  ⟨_, _, ⟨.unpack, .h, 0x02000000, 0xFFFF0000⟩, rfl,
    findRow_of_matches (by decide) (matches_intro (mask_top_half _ _) (by decide)), rfl, rfl, rfl⟩

theorem setrot (deg : Half) : Statement (.setrot deg) := fun _ =>
  ⟨_, _, ⟨.setrot, .h, 0x10000000, 0xFFFF0000⟩, rfl,
    findRow_of_matches (by decide) (matches_intro (mask_top_half _ _) (by decide)), rfl, rfl, rfl⟩

theorem mapxy (x y : Byte) : Statement (.mapxy x y) := fun _ =>
  ⟨_, _, ⟨.mapxy, .xy, 0x11000000, 0xFFFF0000⟩, rfl,
    findRow_of_matches (by decide) (matches_intro (mask_top_half_xy _ _ _) (by decide)), rfl, rfl, rfl⟩

theorem getpixel (x y : Byte) : Statement (.getpixel x y) := fun _ =>
  ⟨_, _, ⟨.getpixel, .xy, 0x20000000, 0xFFFF0000⟩, rfl,
    findRow_of_matches (by decide) (matches_intro (mask_top_half_xy _ _ _) (by decide)), rfl, rfl, rfl⟩

theorem setpixel (x y : Byte) (c : RGB) : Statement (.setpixel x y c) := fun _ =>
  ⟨_, _, ⟨.setpixel, .xyc, 0x21000000, 0xFFFF0000⟩, rfl,
    findRow_of_matches (by decide) (matches_intro (mask_top_half_xy _ _ _) (by decide)), rfl, rfl, rfl⟩

theorem setpixels (cs : List RGB) : Statement (.setpixels cs) := fun hwf =>
  ⟨_, _, ⟨.setpixels, .l, 0x22000000, 0xFFFF0000⟩, rfl,
    findRow_of_matches (by decide) (matches_intro (mask_top_half _ _) (by decide)), rfl,
    by
      have : cs.length ≤ 65535 := by simpa [Instr.wellFormed] using hwf
      simp only [payloadLength, loHalf_halves, BitVec.toNat_ofNat, List.length_map]
      omega,
    by simp [encode, Instr.words]; omega⟩

theorem getpixels : Statement .getpixels := fun _ =>
  ⟨_, _, ⟨.getpixels, .z, 0x23000000, 0xFFFFFFFF⟩, rfl, rfl, rfl, rfl, rfl⟩

theorem clear (c : RGB) : Statement (.clear c) := fun _ =>
  ⟨_, _, ⟨.clear, .c, 0x24000000, 0xFF000000⟩, rfl,
    findRow_of_matches (by decide) (matches_intro (mask_top_byte _ _ _ _) (by decide)), rfl, rfl, rfl⟩

theorem ldimg (src : Half) (redraw : Bool) : Statement (.ldimg src redraw) := fun _ =>
  ⟨_, _, ⟨.ldimg, .f, 0x25000000, 0xFFFE0000⟩, rfl,
    findRow_of_matches (by decide) (matches_intro (mask_flag _ _ _) (by decide)), rfl, rfl, rfl⟩

theorem setgain (level : Half) : Statement (.setgain level) := fun _ =>
  ⟨_, _, ⟨.setgain, .h, 0x30000000, 0xFFFF0000⟩, rfl,
    findRow_of_matches (by decide) (matches_intro (mask_top_half _ _) (by decide)), rfl, rfl, rfl⟩

theorem setinteg (cycles : Half) : Statement (.setinteg cycles) := fun _ =>
  ⟨_, _, ⟨.setinteg, .h, 0x31000000, 0xFFFF0000⟩, rfl,
    findRow_of_matches (by decide) (matches_intro (mask_top_half _ _) (by decide)), rfl, rfl, rfl⟩

theorem enable (on : Bool) : Statement (.enable on) := fun _ =>
  ⟨_, _, ⟨.enable, .b, 0x32000000, 0xFFFFFFFE⟩, rfl,
    findRow_of_matches (by decide) (matches_intro (mask_on _ _) (by decide)), rfl, rfl, rfl⟩

theorem getraw : Statement .getraw := fun _ =>
  ⟨_, _, ⟨.getraw, .z, 0x33000000, 0xFFFFFFFF⟩, rfl, rfl, rfl, rfl, rfl⟩

theorem maxraw : Statement .maxraw := fun _ =>
  ⟨_, _, ⟨.maxraw, .z, 0x34000000, 0xFFFFFFFF⟩, rfl, rfl, rfl, rfl, rfl⟩

theorem torgb (red green blue clear : Half) : Statement (.torgb red green blue clear) := fun _ =>
  ⟨_, _, ⟨.torgb, .t, 0x35000000, 0xFFFFFFFF⟩, rfl, rfl, rfl, rfl, rfl⟩

end Sys2Proof.Laws.EncodedHead
end

