-- ==== Sys2Proof/Tests/Slice0.lean ====
section
/-! SUPPORT. Tests against the worked vectors of 95_test_vectors.md (V1 to V13, P6, P7), the ill-formed term that WellFormed
refuses, and, for every obligation that has hypotheses, a witness that meets them. Expected values are the spec's. -/

namespace Sys2Proof.Tests
open Sys2Proof.Machine

/-! ### Small states -/

/-- A concrete configuration: the defaults of R8, with `MAX_RAW(c) = 256*c` (P3) and some device address. -/
def cfg : Config := { Config.standard with
  sensorAddr := 0x11, maxRaw := Vector.ofFn fun i => BitVec.ofNat 32 (256 * (i.val + 1)) }

/-- The same with a constant `MAX_RAW` (V11). -/
def cfgMax (m : Word) : Config := { cfg with maxRaw := Vector.replicate 256 m }

/-- The state of R36 with a rotation. -/
def blank (rot : Option Half) : State := { State.resetWithoutValues with rot := rot, cfg := cfg }

/-- `s` with the framebuffer port's answers. -/
def onFb (s : State) (fb : List PortAnswer) : State := { s with ports := { s.ports with fb := fb } }

/-- `s` with the bus answers and the data the bus brings. -/
def onBus (s : State) (bus : List PortAnswer) (data : List Half) : State :=
  { s with ports := { s.ports with bus := bus, busData := data } }

/-- `s` with an image source. -/
def onImg (s : State) (a : ImgAnswer) (ps : List Sample) : State :=
  { s with ports := { s.ports with imgOpen := [a], imgSamples := ps } }

/-- The image of V8. -/
def image : List Sample := (List.range 64).map fun i =>
  ⟨BitVec.ofNat 16 (i % 8 * 8192 + 0xFF), BitVec.ofNat 16 (i / 8 * 8192 + 0x1F), 0xFFFF, 0x8000⟩

/-- The fixture of V10 and P3. -/
def fixture (s : State) : State := { s with cfg := { s.cfg with backend := .fixture 0x00FF 0x0080 0x0040 0x0020 } }

/-- `FB` = `1F 00` in every cell (V7): the zero bytes are not listed. -/
def blueMem : Memory := (List.range 64).map fun i => (2 * i, 0x1F)

/-- The 64 colours (i, 0, 0) of P2. -/
def ramp : Vector RGB 64 := Vector.ofFn fun i => ⟨BitVec.ofNat 8 i.val, 0, 0⟩

/-- The next state, if there is one. -/
def nextOf : Out → Option State
  | .next t => some t
  | .fault _ => none
  | .refused _ => none

/-- One step from `s` with the words `ws` offered. -/
def stepOn (s : State) (ws : List Word) : Option State := nextOf (step { s with words := ws })

theorem next_of {α : Type} {o : Out} {f : State → α} {v : α} (h : (nextOf o).map f = some v) :
    ∃ t, o = .next t ∧ f t = v := by
  cases o with
  | next t => exact ⟨t, rfl, by simpa [nextOf] using h⟩
  | fault r => simp [nextOf] at h
  | refused r => simp [nextOf] at h

/-! ### Well-formedness and encoding (V1) -/

theorem wellFormed_setpixels (cs : List RGB) : (Instr.setpixels cs).wellFormed = decide (cs.length ≤ 65535) := rfl

theorem test_illFormed : (Instr.setpixels (List.replicate 65536 ⟨0, 0, 0⟩)).wellFormed = false := by
  rw [wellFormed_setpixels, List.length_replicate]
  exact decide_eq_false (by omega)

theorem test_rows_disjoint : rows.Pairwise fun p q => (p.pattern ^^^ q.pattern) &&& (p.mask &&& q.mask) ≠ 0 := by decide

theorem test_decode_codec :
    decode [0b00000001_11001000_01100100_00110010#32] = .command (.pack ⟨200, 100, 50⟩) ∧
    decode [0b00000010_00000000_11001011_00100110#32] = .command (.unpack 0xCB26) := by decide

theorem test_decode_mapper :
    decode [0b00010000_00000000_00000000_10110100#32] = .command (.setrot 180) ∧
    decode [0b00010001_00000000_00000011_00000001#32] = .command (.mapxy 3 1) := by decide

theorem test_decode_pixels :
    decode [0b00100000_00000000_00000111_00000111#32] = .command (.getpixel 7 7) ∧
    decode [0b00100001_00000000_00000010_00000000#32, 0b00000000_11111111_00000000_00000000#32] =
      .command (.setpixel 2 0 ⟨255, 0, 0⟩) := by decide

theorem test_decode_bulk :
    decode [0b00100010_00000000_00000000_00000010#32, 0x00010203#32, 0x00040506#32] =
      .command (.setpixels [⟨1, 2, 3⟩, ⟨4, 5, 6⟩]) ∧
    decode [0b00100011_00000000_00000000_00000000#32] = .command .getpixels ∧
    decode [0b00100100_00000000_00000000_11111111#32] = .command (.clear ⟨0, 0, 255⟩) ∧
    decode [0b00100101_00000001_00000000_00000111#32] = .command (.ldimg 7 true) := by decide

theorem test_decode_sensor :
    decode [0b00110000_00000000_00000000_00111100#32] = .command (.setgain 60) ∧
    decode [0b00110001_00000000_00000001_00000000#32] = .command (.setinteg 256) ∧
    decode [0b00110010_00000000_00000000_00000001#32] = .command (.enable true) ∧
    decode [0b00110011_00000000_00000000_00000000#32] = .command .getraw ∧
    decode [0b00110100_00000000_00000000_00000000#32] = .command .maxraw ∧
    decode [0b00110101_00000000_00000000_00000000#32, 0x00800040#32, 0x002000FF#32] =
      .command (.torgb 128 64 32 255) := by decide

theorem test_decode_pseudo :
    decode [0x24000000#32] = .command .clearBlack ∧ decode [0x32000000#32] = .command .disable ∧
    decode [0x22000000#32] = .command (.setpixels []) ∧ decode [0x25000007#32] = .command (.ldimg 7 false) := by decide

theorem test_decode_illegal :
    [0x00000000#32, 0xFFFFFFFF#32, 0x03000000#32, 0x12000000#32, 0x26000000#32, 0x36000000#32, 0x02010000#32,
      0x10010000#32, 0x23000001#32, 0x25020000#32, 0x32000002#32, 0x35000001#32].map (fun w => decode [w]) =
      List.replicate 12 (.illegal 1) := by decide

theorem test_decode_bad_colour :
    decode [0x21000000#32, 0x01000000#32, 0x01000000#32] = .illegal 2 ∧
    decode [0x22000002#32, 0x00000000#32, 0xFF000000#32, 0x01000000#32] = .illegal 3 := by decide

theorem test_bytes : bytesOfWords [0x01C86432#32] = [0x32, 0x64, 0xC8, 0x01] := by decide +kernel

theorem test_tableWord : decodeTableWord 32 0x21000200 = some (.setpixel 2 0 ⟨0, 0, 0⟩) := by decide +kernel

theorem test_first_step_after_reset :
    (nextOf (step (State.reset.withFetchWord 32 0x01C86432))).map (·.d0) = some (some 0x0000CB26) := by decide +kernel

/-! ### One step of each command -/

/-- V3. -/
theorem test_pack : (stepOn (blank none) [0x01C86432]).map (·.d0) = some (some 0x0000CB26) := by decide +kernel

/-- V3. -/
theorem test_pack_floor : (stepOn (blank none) [0x011F3F1F]).map (·.d0) = some (some 0x000019E3) := by decide +kernel

/-- V3. -/
theorem test_unpack : (stepOn (blank none) [0x02001234]).map (·.d0) = some (some 0x001045A5) := by decide +kernel

/-- V1, S5: an unsupported rotation is accepted. -/
theorem test_setrot : (stepOn (blank none) [0x1000FFA6]).map (fun t => (t.rot, t.err)) = some (some 0xFFA6, 0) := by
  decide +kernel

/-- V5. -/
theorem test_mapxy : (stepOn (blank (some 90)) [0x11000301]).map (fun t => (t.d0, t.d1)) = some (some 33, some 66) := by
  decide +kernel

/-- V5: the coordinate check comes first. -/
theorem test_mapxy_error :
    (stepOn (blank (some 45)) [0x1100007F]).map (fun t => (t.d0, t.err)) = some (none, 1) := by decide +kernel

/-- V6. -/
theorem test_getpixel :
    (stepOn { blank (some 0) with mem := [(18, 0x26), (19, 0xCB)] } [0x20000101]).map (·.d0) = some (some 0x00CE6531) := by
  decide +kernel

/-- V6, the read fails. -/
theorem test_getpixel_fails :
    (stepOn (onFb (blank (some 0)) [.ok, .fail 0xA2]) [0x20000000]).map (fun t => (t.trace, t.err, t.errCause)) =
      some ([Event.fbAcquire (.ok ()), Event.fbRead 0 (.fail 0xA2), Event.fbRelease], 4, 0xA2) := by decide +kernel

/-- V6. -/
theorem test_setpixel :
    (stepOn (blank (some 90)) [0x21000200, 0x00FF0000]).map (fun t => (t.byteAt 80, t.byteAt 81, t.trace)) =
      some (0x00, 0xF8, [Event.fbAcquire (.ok ()), Event.fbWrite 80 0xF800 (.ok ()), Event.fbRelease]) := by
  decide +kernel

/-- V6, the write fails. -/
theorem test_setpixel_fails :
    (stepOn { onFb (blank (some 0)) [.ok, .fail 0xA3] with mem := [(2, 0x11)] } [0x21000000, 0x00FFFFFF]).map
      (fun t => (t.err, t.errCause, t.trace)) =
      some (4, 0xA3, [Event.fbAcquire (.ok ()), Event.fbWrite 0 0xFFFF (.fail 0xA3), Event.fbRelease]) := by
  decide +kernel

/-- P2: logical cell 63 lies at offset 0 under rotation 180. -/
theorem test_setpixels :
    (nextOf (exec (.setpixels ramp.toList) (blank (some 180)))).map (fun t => (t.cellAt 0, t.cellAt 126, t.cp)) =
      some (0x3800, 0x0000, 65) := by decide +kernel

/-- V7. -/
theorem test_setpixels_length :
    (nextOf (exec (.setpixels (ramp.toList.drop 1)) (blank none))).map (fun t => (t.err, t.cp, t.trace)) =
      some (2, 64, []) := by decide +kernel

/-- V7. -/
theorem test_getpixels :
    (stepOn { blank (some 270) with mem := blueMem } [0x23000000]).map (fun t => (t.pbuf, t.trace.length)) =
      some (Vector.replicate 64 (some 0x0000FF), 66) := by decide +kernel

/-- P6: the acquire fails. -/
theorem test_getpixels_fails :
    (stepOn (onFb (blank (some 0)) [.fail 0xE13]) [0x23000000]).map (fun t => (t.trace, t.errCause)) =
      some ([Event.fbAcquire (.fail 0xE13)], 0xE13) := by decide +kernel

/-- V7: under rotation 90 the first writes go to 112 and 96. -/
theorem test_clear :
    (stepOn (blank (some 90)) [0x240000FF]).map (fun t => (t.mem, t.trace.take 3)) =
      some (blueMem, [Event.fbAcquire (.ok ()), Event.fbWrite 112 0x001F (.ok ()), Event.fbWrite 96 0x001F (.ok ())]) := by
  decide +kernel

/-- V8: `ROT` is not read. -/
theorem test_ldimg :
    (stepOn (onImg (blank none) .ok image) [0x25000009]).map
      (fun t => (t.pbuf.get 7, t.pbuf.get 8, t.mem, t.trace.length)) =
      some (some 0xE000FF, some 0x0020FF, [], 65) := by decide +kernel

/-- V8, rotation 270. -/
theorem test_ldimg_redraw :
    (stepOn (onImg (blank (some 270)) .ok image) [0x25010009]).map (fun t => (t.cellAt 0, t.cellAt 14, t.pbuf.get 63)) =
      some (0x071F, 0x001F, some 0xE0E0FF) := by decide +kernel

/-- V9. -/
theorem test_setgain :
    (stepOn (blank none) [0x3000003C]).map (fun t => (t.gain, t.trace)) =
      some (some 60, [Event.busWrite 0x11 0x8F 0x03 (.ok ())]) := by decide +kernel

/-- V9. -/
theorem test_setgain_error :
    (stepOn (blank none) [0x3000FFFF]).map (fun t => (t.gain, t.err)) = some (none, 5) := by decide +kernel

/-- V9. -/
theorem test_setinteg :
    (stepOn (blank none) [0x31000040]).map (fun t => (t.cycles, t.timing, t.trace)) =
      some (some 64, some 24000, [Event.busWrite 0x11 0x81 0xC0 (.ok ()), Event.delay 24000]) := by decide +kernel

/-- V9. -/
theorem test_setinteg_error :
    (stepOn (blank none) [0x31000101]).map (fun t => (t.cycles, t.err)) = some (none, 6) := by decide +kernel

/-- V9. -/
theorem test_enable :
    (stepOn (blank none) [0x32000001]).map (·.trace) =
      some [Event.busWrite 0x11 0x80 0x01 (.ok ()), Event.delay 2400, Event.busWrite 0x11 0x80 0x03 (.ok ())] := by
  decide +kernel

/-- P7: the second write fails. -/
theorem test_enable_fails :
    (stepOn (onBus (blank none) [.ok, .fail 0xB1] []) [0x32000001]).map (fun t => (t.err, t.errCause, t.trace.length)) =
      some (4, 0xB1, 3) := by decide +kernel

/-- V10. -/
theorem test_getraw :
    (stepOn (fixture (blank none)) [0x33000000]).map (fun t => (t.d0, t.d1, t.d2, t.d3)) =
      some (some 0x80, some 0x40, some 0x20, some 0xFF) := by decide +kernel

/-- P7: the third read fails, the fourth is not issued. -/
theorem test_getraw_fails :
    (stepOn (onBus (blank none) [.ok, .ok, .fail 0xB6] [0x03E8, 0x07D0]) [0x33000000]).map (fun t => (t.d0, t.trace)) =
      some (none, [Event.busRead16 0x11 0x94 (.ok 0x03E8), Event.busRead16 0x11 0x96 (.ok 0x07D0),
        Event.busRead16 0x11 0x98 (.fail 0xB6)]) := by decide +kernel

/-- P3. -/
theorem test_maxraw : (stepOn { blank none with cycles := some 2 } [0x34000000]).map (·.d0) = some (some 512) := by
  decide +kernel

/-- V13. -/
theorem test_maxraw_unwritten : stepOn (blank none) [0x34000000] = none := by decide +kernel

/-- V11: no clamp. -/
theorem test_torgb :
    (stepOn { blank none with cycles := some 1, cfg := cfgMax 512 } [0x35000000, 0x01FF0200, 0x03FF0000]).map
      (fun t => (t.d0, t.d1, t.d2)) = some (some 255, some 256, some 511) := by decide +kernel

/-- V11. -/
theorem test_torgb_error :
    (stepOn { blank none with cycles := some 1, cfg := cfgMax 255 } [0x35000000, 0x00010002, 0x00030004]).map
      (fun t => (t.d0, t.err)) = some (none, 7) := by decide +kernel

/-- V1: an illegal head word. -/
theorem test_illegal :
    (stepOn (blank none) [0x35000001]).map (fun t => (t.err, t.errLog, t.cp, t.trace)) = some (10, 0x0400, 1, []) := by
  decide +kernel

/-- V13: SETPIXEL without its colour word. -/
theorem test_incomplete : stepOn (blank (some 0)) [0x21000000] = none := by decide +kernel

/-- V9, a shared code. -/
theorem test_gainOfCode :
    gainOfCode [(64, 0x03), (1, 0x00), (60, 0x03)] 0x03 = some 60 ∧ gainOfCode [(1, 0x00)] 0x07 = none := by decide

/-! ### Witnesses: for each obligation with hypotheses, states and operands that meet them -/

/-- The port answers ok `n` times and then fails. -/
def failsAfter (n : Nat) (c : Word) : List PortAnswer := List.replicate n .ok ++ [.fail c]

/-- A state that holds a value in every register the invariant speaks of. -/
def live : State :=
  { blank (some 270) with gain := some 60, cycles := some 256, timing := some 24000, mem := [(0, 0x1F), (127, 0xF8)] }

theorem witness_DecodeEncodeAgree : (Instr.setpixels (List.replicate 65535 ⟨1, 2, 3⟩)).wellFormed = true := by
  rw [wellFormed_setpixels, List.length_replicate]
  exact decide_eq_true (by omega)

theorem witness_EncodeDecodeAgree : decode [0x25010007, 0xFFFFFFFF] = .command (.ldimg 7 true) := by decide

theorem witness_IllegalCommandsRaise :
    (0x01000000#32).extractLsb' 24 8 ≠ 0#8 ∧
    ([0x00000000#32, 0xFF000000#32].length = (2#16).toNat ∧
      ∃ c ∈ [0x00000000#32, 0xFF000000#32], c.extractLsb' 24 8 ≠ 0#8) ∧
    decode (({ live with words := [0x01000000, 0x00000000], cp := 1 } : State).words.drop 1) = .illegal 1 := by
  refine ⟨by decide, ⟨rfl, 0xFF000000#32, by decide, by decide⟩, by decide⟩

theorem witness_IncompleteCommandWaits :
    ((Instr.torgb 1 2 3 4).wellFormed = true ∧ 0 < 2 ∧ 2 < (Instr.torgb 1 2 3 4).words ∧
      ({ live with words := [0x35000000, 0x00010002] } : State).words.drop live.cp =
        (encode (.torgb 1 2 3 4)).take 2) ∧
    ((Instr.setpixel 0 0 ⟨1, 2, 3⟩).wellFormed = true ∧ 1 < (Instr.setpixel 0 0 ⟨1, 2, 3⟩).words ∧
      ({ live with words := [0x21000000] } : State).words.drop live.cp =
        (encode (.setpixel 0 0 ⟨1, 2, 3⟩)).take 1) := by decide +kernel

theorem witness_StepRunsDecodedCommand :
    decode (({ live with words := [0x33000000] } : State).words.drop live.cp) = .command .getraw ∧
    live.cp = live.words.length := by decide +kernel

theorem witness_CommandPointerOnlyAdvances :
    (∃ t, exec (.torgb 1 2 3 4) live = .next t ∧ t.cp = 3) ∧
    ∃ t, step { live with words := [0x21000000, 0x00FF0000, 0x34000000] } = .next t ∧ t.words.drop t.cp = [0x34000000] :=
  ⟨next_of (by decide +kernel), next_of (by decide +kernel)⟩

theorem witness_UnpackCommand :
    (0x02010000#32).extractLsb' 24 8 = 0x02#8 ∧ (0x02010000#32).extractLsb' 16 8 ≠ 0#8 := by decide

theorem witness_RotationSelector :
    Unsupported 45 ∧ Unsupported 360 ∧ Unsupported 0xFFA6 ∧ (blank (some 0)).Rotated 0 ∧ (blank (some 90)).Rotated 1 ∧
    (blank (some 180)).Rotated 2 ∧ (blank (some 270)).Rotated 3 ∧ (blank (some 45)).rot = some 45 ∧
    (blank none).rot = none := by decide +kernel

theorem witness_SetrotCommand :
    (blank (some 45)).rot = some 45 ∧ (blank (some 360)).rot = some 360 ∧ (blank (some 0xFFA6)).rot = some 0xFFA6 ∧
    OnGrid 0 0 ∧ NeedsRotation .getpixels (blank (some 360)) ∧
    ∃ t, exec .getpixels (blank (some 360)) = .next t ∧ t.err = 3 :=
  ⟨rfl, rfl, rfl, by decide, trivial, next_of (by decide +kernel)⟩

/-- For MapxyCommand, AddressComputation, GetpixelCommand and SetpixelCommand: each clause at a boundary. -/
theorem witness_coordinates :
    (OnGrid 0 0 ∧ (blank (some 0)).Rotated 0 ∧ (0 : Fin 64).val = (0 : Byte).toNat * 8 + (0 : Byte).toNat) ∧
    (OnGrid 7 7 ∧ (blank (some 270)).Rotated 3 ∧ (63 : Fin 64).val = (7 : Byte).toNat * 8 + (7 : Byte).toNat) ∧
    ¬ OnGrid 8 0 ∧ ¬ OnGrid 0xFF 0 ∧ ¬ OnGrid 0 8 ∧ ¬ OnGrid 0 0x80 ∧
    (OnGrid 7 0 ∧ (blank (some 45)).rot = some 45 ∧ Unsupported 45) ∧ (OnGrid 0 7 ∧ (blank none).rot = none) := by
  decide +kernel

theorem witness_GetpixelCommand :
    ((blank (some 0)).fbAnswer 0 = .ok ∧ (blank (some 0)).fbAnswer 1 = .ok) ∧
    (onFb (blank (some 0)) [.fail 0xA1]).fbAnswer 0 = .fail 0xA1 ∧
    ((onFb (blank (some 0)) [.ok, .fail 0xA2]).fbAnswer 0 = .ok ∧
      (onFb (blank (some 0)) [.ok, .fail 0xA2]).fbAnswer 1 = .fail 0xA2) := by decide +kernel

theorem witness_SetpixelCommand :
    live.mem.wf ∧ live.Rotated 3 ∧ live.fbAnswer 0 = .ok ∧ live.fbAnswer 1 = .ok ∧
    (onFb live [.fail 0xA1]).fbAnswer 0 = .fail 0xA1 ∧ (onFb live [.ok, .fail 0xA3]).fbAnswer 1 = .fail 0xA3 ∧
    (onFb live [.ok, .fail 0xA3]).Rotated 3 := by decide +kernel

theorem witness_SetpixelFrame :
    (∃ t, exec (.setpixel 7 7 ⟨1, 2, 3⟩) live = .next t ∧ t.err = 0) ∧
    (∃ (P : BitVec 6) (u : State), address 7 7 live = .ok P u) ∧
    (∃ t, exec (.setpixel 8 0 ⟨1, 2, 3⟩) live = .next t ∧ t.err = 1) ∧
    ¬ ∃ (P : BitVec 6) (u : State), address 8 0 live = .ok P u := by
  refine ⟨next_of (by decide +kernel), ⟨_, live, address_ok (k := 3) (L := 63) (by decide) rfl rfl⟩,
    next_of (by decide +kernel), ?_⟩
  rw [address_offGrid (by decide)]
  rintro ⟨P, u, h⟩
  cases h

/-- For SetpixelsCommand, ClearCommand, LdimgRedraw and GetpixelsCommand. -/
theorem witness_bulk :
    (ramp.toList.drop 1).length ≠ 64 ∧ ([] : List RGB).length ≠ 64 ∧
    (live.mem.wf ∧ live.OmapOk ∧ live.Rotated 3 ∧ live.imgAnswer = .ok ∧ ∀ n < 65, live.fbAnswer n = .ok) := by
  decide +kernel

theorem witness_BulkCommandsNeedSupportedRotation :
    (blank (some 45)).rot = some 45 ∧ Unsupported 45 ∧ ramp.toList.length = 64 ∧ (blank (some 45)).imgAnswer = .ok := by
  decide +kernel

theorem witness_GetpixelsCommand :
    live.Rotated 3 ∧ (onFb live [.fail 1]).fbAnswer 0 = .fail 1 ∧
    ((∀ m ≤ 0, (onFb live (failsAfter 1 2)).fbAnswer m = .ok) ∧ (onFb live (failsAfter 1 2)).fbAnswer 1 = .fail 2) ∧
    ((∀ m ≤ 63, (onFb live (failsAfter 64 3)).fbAnswer m = .ok) ∧
      (onFb live (failsAfter 64 3)).fbAnswer 64 = .fail 3) := by decide +kernel

theorem witness_LdimgCommand :
    (onImg (blank none) .ok image).imgAnswer = .ok ∧
    (onImg (blank none) .ok image).ports.imgSamples[63]? = some ⟨0xE0FF, 0xE01F, 0xFFFF, 0x8000⟩ := by decide +kernel

theorem witness_LdimgImageErrors :
    (onImg live .notFound []).imgAnswer = .notFound ∧ (onImg live .decodeError []).imgAnswer = .decodeError := by
  decide +kernel

/-- A write that fails at the first and at the last cell, and an acquire that fails. -/
theorem witness_FrameWriteFailsPartway :
    live.mem.wf ∧ live.OmapOk ∧ live.Rotated 3 ∧
    ((∀ m ≤ (0 : Fin 64).val, (onFb live (failsAfter 1 9)).fbAnswer m = .ok) ∧
      (onFb live (failsAfter 1 9)).fbAnswer ((0 : Fin 64).val + 1) = .fail 9) ∧
    ((∀ m ≤ (63 : Fin 64).val, (onFb live (failsAfter 64 9)).fbAnswer m = .ok) ∧
      (onFb live (failsAfter 64 9)).fbAnswer ((63 : Fin 64).val + 1) = .fail 9) ∧
    (onFb live (failsAfter 64 9)).imgAnswer = .ok ∧
    (ramp.toList.length = 64 ∧ (onFb live [.fail 9]).fbAnswer 0 = .fail 9 ∧ (onFb live [.fail 9]).Rotated 3 ∧
      (onFb live [.fail 9]).imgAnswer = .ok) := by decide +kernel

theorem witness_SetThenGetPixel :
    live.mem.wf ∧ (∃ t, exec (.setpixel 3 2 ⟨200, 100, 50⟩) live = .next t ∧ t.err = 0) ∧
    ∀ t, exec (.setpixel 3 2 ⟨200, 100, 50⟩) live = .next t → ∃ u, exec (.getpixel 3 2) t = .next u ∧ u.err = 0 := by
  refine ⟨by decide +kernel, next_of (by decide +kernel), fun t h => next_of ?_⟩
  have key : (match exec (.setpixel 3 2 ⟨200, 100, 50⟩) live with
      | .next t => (nextOf (exec (.getpixel 3 2) t)).map (·.err) | .fault _ => none | .refused _ => none) = some 0 := by
    decide +kernel
  rw [h] at key
  exact key

theorem witness_FrameRoundTrip :
    live.mem.wf ∧ live.OmapOk ∧ (∃ t, exec (.setpixels ramp.toList) live = .next t ∧ t.err = 0) ∧
    ∀ t, exec (.setpixels ramp.toList) live = .next t → ∃ u, exec .getpixels t = .next u ∧ u.err = 0 := by
  refine ⟨by decide +kernel, by decide +kernel, next_of (by decide +kernel), fun t h => next_of ?_⟩
  have key : (match exec (.setpixels ramp.toList) live with
      | .next t => (nextOf (exec .getpixels t)).map (·.err) | .fault _ => none | .refused _ => none) = some 0 := by
    decide +kernel
  rw [h] at key
  exact key

theorem witness_SetgainCommand :
    (∀ p ∈ live.cfg.gainTable, (p.1 : Int) ≠ (0xFFFF : Half).toInt) ∧
    (∀ p ∈ live.cfg.gainTable, (p.1 : Int) ≠ (2 : Half).toInt) ∧
    (live.cfg.wf ∧ (60, 0x03) ∈ live.cfg.gainTable ∧ ((60 : Nat) : Int) = (60 : Half).toInt) ∧ live.busAnswer 0 = .ok ∧
    (onBus live [.fail 0xB7] []).busAnswer 0 = .fail 0xB7 := by
  refine ⟨?_, ?_, ⟨⟨by decide +kernel, ?_⟩, by decide +kernel, by decide⟩, by decide +kernel, by decide +kernel⟩ <;>
    simp [live, blank, cfg, Config.standard]

theorem witness_SetintegCommand :
    (¬ (1 ≤ (0 : Half).toInt ∧ (0 : Half).toInt ≤ 256)) ∧ (¬ (1 ≤ (257 : Half).toInt ∧ (257 : Half).toInt ≤ 256)) ∧
    (¬ (1 ≤ (0xFFFF : Half).toInt ∧ (0xFFFF : Half).toInt ≤ 256)) ∧ (1 ≤ (1 : Half).toInt ∧ (1 : Half).toInt ≤ 256) ∧
    (1 ≤ (256 : Half).toInt ∧ (256 : Half).toInt ≤ 256) ∧ live.busAnswer 0 = .ok ∧
    (onBus live [.fail 0xB3] []).busAnswer 0 = .fail 0xB3 := by decide +kernel

theorem witness_EnableCommand :
    (live.busAnswer 0 = .ok ∧ live.busAnswer 1 = .ok) ∧ (onBus live [.fail 1] []).busAnswer 0 = .fail 1 ∧
    ((onBus live [.ok, .fail 0xB1] []).busAnswer 0 = .ok ∧ (onBus live [.ok, .fail 0xB1] []).busAnswer 1 = .fail 0xB1) := by
  decide +kernel

theorem witness_GetrawCommand :
    (∀ n < 4, (fixture live).busAnswer n = .ok) ∧
    (fixture live).cfg.backend = .fixture 0x00FF 0x0080 0x0040 0x0020 ∧
    (live.cfg.backend = .device ∧ (onBus live [] [1, 2, 3, 4]).ports.busData = [1, 2, 3, 4]) ∧
    (onBus live (failsAfter 0 5) []).busAnswer 0 = .fail 5 ∧
    ((∀ m < 3, (onBus live (failsAfter 3 5) []).busAnswer m = .ok) ∧
      (onBus live (failsAfter 3 5) []).busAnswer 3 = .fail 5) := by decide +kernel

/-- For MaxrawCommand and TorgbCommand: the full scale at 256 and at 255, and `CYCLES` with and without a value. -/
theorem witness_TorgbCommand :
    (live.cycles = some 256 ∧ 256 ≤ (maxRawAt live.cfg 256).toNat) ∧ 256 ≤ (maxRawAt (cfgMax 256) 1).toNat ∧
    (maxRawAt (cfgMax 255) 1).toNat < 256 ∧ (blank none).cycles = none ∧ 0 < scalingOf (cfgMax 256) 1 := by
  decide +kernel

theorem witness_StatusAfterEveryCommand :
    (∃ t, exec (.pack ⟨1, 2, 3⟩) live = .next t ∧ t.err = 0) ∧
    (∃ t, exec .getraw (onBus live [.fail 0xB6] []) = .next t ∧ (t.err, t.errCause) = (4, 0xB6)) ∧
    (∃ t, exec (.getpixel 8 0) live = .next t ∧ t.err = 1) ∧
    (∃ t, step live = .next t ∧ t.errLog = 0) ∧ live.errLog &&& 0xF801#16 = 0 :=
  ⟨next_of (by decide +kernel), next_of (by decide +kernel), next_of (by decide +kernel), next_of (by decide +kernel),
    by decide +kernel⟩

/-- One state and command for each code the statement names. -/
theorem witness_ValidationErrorsTouchNoDevice :
    (∃ t, exec (.mapxy 8 0) live = .next t ∧ t.err = 1) ∧ (∃ t, exec (.setpixels []) live = .next t ∧ t.err = 2) ∧
    (∃ t, exec .getpixels (blank (some 45)) = .next t ∧ t.err = 3) ∧
    (∃ t, exec (.setgain 2) live = .next t ∧ t.err = 5) ∧ (∃ t, exec (.setinteg 0) live = .next t ∧ t.err = 6) ∧
    (∃ t, exec (.torgb 1 2 3 4) { live with cfg := cfgMax 255 } = .next t ∧ t.err = 7) ∧
    (∃ t, exec (.ldimg 9 true) (onImg live .notFound []) = .next t ∧ t.err = 8) ∧
    (∃ t, exec (.ldimg 9 false) (onImg live .decodeError []) = .next t ∧ t.err = 9) ∧
    decode (({ live with words := [0x32000002] } : State).words.drop live.cp) = .illegal 1 ∧
    ∃ t, step { live with words := [0x32000002] } = .next t ∧ t.err = 10 :=
  ⟨next_of (by decide +kernel), next_of (by decide +kernel), next_of (by decide +kernel), next_of (by decide +kernel),
    next_of (by decide +kernel), next_of (by decide +kernel), next_of (by decide +kernel), next_of (by decide +kernel),
    by decide +kernel, next_of (by decide +kernel)⟩

theorem witness_DeviceErrorEndsCommand :
    (∃ t, exec (.enable true) (onBus live [.ok, .fail 1] []) = .next t ∧ t.err = 4) ∧
    ∃ t, exec (.setpixels ramp.toList) (onFb live (failsAfter 3 2)) = .next t ∧ t.err = 4 :=
  ⟨next_of (by decide +kernel), next_of (by decide +kernel)⟩

theorem witness_ErrorPriority :
    (¬ OnGrid 8 0 ∧ ∃ t, exec (.getpixel 8 0) (blank (some 45)) = .next t ∧ t.err = 1) ∧
    (([] : List RGB).length ≠ 64 ∧ ∃ t, exec (.setpixels []) (blank none) = .next t ∧ t.err = 2) ∧
    ((onImg (blank (some 45)) .notFound []).imgAnswer = .notFound ∧
      ∃ t, exec (.ldimg 9 true) (onImg (blank (some 45)) .notFound []) = .next t ∧ t.err = 8) ∧
    ((onImg (blank none) .decodeError []).imgAnswer = .decodeError ∧
      ∃ t, exec (.ldimg 9 true) (onImg (blank none) .decodeError []) = .next t ∧ t.err = 9) ∧
    (NeedsRotation (.clear ⟨0, 0, 0⟩) (blank (some 45)) ∧ (blank (some 45)).rot = some 45 ∧ Unsupported 45 ∧
      ∃ t, exec (.clear ⟨0, 0, 0⟩) (onFb (blank (some 45)) [.fail 1]) = .next t ∧ t.err = 3) :=
  ⟨⟨by decide, next_of (by decide +kernel)⟩, ⟨by decide, next_of (by decide +kernel)⟩,
    ⟨by decide +kernel, next_of (by decide +kernel)⟩, ⟨by decide +kernel, next_of (by decide +kernel)⟩,
    ⟨trivial, rfl, by decide, next_of (by decide +kernel)⟩⟩

/-- V13: both sides of the equivalence. -/
theorem witness_UnwrittenStateExactly :
    exec (.getpixel 0 0) (blank none) = .fault (.unwrittenState (blank none)) ∧
    NeedsRotation (.getpixel 0 0) (blank none) ∧ (blank none).rot = none ∧ NeedsCycles .maxraw ∧ (blank none).cycles = none :=
  ⟨rfl, by unfold NeedsRotation; decide, rfl, trivial, rfl⟩

/-- V13: the bus stalls on the second read. -/
theorem witness_StuckKeepsStatus :
    (∃ l, exec .getraw (onBus live [.ok, .stall] []) = .fault (.stuckPort l)) ∧
    (∃ l, step { live with words := [0x22000002, 0x00000000] } = .fault (.incompleteCommand l)) ∧
    (onBus live [.ok, .stall] []).busAnswer 0 = .ok ∧ (onBus live [.ok, .stall] []).busAnswer 1 = .stall :=
  ⟨⟨_, rfl⟩, ⟨_, rfl⟩, by decide +kernel, by decide +kernel⟩

/-- For NamedRegistersFrame, ResultRegistersFrame, FramebufferFrame and FramebufferPortBracketed: commands that complete. -/
theorem witness_frames :
    (∃ t, exec (.setrot 45) live = .next t ∧ t.err = 0) ∧ (∃ t, exec (.mapxy 8 0) live = .next t ∧ t.err = 1) ∧
    (∃ t, exec (.clear ⟨1, 2, 3⟩) live = .next t ∧ (t.err, t.trace.length) = (0, 66)) ∧
    StoresNothing .getpixels ∧ (∃ t, exec .getpixels live = .next t ∧ (t.err, t.trace.length) = (0, 66)) ∧
    128 ≤ live.cfg.fbLen :=
  ⟨next_of (by decide +kernel), next_of (by decide +kernel), next_of (by decide +kernel), trivial,
    next_of (by decide +kernel), by decide +kernel⟩

theorem witness_SensorAndMatrixIndependent :
    (¬ SensorSide .getpixels ∧ ∃ t, exec .getpixels live = .next t ∧ t.err = 0) ∧
    (SensorSide .getraw ∧ ∃ t, exec .getraw live = .next t ∧ t.err = 0) :=
  ⟨⟨id, next_of (by decide +kernel)⟩, ⟨trivial, next_of (by decide +kernel)⟩⟩

theorem witness_ResultRegistersNeverRead : ∃ t, exec .maxraw { live with d0 := some 1 } = .next t ∧ t.d0 = some 0x10000 :=
  next_of (by decide +kernel)

theorem witness_NoIOFailNoDeviceError :
    live.NoIOFail ∧ (onFb (onBus live [.ok, .ok] []) [.ok]).NoIOFail ∧
    ∃ t, exec (.enable true) live = .next t ∧ t.err = 0 :=
  ⟨by decide +kernel, by decide +kernel, next_of (by decide +kernel)⟩

theorem witness_StepKeepsInvariant :
    ({ live with words := [0x24FF0000] } : State).Inv ∧
    ∃ t, step { live with words := [0x24FF0000] } = .next t ∧ t.cp = 1 :=
  ⟨⟨by decide +kernel, by decide +kernel, by decide +kernel, by rintro c ⟨⟩; decide, by rintro g ⟨⟩; decide +kernel,
    by rintro t ⟨⟩; rfl, by decide +kernel, by decide +kernel, by decide +kernel⟩, next_of (by decide +kernel)⟩

/-- Registers with and without a value, and numbers at the edges of the ranges the table leaves out. -/
theorem witness_ReadPort :
    (live.rot = some 270 ∧ live.gain = some 60 ∧ live.cycles = some 256 ∧ live.timing = some 24000) ∧
    (({ live with d0 := some 1, d1 := some 2, d2 := some 3, d3 := some 4 } : State).d3 = some 4 ∧
      (live.setPixels ramp.toList).pbuf.get 63 = some 0x3F0000) ∧
    ((blank none).rot = none ∧ (blank none).gain = none ∧ (blank none).cycles = none ∧ (blank none).timing = none ∧
      (blank none).d0 = none ∧ (blank none).d1 = none ∧ (blank none).d2 = none ∧ (blank none).d3 = none ∧
      (blank none).pbuf.get 63 = none) ∧
    ((0x00C ≤ 0x03F ∧ 0x03F < 0x040) ∧ (0x080 ≤ 0x0FF ∧ 0x0FF < 0x100) ∧ 0x200 ≤ 0x200) := by decide +kernel

/-- The framebuffer port answers ok `n` times and is then silent. -/
def silentAfter (n : Nat) : List PortAnswer := List.replicate n .ok ++ [.stall]

/-- Silence at the acquire, at the first and at the last write, and on the bus at the first, second and fourth request. -/
theorem witness_StalledRequestStops :
    (OnGrid 7 7 ∧ ramp.toList.length = 64 ∧ (onFb live (silentAfter 0)).Rotated 3 ∧
      (onFb live (silentAfter 0)).fbAnswer 0 = .stall ∧ (onFb live (silentAfter 0)).imgAnswer = .ok) ∧
    ((onFb live (silentAfter 1)).fbAnswer 0 = .ok ∧ (onFb live (silentAfter 1)).fbAnswer 1 = .stall) ∧
    ((∀ m ≤ (0 : Fin 64).val, (onFb live (silentAfter 1)).fbAnswer m = .ok) ∧
      (onFb live (silentAfter 64)).mem.wf ∧ (onFb live (silentAfter 64)).OmapOk ∧
      (onFb live (silentAfter 64)).Rotated 3 ∧ (onFb live (silentAfter 64)).imgAnswer = .ok ∧
      (∀ m ≤ (63 : Fin 64).val, (onFb live (silentAfter 64)).fbAnswer m = .ok) ∧
      (onFb live (silentAfter 64)).fbAnswer ((63 : Fin 64).val + 1) = .stall) ∧
    ((60, 0x03) ∈ live.cfg.gainTable ∧ ((60 : Nat) : Int) = (60 : Half).toInt ∧ 1 ≤ (256 : Half).toInt ∧
      (256 : Half).toInt ≤ 256 ∧ (onBus live (silentAfter 0) []).busAnswer 0 = .stall) ∧
    ((onBus live (silentAfter 1) []).busAnswer 0 = .ok ∧ (onBus live (silentAfter 1) []).busAnswer 1 = .stall) ∧
    ((∀ m < 3, (onBus live (silentAfter 3) []).busAnswer m = .ok) ∧
      (onBus live (silentAfter 3) []).busAnswer 3 = .stall) := by decide +kernel

/-- A register that holds a value and one that holds `none`, for both readings of the port. -/
theorem witness_HostReadValue :
    (regReadOrFault live 0x003 = .ok 270 ∧ regRead 0 live 0x003 = 270) ∧
    (regReadOrFault live 0x008 = .error (.unwrittenState live) ∧ regRead 0 live 0x008 = Config.freeRead 0 0x008) ∧
    (0x008 ≤ 0x00B ∧ 0x00B ≤ 0x00B) ∧ (0x040 ≤ 0x07F ∧ 0x07F ≤ 0x07F) :=
  ⟨⟨rfl, rfl⟩, ⟨rfl, rfl⟩, by decide, by decide⟩

end Sys2Proof.Tests
end

section
/-! The status registers after a command that completes (10_state.md R25 to R27). -/

namespace Sys2Proof.Machine

/-! ### Facts about codes, the reserved bits and the events of a step -/

theorem ErrKind.code_pos (k : ErrKind) : 1 ≤ k.code.toNat := by cases k <;> decide

theorem ErrKind.code_le_nine {k : ErrKind} (h : k ≠ .illegalCommand) : k.code.toNat ≤ 9 := by
  cases k with
  | illegalCommand => exact absurd rfl h
  | _ => decide

theorem ErrKind.code_eq_four {k : ErrKind} : k.code = 4 ↔ k = .deviceIOError := by cases k <;> decide

/-- The bits of the codes 1 to 10 lie outside the reserved bits 0 and 11 to 15 of `ERRLOG` (R26). -/
theorem reserved_or_twoPow {l : Half} {n : Nat} (h1 : 1 ≤ n) (h10 : n ≤ 10) (h : l &&& 0xF801#16 = 0) :
    (l ||| BitVec.twoPow 16 n) &&& 0xF801#16 = 0 := by
  have hbit : BitVec.twoPow 16 n &&& 0xF801#16 = 0 := by interval_cases n <;> decide
  rw [BitVec.and_or_distrib_right, h, hbit]
  rfl

theorem newEvents_of_append {s t : State} {es : List Event} (h : t.trace = s.trace ++ es) : newEvents s t = es := by
  rw [newEvents, h, List.drop_left]

/-- The events of a command that ended at a request that failed hold that request. -/
theorem EventShape.exists_failCause {c : Word} {es : List Event} (h : EventShape (some c) es) :
    ∃ e ∈ es, e.failCause = some c := by
  cases h with
  | busFail es e _ _ _ hc => exact ⟨e, by simp, hc⟩
  | fbFail pre es e _ _ _ _ hc => exact ⟨e, by simp, hc⟩
  | acquireFail pre _ _ => exact ⟨.fbAcquire (.fail c), by simp, rfl⟩

/-! ### The status of one command, and of one step -/

/-- The status registers and the trace after a command that ended in an error: no port request touched `ERRLOG` (R203). -/
theorem errored_status {s u t : State} (hp : PortStep s u) {k : ErrKind} {c : Word} {n : Results} {len : Nat}
    (ht : t = (u.dropResults n).errored k.code.toNat c len) :
    t.err = k.code ∧ t.errLog = s.errLog ||| BitVec.twoPow 16 t.err.toNat ∧ t.errCause = c ∧ t.trace = u.trace := by
  have herr : t.err = k.code := by rw [ht, State.errored, BitVec.ofNat_toNat, BitVec.setWidth_eq]
  refine ⟨herr, ?_, by rw [ht]; rfl, by rw [ht]; exact State.dropResults_trace u n⟩
  rw [herr, ht, ← hp.errLog, ← State.dropResults_errLog u n]
  rfl

theorem exec_status {i : Instr} {s t : State} (h : exec i s = .next t) :
    (t.err = 0 ∧ t.errLog = s.errLog ∧ t.errCause = 0) ∨
    (1 ≤ t.err.toNat ∧ t.err.toNat ≤ 9 ∧ t.errLog = s.errLog ||| BitVec.twoPow 16 t.err.toNat ∧
      (t.err ≠ 4 → t.errCause = 0) ∧ (t.err = 4 → ∃ e ∈ newEvents s t, e.failCause = some t.errCause)) := by
  cases exec_next h with
  | ok u v es hp htr he hm hs hw ht =>
    subst ht
    exact .inl ⟨rfl, hw.errLog.trans hp.errLog, rfl⟩
  | invalid k u es hp htr hq hk hk' himg hgr hne hm ht =>
    obtain ⟨herr, hlog, hcause, -⟩ := errored_status hp ht
    refine .inr ⟨herr ▸ k.code_pos, herr ▸ ErrKind.code_le_nine hk', hlog, fun _ => hcause, fun h4 => ?_⟩
    exact absurd (ErrKind.code_eq_four.1 (herr.symm.trans h4)) hk
  | fail c u es hp htr he hm hs hn ht =>
    obtain ⟨herr, hlog, hcause, htrace⟩ := errored_status (k := .deviceIOError) hp ht
    refine .inr ⟨herr ▸ ErrKind.code_pos _, herr ▸ ErrKind.code_le_nine (by decide), hlog,
      fun h4 => absurd herr h4, fun _ => ?_⟩
    rw [newEvents_of_append (htrace.trans htr), hcause]
    exact he.exists_failCause

theorem execIllegal_eq (len : Nat) (s : State) : execIllegal len s = .next (s.errored 10 0 len) := by
  rw [execIllegal, raise_eq]
  rfl

/-- A step that answers a next state ran a command, consumed an illegal one, or idled (30_encoding.md R84, R87; R247). -/
theorem step_next {s t : State} (h : step s = .next t) :
    (∃ i, fetch s = .command i ∧ exec i s = .next t) ∨
    (∃ len, fetch s = .illegal len ∧ t = s.errored 10 0 len) ∨ (fetch s = .idle ∧ t = s) := by
  unfold step at h
  cases hf : fetch s with
  | command i => rw [hf] at h; exact .inl ⟨i, rfl, h⟩
  | illegal len =>
    rw [hf] at h
    exact .inr (.inl ⟨len, rfl, Host.Outcome.next.inj (h.symm.trans (execIllegal_eq len s))⟩)
  | incomplete => rw [hf] at h; cases h
  | idle => rw [hf] at h; exact .inr (.inr ⟨rfl, (Host.Outcome.next.inj h).symm⟩)

theorem step_keeps_reserved {s t : State} (h : step s = .next t) (hs : s.errLog &&& 0xF801#16 = 0) :
    t.errLog &&& 0xF801#16 = 0 := by
  rcases step_next h with ⟨i, -, hexec⟩ | ⟨len, -, rfl⟩ | ⟨-, rfl⟩
  · rcases exec_status hexec with ⟨-, hlog, -⟩ | ⟨h1, h9, hlog, -⟩
    · rw [hlog]; exact hs
    · rw [hlog]; exact reserved_or_twoPow h1 (by omega) hs
  · exact reserved_or_twoPow (by decide) (by decide) hs
  · exact hs

/-- Settles O42: the case of `exec_next` gives the status of a command, `execIllegal_eq` that of an illegal one, and
neither sets a reserved bit. -/
theorem statusAfterEveryCommand : Obligations.StatusAfterEveryCommand :=
  ⟨fun _ _ _ => exec_status, execIllegal_eq, fun _ _ => step_keeps_reserved, rfl, rfl, rfl⟩

end Sys2Proof.Machine
end

section
/-! The read port, register number by register number (10_state.md R32). -/

namespace Sys2Proof.Machine

/-! ### What each register number holds -/

theorem regContent_pbuf (s : State) (i : Fin 64) :
    regContent s (0x040 + i.val) = (s.pbuf.get i).map (·.setWidth 32) := by
  have hi : Fin.ofNat 64 (0x040 + i.val - 0x040) = i := by ext; simp
  simp (disch := omega) only [regContent, if_neg, if_pos, hi]

theorem regContent_omap (s : State) (k : Fin 4) (i : Fin 64) :
    regContent s (0x100 + 64 * k.val + i.val) = some (((s.omap.get k).get i).setWidth 32) := by
  have hk : Fin.ofNat 4 ((0x100 + 64 * k.val + i.val - 0x100) / 64) = k := by ext; simp; omega
  have hi : Fin.ofNat 64 ((0x100 + 64 * k.val + i.val - 0x100) % 64) = i := by ext; simp; omega
  simp (disch := omega) only [regContent, if_neg, if_pos, hk, hi]

theorem regContent_unlisted (s : State) {rn : Nat}
    (h : rn = 0x007 ∨ (0x00C ≤ rn ∧ rn < 0x040) ∨ (0x080 ≤ rn ∧ rn < 0x100) ∨ 0x200 ≤ rn) : regContent s rn = some 0 := by
  simp (disch := omega) only [regContent, if_neg]

/-! ### What a model's read of a register gives -/

/-- The two outcomes of reading a register whose content is `o`, extended by `f`. -/
theorem regReadOrFault_of_map {α : Type} {s : State} {rn : Nat} {o : Option α} {f : α → Word}
    (h : regContent s rn = o.map f) :
    (∀ v, o = some v → regReadOrFault s rn = .ok (f v)) ∧
    (o = none → regReadOrFault s rn = .error (.unwrittenState s)) :=
  ⟨fun v hv => regReadOrFault_ok.2 (by rw [h, hv, Option.map_some]),
    fun hn => regReadOrFault_error.2 ⟨by rw [h, hn, Option.map_none], rfl⟩⟩

/-- The same for a register of 32 bits, which is read as it stands. -/
theorem regReadOrFault_of_content {s : State} {rn : Nat} {o : Option Word} (h : regContent s rn = o) :
    (∀ v, o = some v → regReadOrFault s rn = .ok v) ∧
    (o = none → regReadOrFault s rn = .error (.unwrittenState s)) :=
  regReadOrFault_of_map (f := id) (by rw [h, Option.map_id_apply])

/-- Settles O58: the content of each numbered register, and the outcome of a read by that content. -/
theorem readPort : Obligations.ReadPort := by
  intro s
  obtain ⟨rotOk, rotNone⟩ := regReadOrFault_of_map (s := s) (rn := 0x003) (o := s.rot) rfl
  obtain ⟨gainOk, gainNone⟩ := regReadOrFault_of_map (s := s) (rn := 0x004) (o := s.gain) rfl
  obtain ⟨cyclesOk, cyclesNone⟩ := regReadOrFault_of_map (s := s) (rn := 0x005) (o := s.cycles) rfl
  obtain ⟨timingOk, timingNone⟩ := regReadOrFault_of_content (s := s) (rn := 0x006) (o := s.timing) rfl
  obtain ⟨d0Ok, d0None⟩ := regReadOrFault_of_content (s := s) (rn := 0x008) (o := s.d0) rfl
  obtain ⟨d1Ok, d1None⟩ := regReadOrFault_of_content (s := s) (rn := 0x009) (o := s.d1) rfl
  obtain ⟨d2Ok, d2None⟩ := regReadOrFault_of_content (s := s) (rn := 0x00A) (o := s.d2) rfl
  obtain ⟨d3Ok, d3None⟩ := regReadOrFault_of_content (s := s) (rn := 0x00B) (o := s.d3) rfl
  exact ⟨fun k rn v h => regRead_of_content (regReadOrFault_ok.1 h) k, rfl, rfl, rfl,
    rotOk, gainOk, cyclesOk, timingOk, d0Ok, d1Ok, d2Ok, d3Ok,
    fun i => (regReadOrFault_of_map (regContent_pbuf s i)).1,
    fun k i => regReadOrFault_ok.2 (regContent_omap s k i),
    fun _ h => regReadOrFault_ok.2 (regContent_unlisted s h),
    rotNone, gainNone, cyclesNone, timingNone, d0None, d1None, d2None, d3None,
    fun i => (regReadOrFault_of_map (regContent_pbuf s i)).2⟩

end Sys2Proof.Machine
end

section
/-! A program kept as bytes, and the words read back from it (20_memory.md R71). -/

namespace Sys2Proof

/-! ### One word -/

/-- The four bytes of a word, most significant first, are its bits 31:0. -/
theorem bytes_append_eq_word (w : Word) : byte3 w ++ byte2 w ++ byte1 w ++ byte0 w = w := by
  have hHigh : byte3 w ++ byte2 w = w.extractLsb' 16 16 := BitVec.extractLsb'_append_extractLsb'_eq_extractLsb' rfl
  have hUpper : w.extractLsb' 16 16 ++ byte1 w = w.extractLsb' 8 24 :=
    BitVec.extractLsb'_append_extractLsb'_eq_extractLsb' rfl
  have hWord : w.extractLsb' 8 24 ++ byte0 w = w.extractLsb' 0 32 :=
    BitVec.extractLsb'_append_extractLsb'_eq_extractLsb' rfl
  rw [hHigh, hUpper, hWord, BitVec.extractLsb'_eq_self]

/-! ### A word list -/

@[simp] theorem bytesOfWords_cons (w : Word) (ws : List Word) :
    bytesOfWords (w :: ws) = byte0 w :: byte1 w :: byte2 w :: byte3 w :: bytesOfWords ws := rfl

@[simp] theorem wordsOfBytes_cons (b0 b1 b2 b3 : Byte) (bs : List Byte) :
    wordsOfBytes (b0 :: b1 :: b2 :: b3 :: bs) = (b3 ++ b2 ++ b1 ++ b0) :: wordsOfBytes bs := rfl

@[simp] theorem wordsOfBytes_bytesOfWords (ws : List Word) : wordsOfBytes (bytesOfWords ws) = ws := by
  induction ws with
  | nil => rfl
  | cons w ws ih => rw [bytesOfWords_cons, wordsOfBytes_cons, bytes_append_eq_word, ih]

theorem decodeBytes_bytesOfWords (ws : List Word) : decodeBytes (bytesOfWords ws) = decode ws :=
  congrArg decode (wordsOfBytes_bytesOfWords ws)

/-- Settles O6: a word's bytes put together are the word, so the words read back are the program's. -/
theorem wordBytesLittleEndian : Obligations.WordBytesLittleEndian :=
  ⟨fun _ => rfl, wordsOfBytes_bytesOfWords, decodeBytes_bytesOfWords⟩

end Sys2Proof
end

section
/-! The decoder on the words of an encoded command, whole or cut short (30_encoding.md R84, R88, R90). -/

namespace Sys2Proof.Laws

/-- The statement `EncodedHead.Statement` for every command. -/
theorem encodedHead (i : Instr) : EncodedHead.Statement i := by
  cases i with
  | pack c => exact EncodedHead.pack c
  | unpack v => exact EncodedHead.unpack v
  | setrot deg => exact EncodedHead.setrot deg
  | mapxy x y => exact EncodedHead.mapxy x y
  | getpixel x y => exact EncodedHead.getpixel x y
  | setpixel x y c => exact EncodedHead.setpixel x y c
  | setpixels cs => exact EncodedHead.setpixels cs
  | getpixels => exact EncodedHead.getpixels
  | clear c => exact EncodedHead.clear c
  | ldimg src redraw => exact EncodedHead.ldimg src redraw
  | setgain level => exact EncodedHead.setgain level
  | setinteg cycles => exact EncodedHead.setinteg cycles
  | enable on => exact EncodedHead.enable on
  | getraw => exact EncodedHead.getraw
  | maxraw => exact EncodedHead.maxraw
  | torgb red green blue clear => exact EncodedHead.torgb red green blue clear

/-- Operand assembly gives back the operands that the encoder wrote (R86, R90). -/
theorem assemble_encode {i : Instr} {w : Word} {ps : List Word} (h : encode i = w :: ps) :
    assemble i.op w ps = .command i := by
  cases i with
  | setpixels cs =>
    obtain ⟨rfl, rfl⟩ := List.cons.inj h
    have hcolours : colourOf ∘ colourWord = id := funext colourOf_colourWord
    simp [Instr.op, assemble, hcolours]
  | ldimg src redraw =>
    obtain ⟨rfl, rfl⟩ := List.cons.inj h
    simp only [Instr.op, assemble, loHalf_flag, flag_bit]
  | enable on =>
    obtain ⟨rfl, rfl⟩ := List.cons.inj h
    simp only [Instr.op, assemble, on_bit]
  | _ =>
    obtain ⟨rfl, rfl⟩ := List.cons.inj h
    simp [Instr.op, assemble]

/-- The encoding of a well-formed command decodes to the command, whatever words follow it (R92). -/
theorem decode_encode_append {i : Instr} (hwf : i.wellFormed = true) (rest : List Word) :
    decode (encode i ++ rest) = .command i := by
  obtain ⟨w, ps, r, henc, hrow, hop, hlen, -⟩ := encodedHead i hwf
  rw [henc, List.cons_append, decode_cons_of_findRow hrow (by simp [hlen]), hlen, List.take_left, hop,
    assemble_encode henc]

theorem length_encode {i : Instr} (hwf : i.wellFormed = true) : (encode i).length = i.words := by
  obtain ⟨_, _, _, _, _, _, _, hwords⟩ := encodedHead i hwf
  exact hwords

theorem decode_cons_incomplete {r : Row} {w : Word} {rest : List Word} (h : findRow w = some r)
    (hlen : rest.length < payloadLength r.format w) : decode (w :: rest) = .incomplete := by
  simp [decode, h, hlen]

/-- A proper non-empty beginning of an encoding has its head word, which announces more words than are there (R84). -/
theorem decode_take_encode {i : Instr} (hwf : i.wellFormed = true) {k : Nat} (hpos : 0 < k) (hk : k < i.words) :
    decode ((encode i).take k) = .incomplete := by
  obtain ⟨w, ps, r, henc, hrow, -, hlen, hwords⟩ := encodedHead i hwf
  obtain ⟨n, rfl⟩ := Nat.exists_eq_add_one_of_ne_zero hpos.ne'
  rw [henc, List.length_cons] at hwords
  rw [henc, List.take_succ_cons]
  exact decode_cons_incomplete hrow (by rw [hlen, List.length_take]; omega)

end Sys2Proof.Laws
end

section
/-! One step of the sequencer, by the decoder's verdict (30_encoding.md R84, R87, R88), and where it leaves the command
pointer (R93). -/

namespace Sys2Proof.Machine
open Laws

/-! ### The step by the decoder's verdict -/

theorem step_of_command {s : State} {i : Instr} (h : decode (s.words.drop s.cp) = .command i) : step s = exec i s := by
  simp only [step, fetch, h]

theorem step_of_illegal {s : State} {len : Nat} (h : decode (s.words.drop s.cp) = .illegal len) :
    step s = .next (s.errored 10 0 len) := by
  simp only [step, fetch, h, execIllegal_eq]

theorem step_of_incomplete {s : State} (h : decode (s.words.drop s.cp) = .incomplete) :
    step s = .fault (.incompleteCommand s) := by
  simp only [step, fetch, h]

/-- Settles O4: the words that are there decode as incomplete, and such a step is stuck in the state it found. -/
theorem incompleteCommandWaits : Obligations.IncompleteCommandWaits :=
  fun _ _ _ hwf hpos hk hwords => step_of_incomplete (hwords ▸ decode_take_encode hwf hpos hk)

/-! ### The command pointer and the words -/

/-- However a command ends, `cp` moves by its number of words, and the words stay. -/
theorem exec_cp_words {i : Instr} {s t : State} (h : exec i s = .next t) :
    t.cp = s.cp + i.words ∧ t.words = s.words := by
  cases exec_next h with
  | ok u v es hp htr he hm hs hw ht =>
    subst ht
    exact ⟨congrArg (· + i.words) (hw.cp.trans hp.cp), hw.words.trans hp.words⟩
  | invalid k u es hp htr hq hk hk' himg hgr hne hm ht =>
    subst ht
    simp [State.errored, hp.cp, hp.words]
  | fail c u es hp htr he hm hs hn ht =>
    subst ht
    simp [State.errored, hp.cp, hp.words]

theorem step_cp_words {s t : State} (h : step s = .next t) : s.cp ≤ t.cp ∧ t.words = s.words := by
  rcases step_next h with ⟨i, -, hexec⟩ | ⟨len, -, rfl⟩ | ⟨-, rfl⟩
  · obtain ⟨hcp, hwords⟩ := exec_cp_words hexec
    exact ⟨by omega, hwords⟩
  · exact ⟨Nat.le_add_right _ _, rfl⟩
  · exact ⟨le_rfl, rfl⟩

/-- After a step at an encoding, the next step takes its command from the words that followed it (R93). -/
theorem step_drop_encode {i : Instr} {rest : List Word} {s t : State} (hwf : i.wellFormed = true)
    (hwords : s.words.drop s.cp = encode i ++ rest) (h : step s = .next t) : t.words.drop t.cp = rest := by
  rw [step_of_command (hwords ▸ decode_encode_append hwf rest)] at h
  obtain ⟨hcp, hkept⟩ := exec_cp_words h
  rw [hkept, hcp, ← List.drop_drop, hwords, ← length_encode hwf, List.drop_left]

/-- Settles O8: a command that completes moves `cp` by its words, an illegal one by its length, and an idle step not
at all. -/
theorem commandPointerOnlyAdvances : Obligations.CommandPointerOnlyAdvances :=
  ⟨fun _ _ _ => exec_cp_words, fun _ _ => step_cp_words, fun _ _ _ _ => step_drop_encode⟩

end Sys2Proof.Machine
end

section
/-! The head words that match no row, and the colour words that make a command illegal (30_encoding.md R84, R85, R87). -/

namespace Sys2Proof.Laws

/-! ### The must-be-zero field of a row -/

/-- The number of bits right below the op byte that the masks of the format's rows require to be zero (R82, R85). -/
def mustBeZeroBits : Format → Nat
  | .c => 0
  | .f => 7
  | .h | .xy | .xyc | .l => 8
  | .b => 23
  | .z | .t => 24

theorem mustBeZeroBits_le (fmt : Format) : mustBeZeroBits fmt ≤ 24 := by cases fmt <;> decide

theorem rows_mask_eq : ∀ r ∈ rows, r.mask = BitVec.allOnes 32 <<< (24 - mustBeZeroBits r.format) := by decide

theorem rows_pattern_eq : ∀ r ∈ rows, r.pattern = byte3 r.pattern ++ 0#24 := by decide

theorem getLsbD_and_highMask (w : Word) (n j : Nat) :
    (w &&& (BitVec.allOnes 32 <<< n)).getLsbD j = (w.getLsbD j && decide (n ≤ j)) := by
  have hout : 32 ≤ j → w.getLsbD j = false := BitVec.getLsbD_of_ge w j
  simp only [BitVec.getLsbD_and, BitVec.getLsbD_shiftLeft, BitVec.getLsbD_allOnes]
  grind

/-- A mask of the op byte and the `z` bits below it compares these two fields. -/
theorem and_highMask_eq_iff (w : Word) (op : Byte) {z : Nat} (hz : z ≤ 24) :
    w &&& (BitVec.allOnes 32 <<< (24 - z)) = op ++ 0#24 ↔
      w.extractLsb' 24 8 = op ∧ w.extractLsb' (24 - z) z = 0 := by
  simp only [BitVec.ofNat_eq_ofNat, BitVec.eq_of_getLsbD_eq_iff, getLsbD_and_highMask, BitVec.getLsbD_append,
    BitVec.getLsbD_extractLsb', BitVec.getLsbD_zero]
  constructor
  · intro h
    refine ⟨fun j hj => ?_, fun j hj => ?_⟩
    · have := h (24 + j) (by omega)
      grind
    · have := h (24 - z + j) (by omega)
      grind
  · rintro ⟨hop, hzero⟩ j hj
    by_cases hhigh : 24 ≤ j
    · have := hop (j - 24) (by omega)
      grind
    · have := hzero (j - (24 - z))
      grind

/-- A head word matches a row when its op byte is the row's and the row's must-be-zero field is zero. -/
theorem matches_iff {r : Row} (hr : r ∈ rows) (w : Word) :
    r.matches w = true ↔ w.extractLsb' 24 8 = byte3 r.pattern ∧
      w.extractLsb' (24 - mustBeZeroBits r.format) (mustBeZeroBits r.format) = 0 := by
  rw [← and_highMask_eq_iff w _ (mustBeZeroBits_le r.format), ← rows_mask_eq r hr, ← rows_pattern_eq r hr, Row.matches,
    beq_iff_eq]

/-! ### The legal head words -/

/-- The op of the head word is listed, and the must-be-zero field of its row is zero (R85, R87). -/
def LegalHead (w : Word) : Prop :=
  w.extractLsb' 24 8 ∈ [0x01#8, 0x24#8] ∨
    (w.extractLsb' 24 8 ∈ [0x02#8, 0x10#8, 0x11#8, 0x20#8, 0x21#8, 0x22#8, 0x30#8, 0x31#8] ∧ w.extractLsb' 16 8 = 0#8) ∨
    (w.extractLsb' 24 8 = 0x25#8 ∧ w.extractLsb' 17 7 = 0#7) ∨
    (w.extractLsb' 24 8 = 0x32#8 ∧ w.extractLsb' 1 23 = 0#23) ∨
    (w.extractLsb' 24 8 ∈ [0x23#8, 0x33#8, 0x34#8, 0x35#8] ∧ w.extractLsb' 0 24 = 0#24)

/-- `LegalHead` lists the rows of the opcode map, grouped by their masks. -/
theorem exists_row_matches_iff (w : Word) : (∃ r ∈ rows, r.matches w = true) ↔ LegalHead w := by
  have hfields : (∃ r ∈ rows, r.matches w = true) ↔ ∃ r ∈ rows, w.extractLsb' 24 8 = byte3 r.pattern ∧
      w.extractLsb' (24 - mustBeZeroBits r.format) (mustBeZeroBits r.format) = 0 :=
    exists_congr fun r => and_congr_right fun hr => matches_iff hr w
  rw [hfields]
  simp only [rows, BitVec.ofNat_eq_ofNat, List.mem_cons, List.not_mem_nil, or_false, byte3, mustBeZeroBits,
    exists_eq_or_imp, BitVec.reduceExtractLsb', tsub_zero, BitVec.extractLsb'_eq_zero, and_true, Nat.reduceSub,
    tsub_self, ↓existsAndEq, true_and, LegalHead]
  simp only [or_and_right]
  exact iff_of_eq (by ac_rfl)

theorem findRow_eq_none_iff (w : Word) : findRow w = none ↔ ¬ LegalHead w := by
  rw [← exists_row_matches_iff, findRow, List.find?_eq_none]
  push Not
  rfl

/-! ### The illegal commands -/

/-- An illegal command whose head word matches a row has a bad colour word, so more than one word. -/
theorem assemble_ne_illegal_one (op : Op) (w : Word) (ps : List Word) : assemble op w ps ≠ .illegal 1 := by
  cases op with
  | setpixel =>
    simp only [assemble]
    split
    · split <;> simp
    · simp
  | setpixels =>
    cases ps with
    | nil => simp [assemble]
    | cons c cs => simp only [assemble]; split <;> simp
  | torgb =>
    simp only [assemble]
    split <;> simp
  | _ => simp [assemble]

theorem decode_cons_eq_illegal_one (w : Word) (rest : List Word) : decode (w :: rest) = .illegal 1 ↔ ¬ LegalHead w := by
  rw [← findRow_eq_none_iff]
  refine ⟨fun h => ?_, decode_cons_illegal⟩
  cases hrow : findRow w with
  | none => rfl
  | some r =>
    by_cases hlen : rest.length < payloadLength r.format w
    · rw [decode_cons_incomplete hrow hlen] at h
      cases h
    · rw [decode_cons_of_findRow hrow (Nat.not_lt.mp hlen)] at h
      exact absurd h (assemble_ne_illegal_one _ _ _)

theorem colourWordOk_eq_false {c : Word} (h : c.extractLsb' 24 8 ≠ 0#8) : colourWordOk c = false :=
  beq_false_of_ne h

theorem decode_setpixel_badColour (x y : Byte) {c : Word} (h : c.extractLsb' 24 8 ≠ 0#8) (rest : List Word) :
    decode ((0x2100#16 ++ x ++ y : Word) :: c :: rest) = .illegal 2 := by
  have hrow : findRow (0x2100#16 ++ x ++ y) = some ⟨.setpixel, .xyc, 0x21000000, 0xFFFF0000⟩ :=
    findRow_of_matches (by decide) (matches_intro (mask_top_half_xy _ _ _) (by decide))
  rw [decode_cons_of_findRow hrow (by simp [payloadLength])]
  simp [payloadLength, assemble, colourWordOk_eq_false h]

theorem decode_setpixels_badColour (n : Half) {ps : List Word} (hlen : ps.length = n.toNat)
    (h : ∃ c ∈ ps, c.extractLsb' 24 8 ≠ 0#8) (rest : List Word) :
    decode ((0x2200#16 ++ n : Word) :: (ps ++ rest)) = .illegal (1 + n.toNat) := by
  have hrow : findRow (0x2200#16 ++ n) = some ⟨.setpixels, .l, 0x22000000, 0xFFFF0000⟩ :=
    findRow_of_matches (by decide) (matches_intro (mask_top_half _ _) (by decide))
  have hpayload : payloadLength .l (0x2200#16 ++ n) = ps.length := by rw [payloadLength, loHalf_halves, hlen]
  have hbad : ps.all colourWordOk = false := by
    obtain ⟨c, hmem, hc⟩ := h
    exact List.all_eq_false.mpr ⟨c, hmem, by simp [colourWordOk_eq_false hc]⟩
  rw [decode_cons_of_findRow hrow (by simp [hpayload])]
  simp [hpayload, assemble, hbad, hlen]

/-- Settles O3: a head word is illegal when it matches no row; a bad colour word makes the whole command illegal; and an
illegal command's step is `State.errored`. -/
theorem illegalCommandsRaise : Obligations.IllegalCommandsRaise :=
  ⟨decode_cons_eq_illegal_one, fun x y _ rest h => decode_setpixel_badColour x y h rest,
    fun n _ rest hlen h => decode_setpixels_badColour n hlen h rest,
    fun _ _ => Machine.step_of_illegal,
    fun _ => ⟨decode_cons_illegal (by decide), decode_cons_illegal (by decide)⟩⟩

end Sys2Proof.Laws
end

section
/-! Bit fields cut out of a word, and joined: what the lanes of a packed colour are made of (40_codec.md R110, R111). -/

namespace Sys2Proof.Laws

/-- A shift and a mask of the `n` low bits give the field of `n` bits at bit `k`, in a register of any width. -/
theorem setWidth_ushiftRight_and_lowMask {w : Nat} (x : BitVec w) (k n v : Nat) (h : n ≤ w) :
    ((x >>> k) &&& (BitVec.allOnes n).setWidth w).setWidth v = (x.extractLsb' k n).setWidth v := by
  have hfield : (x >>> k) &&& (BitVec.allOnes n).setWidth w = (x.extractLsb' k n).setWidth w := by
    ext i hi
    simp [Bool.and_comm]
  rw [hfield, BitVec.setWidth_setWidth (by omega)]

/-- In a register wide enough for all of a bit string, a shift leaves the bits of the string from bit `k` on. -/
theorem setWidth_ushiftRight {n w : Nat} (x : BitVec n) (h : n ≤ w) (k : Nat) :
    x.setWidth w >>> k = (x.extractLsb' k (n - k)).setWidth w := by
  have hout (i : Nat) : n ≤ k + i → x.getLsbD (k + i) = false := BitVec.getLsbD_of_ge x (k + i)
  ext i hi
  simp only [BitVec.getElem_ushiftRight, BitVec.getLsbD_setWidth, BitVec.getElem_setWidth, BitVec.getLsbD_extractLsb']
  grind

/-- A bit string moved up, with its bits from bit `k` on filled in below it. -/
theorem shiftLeft_or_ushiftRight_eq_append {n w : Nat} (x : BitVec n) (h : n ≤ w) (k : Nat) :
    (x.setWidth w <<< (n - k)) ||| (x.setWidth w >>> k) = (x ++ x.extractLsb' k (n - k)).setWidth w := by
  rw [BitVec.setWidth_append_eq_shiftLeft_setWidth_or, setWidth_ushiftRight x h]

theorem extractLsb'_extractLsb'_of_add_le {w : Nat} (x : BitVec w) {k n j m : Nat} (h : j + m ≤ n) :
    (x.extractLsb' k n).extractLsb' j m = x.extractLsb' (k + j) m := by
  ext i hi
  have hin : j + i < n := by omega
  simp [hin, Nat.add_assoc]

theorem toNat_append_eq_mul_add {m n : Nat} (x : BitVec m) (y : BitVec n) :
    (x ++ y).toNat = x.toNat * 2 ^ n + y.toNat := by
  rw [BitVec.toNat_append, ← Nat.shiftLeft_add_eq_or_of_lt y.isLt, Nat.shiftLeft_eq]

theorem toNat_highBits {w k : Nat} (x : BitVec w) (hk : k ≤ w) :
    (x.extractLsb' k (w - k)).toNat = x.toNat / 2 ^ k := by
  have hlt : x.toNat / 2 ^ k < 2 ^ (w - k) := by
    rw [Nat.div_lt_iff_lt_mul (by positivity), ← pow_add, Nat.sub_add_cancel hk]
    exact x.isLt
  rw [BitVec.extractLsb'_toNat, Nat.shiftRight_eq_div_pow, Nat.mod_eq_of_lt hlt]

end Sys2Proof.Laws
end

section
/-! The functions `pack` and `unpack` by lanes, and the commands PACK and UNPACK (40_codec.md R110 to R113). -/

namespace Sys2Proof.Machine
open Laws

/-! ### The lanes of a packed colour -/

theorem pack_eq_append (c : RGB) :
    pack c = c.r.extractLsb' 3 5 ++ c.g.extractLsb' 2 6 ++ c.b.extractLsb' 3 5 := by
  have hr : (c.r >>> 3 &&& 0x1F#8).setWidth 16 = (c.r.extractLsb' 3 5).setWidth 16 :=
    setWidth_ushiftRight_and_lowMask c.r 3 5 16 (by omega)
  have hg : (c.g >>> 2 &&& 0x3F#8).setWidth 16 = (c.g.extractLsb' 2 6).setWidth 16 :=
    setWidth_ushiftRight_and_lowMask c.g 2 6 16 (by omega)
  have hb : (c.b >>> 3 &&& 0x1F#8).setWidth 16 = (c.b.extractLsb' 3 5).setWidth 16 :=
    setWidth_ushiftRight_and_lowMask c.b 3 5 16 (by omega)
  rw [← BitVec.setWidth_eq (_ ++ _), BitVec.setWidth_append_append_eq_shiftLeft_setWidth_or, pack, hr, hg, hb]

/-- Settles O9: the joined lanes are the joined high bits, and each high part is the channel's quotient. -/
theorem packLanes : Obligations.PackLanes := by
  refine fun c => ⟨pack_eq_append c, ?_⟩
  have hr : (c.r.extractLsb' 3 5).toNat = c.r.toNat / 2 ^ 3 := toNat_highBits c.r (by omega)
  have hg : (c.g.extractLsb' 2 6).toNat = c.g.toNat / 2 ^ 2 := toNat_highBits c.g (by omega)
  have hb : (c.b.extractLsb' 3 5).toNat = c.b.toNat / 2 ^ 3 := toNat_highBits c.b (by omega)
  rw [pack_eq_append, toNat_append_eq_mul_add, toNat_append_eq_mul_add, hr, hg, hb]
  omega

/-! ### The lanes of an expanded colour -/

/-- A five-bit lane expanded to a byte: its three high bits fill the vacated bits. -/
theorem expand_five (x : BitVec 5) : (x.setWidth 8 <<< 3) ||| (x.setWidth 8 >>> 2) = x ++ x.extractLsb' 2 3 :=
  (shiftLeft_or_ushiftRight_eq_append x (by omega) 2).trans (BitVec.setWidth_eq _)

/-- A six-bit lane expanded to a byte: its two high bits fill the vacated bits. -/
theorem expand_six (x : BitVec 6) : (x.setWidth 8 <<< 2) ||| (x.setWidth 8 >>> 4) = x ++ x.extractLsb' 4 2 :=
  (shiftLeft_or_ushiftRight_eq_append x (by omega) 4).trans (BitVec.setWidth_eq _)

theorem unpack_eq_append (v : Half) :
    unpack v = ⟨v.extractLsb' 11 5 ++ v.extractLsb' 13 3, v.extractLsb' 5 6 ++ v.extractLsb' 9 2,
      v.extractLsb' 0 5 ++ v.extractLsb' 2 3⟩ := by
  have hr : ((v >>> 11) &&& 0x1F#16).setWidth 8 = (v.extractLsb' 11 5).setWidth 8 :=
    setWidth_ushiftRight_and_lowMask v 11 5 8 (by omega)
  have hg : ((v >>> 5) &&& 0x3F#16).setWidth 8 = (v.extractLsb' 5 6).setWidth 8 :=
    setWidth_ushiftRight_and_lowMask v 5 6 8 (by omega)
  have hb : (v &&& 0x1F#16).setWidth 8 = (v.extractLsb' 0 5).setWidth 8 := by
    simpa using setWidth_ushiftRight_and_lowMask v 0 5 8 (by omega)
  rw [unpack, hr, hg, hb, expand_five, expand_six, expand_five]
  simp only [extractLsb'_extractLsb'_of_add_le, Nat.reduceAdd, Nat.reduceLeDiff]

/-- Settles O10: each lane is cut out of `v` and expanded, and a lane's high bits are bits of `v`. -/
theorem unpackReplicatesHighBits : Obligations.UnpackReplicatesHighBits := unpack_eq_append

/-! ### The commands -/

/-- The `RGB24` of a colour in a register is laid out as its colour word (00_scope.md R14, 30_encoding.md R83). -/
theorem setWidth_rgb24 (c : RGB) : (rgb24 c).setWidth 32 = 0#8 ++ c.r ++ c.g ++ c.b := by
  rw [rgb24, BitVec.setWidth_eq_append (by omega), BitVec.append_assoc', BitVec.append_assoc']
  rfl

theorem exec_pack (c : RGB) (s : State) :
    exec (.pack c) s = .next ({ s with d0 := some ((pack c).setWidth 32) }.succeeded 1) := rfl

theorem exec_unpack (v : Half) (s : State) :
    exec (.unpack v) s =
      .next ({ s with d0 := some (0#8 ++ (unpack v).r ++ (unpack v).g ++ (unpack v).b) }.succeeded 1) := by
  rw [← setWidth_rgb24]
  rfl

/-- A head word with op 0x02 is legal only with zero bits 23:16 (R87). -/
theorem legalHead_unpack_iff {w : Word} (hop : w.extractLsb' 24 8 = 0x02#8) :
    LegalHead w ↔ w.extractLsb' 16 8 = 0#8 := by
  simp [LegalHead, hop]

/-- Settles O12: a PACK word is the encoding of PACK, whatever words follow. -/
theorem packCommand : Obligations.PackCommand :=
  ⟨fun c => decode_encode_append (i := .pack c) rfl, exec_pack, by decide⟩

/-- Settles O13: an UNPACK word is the encoding of UNPACK, and no other word with its op is legal. -/
theorem unpackCommand : Obligations.UnpackCommand :=
  ⟨fun v => decode_encode_append (i := .unpack v) rfl,
    fun w rest hop hbits => (decode_cons_eq_illegal_one w rest).mpr (mt (legalHead_unpack_iff hop).mp hbits),
    exec_unpack, by decide⟩

end Sys2Proof.Machine
end

section
/-! The orientation maps: where `rotate` moves an entry, and the tables as bijections (41_mapper.md R121, R125). -/

namespace Sys2Proof.Machine

/-! ### Entries of the grid -/

theorem gridAt_of_lt {α : Type} (m : Vector α 64) {r c : Nat} (hr : r < 8) (hc : c < 8) :
    gridAt m r c = m.get (Fin.ofNat 64 (r * 8 + c)) := by
  rw [gridAt, Nat.mod_eq_of_lt hr, Nat.mod_eq_of_lt hc]

/-- The row and column from which a rotation by `d` brings the entry at row `r`, column `c`. -/
def Rotation.source (d : Rotation) (r c : Nat) : Nat × Nat :=
  match d with
  | .r0 => (r, c)
  | .r90 => (7 - c, r)
  | .r180 => (7 - r, 7 - c)
  | .r270 => (c, 7 - r)

theorem rotate_get_cell {α : Type} (m : Vector α 64) (d : Rotation) {r c : Nat} (hr : r < 8) (hc : c < 8) :
    (rotate m d).get (Fin.ofNat 64 (r * 8 + c)) = m.get (Fin.ofNat 64 ((d.source r c).1 * 8 + (d.source r c).2)) := by
  have hrow : (r * 8 + c) % 64 / 8 = r := by omega
  have hcol : (r * 8 + c) % 64 % 8 = c := by omega
  have hsource : (d.source r c).1 < 8 ∧ (d.source r c).2 < 8 := by cases d <;> simp [Rotation.source] <;> omega
  rw [← gridAt_of_lt m hsource.1 hsource.2]
  cases d <;> simp only [rotate, Vector.get_ofFn, Fin.val_ofNat, hrow, hcol, Rotation.source]

/-- Settles O14: each clause reads the rotated map at the entry's new place, whose source is the old one. -/
theorem rotateMovesEntries : Obligations.RotateMovesEntries := by
  intro α m r c
  have hr : 7 - (7 - r.val) = r.val := by omega
  have hc : 7 - (7 - c.val) = c.val := by omega
  refine ⟨rotate_get_cell m .r0 r.isLt c.isLt, ?_, ?_, ?_⟩
  · rw [rotate_get_cell m .r90 c.isLt (by omega), Rotation.source, hr]
  · rw [rotate_get_cell m .r180 (by omega) (by omega), Rotation.source, hr, hc]
  · rw [rotate_get_cell m .r270 (by omega) r.isLt, Rotation.source, hc]

/-! ### The tables -/

theorem omapTables_get_injective (s : Fin 4) : Function.Injective fun L => ((omapTables.get s).get L).toFin := by
  intro L L' h
  have hget : (omapTables.get s).get L = (omapTables.get s).get L' := BitVec.eq_of_toFin_eq h
  exact Fin.ext (((omapTables_injective s).getElem_inj_iff (hi := by simp) (hj := by simp)).mp hget)

/-- Settles O17: a table without a repeated entry, from 64 indexes into 64 values, is a bijection. -/
theorem omapBijections : Obligations.OmapBijections := by
  intro s P
  have hbij := Finite.injective_iff_bijective.mp (omapTables_get_injective s)
  exact (existsUnique_congr fun L => BitVec.toFin_inj).mp (hbij.existsUnique P.toFin)

end Sys2Proof.Machine
end

section
/-! The rotation selector, and every command that comes to it with an unsupported rotation (41_mapper.md R127, R128); the
commands SETROT and MAPXY (R128, R131). -/

namespace Sys2Proof.Machine
open Laws

/-- Settles O18: the three cases of `selectTable`, each proved with the operand forms. -/
theorem rotationSelector : Obligations.RotationSelector :=
  ⟨by decide, fun _ => sel_unsupported, fun _ _ => selectTable_rotated, fun _ _ => selectTable_unsupported,
    fun _ => selectTable_none⟩

/-! ### MAPXY -/

theorem finish_invalidRotation {α : Type} (len : Nat) (n : Results) (f : α → State → State) (s : State) :
    (Res.err .invalidRotation 0 s : Res α).finish len n f = .next ((s.dropResults n).errored 3 0 len) :=
  finish_err len n f .invalidRotation 0 s

theorem exec_mapxy (x y : Byte) (s : State) :
    exec (.mapxy x y) s = (address x y s).finish 1 .d0d1 fun p t =>
      { t with d0 := some (p.setWidth 32), d1 := some (BitVec.ofNat 32 (byteOffset p)) } := rfl

theorem exec_mapxy_unsupported {x y : Byte} {s : State} {r : Half} (hg : OnGrid x y) (h : s.rot = some r)
    (hu : Unsupported r) : exec (.mapxy x y) s = .next ({ s with d0 := none, d1 := none }.errored 3 0 1) := by
  rw [exec_mapxy, address_unsupported hg h hu, finish_invalidRotation, State.dropResults]

/-- Settles O20: each outcome of the address computation, completed. -/
theorem mapxyCommand : Obligations.MapxyCommand := by
  refine ⟨fun x y => decode_encode_append (i := .mapxy x y) rfl, fun x y s k L hg hr hL => ?_, fun x y s hg => ?_,
    fun _ _ _ _ => exec_mapxy_unsupported, fun x y s hg hr => ?_⟩
  · rw [exec_mapxy, address_ok hg hr hL, finish_ok]
    rfl
  · rw [exec_mapxy, address_offGrid hg, finish_err]
    rfl
  · rw [exec_mapxy, address_none hg hr, finish_unwritten]

/-! ### Commands under an unsupported rotation -/

theorem writeFrame_unsupported (cs : List RGB) {s : State} {r : Half} (h : s.rot = some r) (hu : Unsupported r) :
    writeFrame cs s = .err .invalidRotation 0 s := by
  rw [writeFrame, selectTable_unsupported h hu, bind_err]

/-- LDIMG with redraw raises InvalidRotation after it opened and sampled the image. -/
theorem exec_ldimg_unsupported (src : Half) {s : State} {r : Half} (himg : s.imgAnswer = .ok) (h : s.rot = some r)
    (hu : Unsupported r) :
    ∃ u : State, PortStep s u ∧ exec (.ldimg src true) s = .next ((u.dropResults .pbuf).errored 3 0 1) := by
  obtain ⟨v, fc, u, hstate, -, hexec⟩ := execLdimg_sampled src true himg
  have hport : PortStep s u := by
    rw [hstate]
    constructor
    case trace => exact ⟨_, rfl⟩
    all_goals rfl
  refine ⟨u, hport, hexec.trans ?_⟩
  rw [if_pos rfl, writeFrame_unsupported _ (hport.rot.trans h) hu, bind_err, finish_invalidRotation]

/-- A command that comes to its read of `ROT` while it holds an unsupported value raises InvalidRotation; `u` is the
state at that read. -/
theorem exec_unsupported {i : Instr} {s : State} {r : Half} (hn : NeedsRotation i s) (h : s.rot = some r)
    (hu : Unsupported r) :
    ∃ u : State, PortStep s u ∧ exec i s = .next ((u.dropResults (named i)).errored 3 0 i.words) := by
  cases i with
  | mapxy x y => exact ⟨s, .refl s, exec_mapxy_unsupported hn h hu⟩
  | getpixel x y =>
    refine ⟨s, .refl s, ?_⟩
    rw [exec, execGetpixel, address_unsupported hn h hu, bind_err, finish_invalidRotation]
    rfl
  | setpixel x y c =>
    refine ⟨s, .refl s, ?_⟩
    rw [exec, execSetpixel, address_unsupported hn h hu, bind_err, finish_invalidRotation]
    rfl
  | setpixels cs =>
    have hlen : cs.length = 64 := hn
    refine ⟨s, .refl s, ?_⟩
    rw [exec, execSetpixels, if_pos hlen, writeFrame_unsupported cs h hu, finish_invalidRotation]
    rfl
  | getpixels =>
    refine ⟨s, .refl s, ?_⟩
    rw [exec, execGetpixels, selectTable_unsupported h hu, bind_err, finish_invalidRotation]
    rfl
  | clear c =>
    refine ⟨s, .refl s, ?_⟩
    rw [exec, execClear, writeFrame_unsupported _ h hu, finish_invalidRotation]
    rfl
  | ldimg src redraw =>
    obtain ⟨rfl, himg⟩ := hn
    exact exec_ldimg_unsupported src himg h hu
  | pack | unpack | setrot | setgain | setinteg | enable | getraw | maxraw | torgb => exact hn.elim

/-! ### SETROT -/

/-- The examples of R128, 45, 360 and -90, are not reduced to a supported rotation. -/
theorem unsupported_examples : ∀ r ∈ [45#16, 360#16, 0xFFA6#16], Unsupported r := by
  intro r hr
  simp only [List.mem_cons, List.not_mem_nil, or_false] at hr
  rcases hr with rfl | rfl | rfl <;> decide

/-- Settles O19: SETROT writes `ROT` whatever the value, and the examples of R128 are unsupported. -/
theorem setrotCommand : Obligations.SetrotCommand := by
  refine ⟨fun deg => decode_encode_append (i := .setrot deg) rfl, fun _ _ => rfl,
    fun x y s r hr hrot hg => exec_mapxy_unsupported hg hrot (unsupported_examples r hr), ?_⟩
  intro i s t r hr hrot hn hexec
  obtain ⟨u, -, hu⟩ := exec_unsupported hn hrot (unsupported_examples r hr)
  rw [← Host.Outcome.next.inj (hu.symm.trans hexec)]
  rfl

end Sys2Proof.Machine
end

section
/-! One access to the framebuffer between acquire and release; the address computation and the commands GETPIXEL and
SETPIXEL (42_frame.md R140 to R144). -/

namespace Sys2Proof.Machine
open Laws

/-- Settles O21: the four cases of the address computation, and the bound of a byte offset. -/
theorem addressComputation : Obligations.AddressComputation := by
  refine ⟨fun _ _ _ => address_offGrid, fun _ _ _ _ => address_unsupported, fun _ _ _ => address_none, ?_,
    fun P => ⟨rfl, (byteOffset_bound P).2⟩⟩
  intro x y s k hg hr
  obtain ⟨hx, hy⟩ := onGrid_toNat hg
  exact ⟨⟨y.toNat * 8 + x.toNat, by omega⟩, rfl, address_ok hg hr rfl⟩

theorem byteOffset_get (s : State) (k : Fin 4) (L : Fin 64) : byteOffset ((s.omap.get k).get L) = s.offsetOf k L := rfl

/-! ### One access between acquire and release (R54, R56, R57) -/

theorem finish_deviceIOError {α : Type} (len : Nat) (n : Results) (f : α → State → State) (c : Word) (s : State) :
    (Res.err .deviceIOError c s : Res α).finish len n f = .next ((s.dropResults n).errored 4 c len) :=
  finish_err len n f .deviceIOError c s

theorem withFb_memRead_ok {s : State} (off : Nat) (h0 : s.fbAnswer 0 = .ok) (h1 : s.fbAnswer 1 = .ok) :
    withFb (memRead off) s = .ok (s.cellAt off)
      (s.fbUsed 2 [.fbAcquire (.ok ()), .fbRead off (.ok (s.cellAt off)), .fbRelease]) := by
  rw [withFb_ok h0, memRead_ok off (by rwa [fbUsed_fbAnswer]), release_ok, fbUsed_fbUsed, fbRelease_fbUsed]
  rfl

theorem withFb_memRead_fail {s : State} (off : Nat) {c : Word} (h0 : s.fbAnswer 0 = .ok) (h1 : s.fbAnswer 1 = .fail c) :
    withFb (memRead off) s =
      .err .deviceIOError c (s.fbUsed 2 [.fbAcquire (.ok ()), .fbRead off (.fail c), .fbRelease]) := by
  rw [withFb_ok h0, memRead_fail off (by rwa [fbUsed_fbAnswer]), release_err, fbUsed_fbUsed, fbRelease_fbUsed]
  rfl

theorem withFb_memWrite_ok {s : State} (off : Nat) (v : Half) (h0 : s.fbAnswer 0 = .ok) (h1 : s.fbAnswer 1 = .ok) :
    withFb (memWrite off v) s = .ok () ({ s with mem := memSetCell s.mem off v }.fbUsed 2
      [.fbAcquire (.ok ()), .fbWrite off v (.ok ()), .fbRelease]) := by
  rw [withFb_ok h0, memWrite_ok off v (by rwa [fbUsed_fbAnswer]), release_ok, fbRelease_fbUsed]
  simp [State.fbUsed]

theorem withFb_memWrite_fail {s : State} (off : Nat) (v : Half) {c : Word} (h0 : s.fbAnswer 0 = .ok)
    (h1 : s.fbAnswer 1 = .fail c) :
    withFb (memWrite off v) s = .err .deviceIOError c ((s.spoilCell off).fbUsed 2
      [.fbAcquire (.ok ()), .fbWrite off v (.fail c), .fbRelease]) := by
  rw [withFb_ok h0, memWrite_fail off v (by rwa [fbUsed_fbAnswer]), release_err, fbRelease_fbUsed]
  simp [State.fbUsed, State.spoilCell]

/-! ### GETPIXEL -/

theorem exec_getpixel (x y : Byte) (s : State) :
    exec (.getpixel x y) s = ((address x y s).bind fun p t => withFb (memRead (byteOffset p)) t).finish 1 .d0 fun v t =>
      { t with d0 := some ((rgb24 (unpack v)).setWidth 32) } := rfl

/-- Both validation errors of R140 end GETPIXEL before the port, `D0` without a value. -/
theorem exec_getpixel_invalid {x y : Byte} {s : State} {k : ErrKind} (h : address x y s = .err k 0 s) :
    exec (.getpixel x y) s = .next ({ s with d0 := none }.errored k.code.toNat 0 1) := by
  rw [exec_getpixel, h, bind_err, finish_err, ite_self, State.dropResults]

/-- Settles O22: the outcomes of the address computation, then the answers of the port at the cell's offset. -/
theorem getpixelCommand : Obligations.GetpixelCommand := by
  refine ⟨fun x y => decode_encode_append (i := .getpixel x y) rfl,
    fun x y s hg => exec_getpixel_invalid (address_offGrid hg),
    fun x y s r hg hr hu => exec_getpixel_invalid (address_unsupported hg hr hu), fun x y s hg hr => ?_,
    fun x y s k L hg hr hL => ?_⟩
  · rw [exec_getpixel, address_none hg hr, bind_unwritten, finish_unwritten]
  · rw [exec_getpixel, address_ok hg hr hL, bind_ok, byteOffset_get]
    refine ⟨fun h0 h1 => ?_, fun c hc => ?_, fun c h0 hc => ?_⟩
    · rw [withFb_memRead_ok _ h0 h1, finish_ok]
      rfl
    · rw [withFb_fail hc, finish_deviceIOError]
      rfl
    · rw [withFb_memRead_fail _ h0 hc, finish_deviceIOError]
      rfl

/-! ### SETPIXEL -/

theorem memGet_memSetCell_lo {m : Memory} (hwf : m.wf) (off : Nat) (v : Half) :
    memGet (memSetCell m off v) off = cellLo v := by
  rw [memSetCell, memGet_memSet_other _ _ (by omega), memGet_memSet_same hwf]

theorem memGet_memSetCell_hi {m : Memory} (hwf : m.wf) (off : Nat) (v : Half) :
    memGet (memSetCell m off v) (off + 1) = cellHi v := by
  rw [memSetCell, memGet_memSet_same (memSet_wf hwf _ _)]

/-- A failed write leaves every byte outside its cell alone. -/
theorem byteAt_spoilCell_other (s : State) {off a : Nat} (h0 : a ≠ off) (h1 : a ≠ off + 1) :
    (s.spoilCell off).byteAt a = s.byteAt a := by
  rw [State.byteAt, State.spoilCell, memGet_memSet_other _ _ h1, memGet_memSet_other _ _ h0, State.byteAt]

theorem exec_setpixel (x y : Byte) (c : RGB) (s : State) :
    exec (.setpixel x y c) s = ((address x y s).bind fun p t =>
      withFb (memWrite (byteOffset p) (pack c)) t).finish 2 .nothing fun _ t => t := rfl

/-- Both validation errors of R140 end SETPIXEL before the port. -/
theorem exec_setpixel_invalid {x y : Byte} (c : RGB) {s : State} {k : ErrKind} (h : address x y s = .err k 0 s) :
    exec (.setpixel x y c) s = .next (s.errored k.code.toNat 0 2) := by
  rw [exec_setpixel, h, bind_err, finish_err, ite_self, dropResults_nothing]

/-- Settles O23: the outcomes of the address computation, then the answers of the port; a write, done or failed, reaches
the two bytes of its cell alone. -/
theorem setpixelCommand : Obligations.SetpixelCommand := by
  refine ⟨fun x y c => decode_encode_append (i := .setpixel x y c) rfl,
    fun x y c s hg => exec_setpixel_invalid c (address_offGrid hg),
    fun x y c s r hg hr hu => exec_setpixel_invalid c (address_unsupported hg hr hu),
    fun x y c s k L hwf hg hr hL => ?_⟩
  rw [exec_setpixel, address_ok hg hr hL, bind_ok, byteOffset_get]
  refine ⟨fun h0 h1 => ?_, fun e he => ?_, fun e h0 he => ?_⟩
  · rw [withFb_memWrite_ok _ _ h0 h1, finish_ok]
    exact ⟨_, rfl, memGet_memSetCell_lo hwf _ _, memGet_memSetCell_hi hwf _ _,
      fun _ => memGet_memSetCell_other s.mem (pack c), rfl⟩
  · rw [withFb_fail he, finish_deviceIOError, dropResults_nothing]
  · rw [withFb_memWrite_fail _ _ h0 he, finish_deviceIOError]
    exact ⟨_, rfl, fun _ => byteAt_spoilCell_other s, rfl⟩

end Sys2Proof.Machine
end

section
/-! The command GETPIXELS (42_frame.md R147). -/

namespace Sys2Proof.Machine
open Laws

/-! ### The reads of a frame between acquire and release -/

theorem withFb_readFrame_ok {s : State} (k : Fin 4) (h : ∀ n < 65, s.fbAnswer n = .ok) :
    withFb (readCells (frameOffsets (s.omap.get k))) s = .ok ((frameOffsets (s.omap.get k)).map (memCell s.mem))
      (s.fbUsed 65 ([.fbAcquire (.ok ())] ++
        ((List.finRange 64).map fun L => Event.fbRead (s.offsetOf k L) (.ok (s.cellAt (s.offsetOf k L)))) ++
        [.fbRelease])) := by
  have hreads : ∀ n < (frameOffsets (s.omap.get k)).length,
      (s.fbUsed 1 [Event.fbAcquire (.ok ())]).fbAnswer n = .ok := by
    intro n hn
    rw [frameOffsets_length] at hn
    rw [fbUsed_fbAnswer]
    exact h _ (by omega)
  rw [withFb_ok (h 0 (by omega)), readCells_ok hreads, release_ok, fbUsed_fbUsed, fbRelease_fbUsed, frameOffsets_length,
    readEvents_frameOffsets]
  rfl

/-- The read of logical cell `n` fails after those of the cells before it answered ok. -/
theorem withFb_readFrame_fail {s : State} (k : Fin 4) (n : Fin 64) {c : Word} (h : ∀ m ≤ n.val, s.fbAnswer m = .ok)
    (hf : s.fbAnswer (n.val + 1) = .fail c) :
    withFb (readCells (frameOffsets (s.omap.get k))) s = .err .deviceIOError c
      (s.fbUsed (n.val + 2) ([.fbAcquire (.ok ())] ++
        (((List.finRange 64).take n.val).map fun L =>
          Event.fbRead (s.offsetOf k L) (.ok (s.cellAt (s.offsetOf k L)))) ++
        [.fbRead (s.offsetOf k n) (.fail c), .fbRelease])) := by
  have hlen : ((frameOffsets (s.omap.get k)).take n.val).length = n.val := by simp
  have hreads : ∀ m < ((frameOffsets (s.omap.get k)).take n.val).length,
      (s.fbUsed 1 [Event.fbAcquire (.ok ())]).fbAnswer m = .ok := by
    intro m hm
    rw [fbUsed_fbAnswer]
    exact h _ (by omega)
  have hfail : (s.fbUsed 1 [Event.fbAcquire (.ok ())]).fbAnswer ((frameOffsets (s.omap.get k)).take n.val).length =
      .fail c := by
    rw [fbUsed_fbAnswer, hlen, Nat.add_comm, hf]
  have hmem : (s.fbUsed 1 [Event.fbAcquire (.ok ())]).mem = s.mem := rfl
  have hcount : 1 + (n.val + 1) = n.val + 2 := by omega
  conv in readCells _ => rw [frameOffsets_split s k n]
  rw [withFb_ok (h 0 (by omega)), readCells_fail hreads hfail, release_err, fbUsed_fbUsed, fbRelease_fbUsed, hlen, hmem,
    readEvents_take, hcount]
  simp only [List.append_assoc, List.cons_append, List.nil_append]

theorem exec_getpixels (s : State) :
    exec .getpixels s = ((selectTable s).bind fun tbl t => withFb (readCells (frameOffsets tbl)) t).finish 1 .pbuf
      fun vs t => t.setPixels (vs.map unpack) := rfl

/-- The pixel sequence that the values read from a frame give: entry `L` is the colour of logical cell `L` (R29). -/
theorem setPixels_frame_get (s : State) (k : Fin 4) (L : Fin 64) :
    (s.setPixels (((frameOffsets (s.omap.get k)).map (memCell s.mem)).map unpack)).pbuf.get L =
      some (rgb24 (unpack (s.cellAt (s.offsetOf k L)))) := by
  rw [setPixels_get, List.getElem?_eq_getElem (by simp), List.getElem_map, List.getElem_map, getElem_frameOffsets,
    byteOffset_get]
  rfl

/-- Settles O27: the selector, then the acquire, then the reads in logical order. -/
theorem getpixelsCommand : Obligations.GetpixelsCommand := by
  refine ⟨decode_encode_append (i := .getpixels) rfl, fun s r hr hu => ?_, fun s k hr => ?_⟩
  · rw [exec_getpixels, selectTable_unsupported hr hu, bind_err, finish_invalidRotation]
    rfl
  · rw [exec_getpixels, selectTable_rotated hr, bind_ok]
    refine ⟨fun h => ?_, fun c hc => ?_, fun n hn c h hc => ?_⟩
    · rw [withFb_readFrame_ok k h, finish_ok]
      exact ⟨_, rfl, setPixels_frame_get s k, rfl⟩
    · rw [withFb_fail hc, finish_deviceIOError]
      rfl
    · rw [withFb_readFrame_fail k ⟨n, hn⟩ h hc, finish_deviceIOError]
      rfl

end Sys2Proof.Machine
end

section
/-! The commands that set up the sensor: SETGAIN, SETINTEG, ENABLE (43_sensor.md R174, R176, R180). -/

namespace Sys2Proof.Machine
open Laws

/-! ### SETGAIN (R174) -/

theorem exec_setgain_unknown {level : Half} {s : State} (h : ∀ p ∈ s.cfg.gainTable, (p.1 : Int) ≠ level.toInt) :
    exec (.setgain level) s = .next (s.errored 5 0 1) := by
  rw [exec, execSetgain, codeOfGain_none h]
  rfl

theorem exec_setgain_known {level : Half} {s : State} {code : Byte}
    (h : codeOfGain s.cfg.gainTable level.toInt = some code) :
    exec (.setgain level) s =
      (busWrite regGain code s).finish 1 .nothing fun _ t => { t with gain := some level } := by
  rw [exec, execSetgain, h]

/-- Settles O35: the two results of the table lookup, then the two answers to the one write. -/
theorem setgainCommand : Obligations.SetgainCommand := by
  refine ⟨fun level => decode_encode_append (i := .setgain level) rfl, fun _ _ => exec_setgain_unknown,
    fun level s g code hwf hmem hg => ?_⟩
  rw [exec_setgain_known (codeOfGain_some hwf hmem hg)]
  refine ⟨fun hok => ?_, fun e hfail => ?_⟩
  · rw [busWrite_ok _ _ hok, finish_ok]
    rfl
  · rw [busWrite_fail _ _ hfail, finish_deviceIOError]
    rfl

/-! ### SETINTEG (R176) -/

theorem cyclesOk_iff (c : Half) : cyclesOk c = true ↔ 1 ≤ c.toInt ∧ c.toInt ≤ 256 := by
  rw [cyclesOk, decide_eq_true_iff]

/-- A cycle count that is not negative is the same number signed and unsigned. -/
theorem integCode_eq_ofInt {c : Half} (h : 1 ≤ c.toInt) (h' : c.toInt ≤ 256) :
    integCode c = BitVec.ofInt 8 (256 - c.toInt) := by
  have hint : c.toInt = c.toNat := by
    have hcond := BitVec.toInt_eq_toNat_cond c
    split at hcond <;> omega
  have hsub : (256 : Int) - c.toInt = ((256 - c.toNat : Nat) : Int) := by omega
  rw [hsub, BitVec.ofInt_natCast, integCode]

theorem exec_setinteg_outside {cycles : Half} {s : State} (h : ¬ (1 ≤ cycles.toInt ∧ cycles.toInt ≤ 256)) :
    exec (.setinteg cycles) s = .next (s.errored 6 0 1) := by
  rw [exec, execSetinteg, if_neg (mt (cyclesOk_iff cycles).mp h)]
  rfl

theorem exec_setinteg_inside {cycles : Half} {s : State} (h : 1 ≤ cycles.toInt) (h' : cycles.toInt ≤ 256) :
    exec (.setinteg cycles) s =
      (busWrite regIntegration (BitVec.ofInt 8 (256 - cycles.toInt)) s).finish 1 .nothing fun _ t =>
        delay t.cfg.settleIntegUs.toNat { t with cycles := some cycles, timing := some t.cfg.settleIntegUs } := by
  rw [exec, execSetinteg, if_pos ((cyclesOk_iff cycles).mpr ⟨h, h'⟩), integCode_eq_ofInt h h']

/-- The registers written after bus requests, and a delay, are those requests and the delay from a state that already
holds the registers. -/
theorem delay_busUsed_registers (s : State) (n : Nat) (es : List Event) (us : Nat) (c : Option Half) (w : Option Word) :
    delay us { s.busUsed n es with cycles := c, timing := w } =
      { s with cycles := c, timing := w }.busUsed n (es ++ [Event.delay us]) :=
  delay_busUsed { s with cycles := c, timing := w } n es us

/-- Settles O36: the range check, then the two answers to the one write; the registers and the delay follow an ok. -/
theorem setintegCommand : Obligations.SetintegCommand := by
  refine ⟨fun cycles => decode_encode_append (i := .setinteg cycles) rfl, fun _ _ => exec_setinteg_outside,
    fun cycles s h h' => ?_⟩
  rw [exec_setinteg_inside h h']
  refine ⟨fun hok => ?_, fun e hfail => ?_⟩
  · rw [busWrite_ok _ _ hok, finish_ok, delay_busUsed_registers]
    rfl
  · rw [busWrite_fail _ _ hfail, finish_deviceIOError]
    rfl

/-! ### ENABLE (R180) -/

theorem exec_enable_false (s : State) :
    exec (.enable false) s = (busWrite regEnable 0 s).finish 1 .nothing fun _ t => t := rfl

theorem exec_enable_true (s : State) :
    exec (.enable true) s = ((busWrite regEnable s.cfg.enPon s).bind fun _ t =>
      busWrite regEnable (t.cfg.enPon ||| t.cfg.enAen) (delay t.cfg.settlePonUs t)).finish 1 .nothing fun _ t => t := rfl

/-- After an ok to its first write ENABLE 1 is the second write, which sees the delay behind it. -/
theorem exec_enable_true_of_ok {s : State} (h : s.busAnswer 0 = .ok) :
    exec (.enable true) s = (busWrite regEnable (s.cfg.enPon ||| s.cfg.enAen) (s.busUsed 1
      [.busWrite s.cfg.sensorAddr regEnable s.cfg.enPon (.ok ()), .delay s.cfg.settlePonUs])).finish 1 .nothing
        fun _ t => t := by
  rw [exec_enable_true, busWrite_ok _ _ h, bind_ok, delay_busUsed]
  rfl

/-- Settles O37: the answers to the first write, then, for ENABLE 1, those to the second. -/
theorem enableCommand : Obligations.EnableCommand := by
  refine ⟨fun on rest => ?_, fun s => ⟨fun h0 h1 => ?_, fun h0 => ?_, fun e h0 => ⟨?_, ?_⟩, fun e h0 h1 => ?_⟩⟩
  · have hword : (if on then 0x32000001#32 else 0x32000000#32) = 0x19000000#31 ++ BitVec.ofBool on := by
      cases on <;> rfl
    rw [hword]
    exact decode_encode_append (i := .enable on) rfl rest
  · rw [exec_enable_true_of_ok h0, busWrite_ok _ _ (by rwa [busUsed_busAnswer]), finish_ok, busUsed_busUsed]
    rfl
  · rw [exec_enable_false, busWrite_ok _ _ h0, finish_ok]
    rfl
  · rw [exec_enable_true, busWrite_fail _ _ h0, bind_err, finish_deviceIOError]
    rfl
  · rw [exec_enable_false, busWrite_fail _ _ h0, finish_deviceIOError]
    rfl
  · rw [exec_enable_true_of_ok h0, busWrite_fail _ _ (by rwa [busUsed_busAnswer]), finish_deviceIOError,
      busUsed_busUsed]
    rfl

end Sys2Proof.Machine
end

section
/-! The sensor's pure functions and the commands that compute with them: MAXRAW, TORGB, and the reverse gain lookup
(43_sensor.md R172, R185 to R188). -/

namespace Sys2Proof.Machine
open Laws

/-! ### MAXRAW (R186) -/

theorem readCycles_some {s : State} {c : Half} (h : s.cycles = some c) : readCycles s = .ok c s := by
  rw [readCycles, h]

theorem readCycles_none {s : State} (h : s.cycles = none) : readCycles s = .unwritten s := by
  rw [readCycles, h]

theorem exec_maxraw (s : State) :
    exec .maxraw s = (readCycles s).finish 1 .d0 fun c t => { t with d0 := some (maxRawAt t.cfg c) } := rfl

/-- `MAX_RAW` of the cycle count `n + 1` is the entry `n` of the configuration (R185). -/
theorem maxRawAt_ofNat_succ (cfg : Config) (n : Fin 256) :
    maxRawAt cfg (BitVec.ofNat 16 (n.val + 1)) = cfg.maxRaw.get n := by
  have hval : (BitVec.ofNat 16 (n.val + 1)).toNat = n.val + 1 := by
    rw [BitVec.toNat_ofNat, Nat.mod_eq_of_lt (by omega)]
  have hin : 1 ≤ (BitVec.ofNat 16 (n.val + 1)).toNat ∧ (BitVec.ofNat 16 (n.val + 1)).toNat ≤ 256 := by omega
  rw [maxRawAt, dif_pos hin]
  exact congrArg cfg.maxRaw.get (Fin.ext (by simp only [hval, Nat.add_sub_cancel]))

/-- Settles O39: the two results of reading `CYCLES`, and the entries of `MAX_RAW`. -/
theorem maxrawCommand : Obligations.MaxrawCommand := by
  refine ⟨decode_encode_append (i := .maxraw) rfl, fun s c hc => ?_, fun s => maxRawAt_ofNat_succ s.cfg,
    fun s hnone => ?_⟩
  · rw [exec_maxraw, readCycles_some hc, finish_ok]
  · rw [exec_maxraw, readCycles_none hnone, finish_unwritten]

/-! ### TORGB (R188) -/

theorem exec_torgb (red green blue clear : Half) (s : State) :
    exec (.torgb red green blue clear) s = ((readCycles s).bind fun c t =>
      if scalingOf t.cfg c = 0 then .err .sensorRangeError 0 t else .ok (scalingOf t.cfg c) t).finish 3 .d0d1d2
        fun k t => { t with d0 := some (scaled red k), d1 := some (scaled green k), d2 := some (scaled blue k) } := rfl

theorem scalingOf_eq_zero_iff (cfg : Config) (c : Half) : scalingOf cfg c = 0 ↔ (maxRawAt cfg c).toNat < 256 := by
  rw [scalingOf]
  omega

/-- A channel divided by any scaling fits its register, so no bit of the quotient is lost. -/
theorem toNat_scaled (raw : Half) (scaling : Nat) : (scaled raw scaling).toNat = raw.toNat / scaling := by
  have hle : raw.toNat / scaling ≤ raw.toNat := Nat.div_le_self _ _
  rw [scaled, BitVec.toNat_ofNat, Nat.mod_eq_of_lt (by omega)]

/-- No step clamps a channel (90_conflicts.md C4); only its 16 bits bound the result. -/
theorem scaled_bounds (raw : Half) {scaling : Nat} (h : 0 < scaling) :
    ((scaled raw scaling).toNat ≤ 255 ↔ raw.toNat < 256 * scaling) ∧ (scaled raw scaling).toNat ≤ 65535 := by
  have hle : raw.toNat / scaling ≤ raw.toNat := Nat.div_le_self _ _
  rw [toNat_scaled, ← Nat.div_lt_iff_lt_mul h]
  omega

/-- Settles O40: the two results of reading `CYCLES`, then whether the scaling is zero. -/
theorem torgbCommand : Obligations.TorgbCommand := by
  refine ⟨fun red green blue clear => decode_encode_append (i := .torgb red green blue clear) rfl,
    fun red green blue clear c s hc hmax => ?_, fun red green blue clear c s hc hmax => ?_,
    fun red green blue clear s hnone => ?_, fun raw _ => scaled_bounds raw⟩
  · have hne : scalingOf s.cfg c ≠ 0 := mt (scalingOf_eq_zero_iff s.cfg c).mp (Nat.not_lt.mpr hmax)
    rw [exec_torgb, readCycles_some hc, bind_ok, if_neg hne, finish_ok]
    rfl
  · rw [exec_torgb, readCycles_some hc, bind_ok, if_pos ((scalingOf_eq_zero_iff s.cfg c).mpr hmax), finish_err]
    rfl
  · rw [exec_torgb, readCycles_none hnone, bind_unwritten, finish_unwritten]

/-! ### The reverse gain lookup (R172) -/

/-- The levels among which `gainOfCode` takes the smallest. -/
theorem mem_levels_iff (table : List (Nat × Byte)) (k : Byte) (g : Nat) :
    g ∈ (table.filter fun p => p.2 == k).map Prod.fst ↔ (g, k) ∈ table := by
  simp only [List.mem_map, List.mem_filter, beq_iff_eq]
  exact ⟨fun ⟨⟨_, _⟩, ⟨hmem, hcode⟩, hlevel⟩ => hlevel ▸ hcode ▸ hmem, fun h => ⟨(g, k), ⟨h, rfl⟩, rfl⟩⟩

/-- Settles O41: the minimum of a list is its member below all others, and only the empty list has none. -/
theorem gainOfCodeLowest : Obligations.GainOfCodeLowest := by
  refine fun table k => ⟨fun g => ?_, ?_⟩
  · simp only [gainOfCode, List.min?_eq_some_iff, mem_levels_iff]
  · simp only [gainOfCode, List.min?_eq_none_iff, List.eq_nil_iff_forall_not_mem, mem_levels_iff]

end Sys2Proof.Machine
end

section
/-! The bus reads of the sensor's data, in sequence, and the command GETRAW (43_sensor.md R183). -/

namespace Sys2Proof.Machine
open Laws

/-! ### One read -/

/-- What is known beforehand of the value that the `k`-th bus read from now brings when it reads `reg`: the queued value of
the device, the fixed value of the fixture for its data registers (R60, R61). -/
def State.busDatum (s : State) (k : Nat) (reg : Byte) : Option Half :=
  match s.cfg.backend with
  | .device => s.ports.busData[k]?
  | .fixture c r g b =>
    if reg = regClear then some c
    else if reg = regRed then some r
    else if reg = regGreen then some g
    else if reg = regBlue then some b
    else none

theorem busDatum_device {s : State} (h : s.cfg.backend = .device) (k : Nat) (reg : Byte) :
    s.busDatum k reg = s.ports.busData[k]? := by
  rw [State.busDatum, h]

theorem busDatum_fixture {s : State} {c r g b : Half} (h : s.cfg.backend = .fixture c r g b) :
    (∀ k, s.busDatum k regClear = some c) ∧ (∀ k, s.busDatum k regRed = some r) ∧
      (∀ k, s.busDatum k regGreen = some g) ∧ ∀ k, s.busDatum k regBlue = some b := by
  simp only [State.busDatum, h]
  exact ⟨fun _ => rfl, fun _ => rfl, fun _ => rfl, fun _ => rfl⟩

theorem busDatum_congr {s t : State} (hcfg : t.cfg = s.cfg) (hdata : t.ports.busData = s.ports.busData) (k : Nat)
    (reg : Byte) : t.busDatum k reg = s.busDatum k reg := by
  rw [State.busDatum, hcfg, hdata, State.busDatum]

theorem busUsed_busData (s : State) (n : Nat) (es : List Event) : (s.busUsed n es).ports.busData = s.ports.busData := by
  unfold State.busUsed
  cases s.cfg.backend <;> rfl

theorem nextData_of_busDatum {s : State} {reg : Byte} {v : Half} (h : s.busDatum 0 reg = some v) :
    (s.nextData reg).1 = v := by
  cases hb : s.cfg.backend with
  | device =>
    rw [busDatum_device hb, ← List.head?_eq_getElem?, List.head?_eq_some_iff] at h
    obtain ⟨rest, hd⟩ := h
    simp only [State.nextData, hb, State.queuedData, hd]
  | fixture c r g b =>
    simp only [State.busDatum, hb] at h
    simp only [State.nextData, hb]
    split_ifs at h ⊢ <;> exact Option.some.inj h

/-- `t` comes after bus reads from `s` that answered ok and recorded the events `es`: nothing else changed, and the answers
and values to come are those that follow in `s`. -/
structure BusReads (s : State) (es : List Event) (t : State) : Prop where
  state : ∃ p f, t = { s with trace := s.trace ++ es, ports := p, freeCount := f }
  answer : ∀ k, t.busAnswer k = s.busAnswer (es.length + k)
  datum : ∀ k reg v, s.busDatum (es.length + k) reg = some v → t.busDatum k reg = some v

theorem BusReads.refl (s : State) : BusReads s [] s where
  state := ⟨s.ports, s.freeCount, by rw [List.append_nil]⟩
  answer k := by rw [List.length_nil, Nat.zero_add]
  datum k reg v h := by rwa [List.length_nil, Nat.zero_add] at h

theorem BusReads.trans {s t u : State} {es es' : List Event} (h : BusReads s es t) (h' : BusReads t es' u) :
    BusReads s (es ++ es') u where
  state := by
    obtain ⟨p, f, rfl⟩ := h.state
    obtain ⟨p', f', rfl⟩ := h'.state
    exact ⟨p', f', by rw [List.append_assoc]⟩
  answer k := by rw [h'.answer, h.answer, List.length_append, Nat.add_assoc]
  datum k reg v hv := h'.datum k reg v (h.datum _ reg v (by rwa [List.length_append, Nat.add_assoc] at hv))

theorem BusReads.cfg {s t : State} {es : List Event} (h : BusReads s es t) : t.cfg = s.cfg := by
  obtain ⟨p, f, rfl⟩ := h.state
  rfl

/-- The event of a read of `reg` that brought `v`. -/
def State.readEvent (s : State) (reg : Byte) (v : Half) : Event := .busRead16 s.cfg.sensorAddr reg (.ok v)

/-- A read that answers ok brings the value known beforehand. -/
theorem busRead16_brings {s : State} (reg : Byte) (h : s.busAnswer 0 = .ok) :
    ∃ v t, busRead16 reg s = .ok v t ∧ BusReads s [s.readEvent reg v] t ∧ ∀ v', s.busDatum 0 reg = some v' → v = v' := by
  obtain ⟨v, t, hread, hstate, hanswer, hval, hqueue⟩ := busRead16_cases_ok reg h
  have hcfg : t.cfg = s.cfg := by
    obtain ⟨p, f, rfl⟩ := hstate
    rfl
  refine ⟨v, t, hread, ⟨hstate, hanswer, fun k reg' v' hv => ?_⟩, fun v' hv => ?_⟩
  · cases hb : s.cfg.backend with
    | device =>
      rw [busDatum_device hb] at hv
      rw [busDatum_device (hcfg.symm ▸ hb)]
      cases hd : s.ports.busData with
      | nil => simp [hd] at hv
      | cons w rest =>
        obtain ⟨-, hrest⟩ := hqueue w rest hb hd
        rwa [hd, List.length_singleton, Nat.add_comm, List.getElem?_cons_succ, ← hrest] at hv
    | fixture c r g b => simpa only [State.busDatum, hcfg, hb] using hv
  · rw [hval]
    exact nextData_of_busDatum ((busDatum_congr (busUsed_cfg s 1 []) (busUsed_busData s 1 []) 0 reg).trans hv)

/-! ### Reads in sequence -/

theorem Res.bind_assoc {α β γ : Type} (r : Res α) (f : α → State → Res β) (g : β → State → Res γ) :
    (r.bind f).bind g = r.bind fun a s => (f a s).bind g := by
  cases r <;> rfl

/-- Bus reads in the order of the list; the first that fails ends the work. -/
def busReadAll : List Byte → State → Res (List Half)
  | [], s => .ok [] s
  | reg :: regs, s => (busRead16 reg s).bind fun v t => (busReadAll regs t).bind fun vs u => .ok (v :: vs) u

theorem busReadAll_append (regs regs' : List Byte) (s : State) :
    busReadAll (regs ++ regs') s =
      (busReadAll regs s).bind fun vs t => (busReadAll regs' t).bind fun vs' u => .ok (vs ++ vs') u := by
  induction regs generalizing s with
  | nil =>
    simp only [List.nil_append, busReadAll, bind_ok]
    cases busReadAll regs' s <;> rfl
  | cons reg regs ih => simp only [List.cons_append, busReadAll, ih, Res.bind_assoc, bind_ok]

theorem busReadAll_ok {regs : List Byte} {s : State} (h : ∀ n < regs.length, s.busAnswer n = .ok) :
    ∃ vs t, busReadAll regs s = .ok vs t ∧ vs.length = regs.length ∧
      BusReads s (List.zipWith s.readEvent regs vs) t ∧
      ∀ (k : Nat) (reg : Byte) (v : Half), regs[k]? = some reg → s.busDatum k reg = some v → vs[k]? = some v := by
  induction regs generalizing s with
  | nil => exact ⟨[], s, rfl, rfl, .refl s, by simp⟩
  | cons reg regs ih =>
    obtain ⟨v, t, hread, hreads, hbrings⟩ := busRead16_brings reg (h 0 (by simp))
    have htail : ∀ n < regs.length, t.busAnswer n = .ok := fun n hn => by
      rw [hreads.answer]
      exact h _ (by simp; omega)
    obtain ⟨vs, u, hall, hlen, hrest, hvals⟩ := ih htail
    have hevent : t.readEvent = s.readEvent := by
      unfold State.readEvent
      rw [hreads.cfg]
    refine ⟨v :: vs, u, by rw [busReadAll, hread, bind_ok, hall, bind_ok],
      by rw [List.length_cons, hlen, List.length_cons], hevent ▸ hreads.trans hrest, fun k reg' w hreg hw => ?_⟩
    cases k with
    | zero =>
      obtain rfl : reg = reg' := Option.some.inj hreg
      exact congrArg some (hbrings w hw)
    | succ k => exact hvals k reg' w hreg (hreads.datum k reg' w (by rwa [List.length_singleton, Nat.add_comm]))

/-- A read that fails after others that answered ok is the last one. -/
theorem busReadAll_fail {regs regs' : List Byte} {reg : Byte} {s : State} {e : Word}
    (h : ∀ n < regs.length, s.busAnswer n = .ok) (hf : s.busAnswer regs.length = .fail e) :
    ∃ es t, es.length = regs.length ∧ BusReads s es t ∧ busReadAll (regs ++ reg :: regs') s =
      .err .deviceIOError e (t.busUsed 1 [.busRead16 s.cfg.sensorAddr reg (.fail e)]) := by
  obtain ⟨vs, t, hall, hlen, hreads, -⟩ := busReadAll_ok h
  have hevents : (List.zipWith s.readEvent regs vs).length = regs.length := by
    rw [List.length_zipWith, hlen, Nat.min_self]
  have hnext : t.busAnswer 0 = .fail e := by rw [hreads.answer, hevents, Nat.add_zero, hf]
  refine ⟨_, t, hevents, hreads, ?_⟩
  rw [busReadAll_append, hall, bind_ok, busReadAll, busRead16_fail reg hnext, bind_err, bind_err, hreads.cfg]

/-! ### GETRAW -/

/-- The data registers in the order of GETRAW's reads. -/
abbrev dataRegs : List Byte := [regClear, regRed, regGreen, regBlue]

theorem dataRegs_split {n : Nat} (h : n < 4) :
    dataRegs = dataRegs.take n ++ BitVec.ofNat 8 (0x94 + 2 * n) :: dataRegs.drop (n + 1) := by
  interval_cases n <;> rfl

/-- The values of the reads of clear, red, green and blue in the result registers: red, green, blue, clear. -/
def State.setRaw (s : State) (vs : List Half) : State :=
  { s with
    d0 := vs[1]?.map (·.setWidth 32), d1 := vs[2]?.map (·.setWidth 32), d2 := vs[3]?.map (·.setWidth 32)
    d3 := vs[0]?.map (·.setWidth 32) }

theorem finish_bind_ok {α β : Type} (r : Res α) (f : α → β) (len : Nat) (n : Results) (w : β → State → State) :
    (r.bind fun a s => .ok (f a) s).finish len n w = r.finish len n fun a => w (f a) := by
  cases r <;> rfl

/-- GETRAW is one sequence of reads, which ends at the first that fails. -/
theorem exec_getraw (s : State) :
    exec .getraw s = (busReadAll dataRegs s).finish 1 .d0d1d2d3 fun vs t => t.setRaw vs := by
  refine (finish_bind_ok _ (fun p : Half × Half × Half × Half => [p.1, p.2.1, p.2.2.1, p.2.2.2]) 1 .d0d1d2d3
    fun vs t => t.setRaw vs).symm.trans ?_
  simp only [busReadAll, Res.bind_assoc, bind_ok]

theorem newEvents_concat {s t : State} {es : List Event} {ev : Event} (h : t.trace = s.trace ++ es ++ [ev]) :
    (newEvents s t).length = es.length + 1 ∧ (newEvents s t).getLast? = some ev := by
  rw [newEvents_of_append (h.trans (List.append_assoc s.trace es [ev]))]
  exact ⟨List.length_append, List.getLast?_concat⟩

/-- Settles O38: the four reads in sequence, all answered ok or cut at the first that failed. -/
theorem getrawCommand : Obligations.GetrawCommand := by
  refine ⟨decode_encode_append (i := .getraw) rfl, fun s h => ?_, fun s n e hn h hf => ?_⟩
  · obtain ⟨vs, t, hall, hlen, ⟨⟨p, f, rfl⟩, -, -⟩, hvals⟩ := busReadAll_ok (regs := dataRegs) h
    obtain ⟨c, r, g, b, rfl⟩ := List.length_eq_four.mp hlen
    have hvalues {c' r' g' b' : Half} (hc : s.busDatum 0 regClear = some c') (hr : s.busDatum 1 regRed = some r')
        (hg : s.busDatum 2 regGreen = some g') (hb : s.busDatum 3 regBlue = some b') :
        c = c' ∧ r = r' ∧ g = g' ∧ b = b' :=
      ⟨Option.some.inj (hvals 0 _ _ rfl hc), Option.some.inj (hvals 1 _ _ rfl hr),
        Option.some.inj (hvals 2 _ _ rfl hg), Option.some.inj (hvals 3 _ _ rfl hb)⟩
    refine ⟨r, g, b, c, _, by rw [exec_getraw, hall, finish_ok], rfl, fun c' r' g' b' hb => ?_,
      fun c' r' g' b' rest hb hd => ?_⟩
    · obtain ⟨hclear, hred, hgreen, hblue⟩ := busDatum_fixture hb
      exact hvalues (hclear 0) (hred 1) (hgreen 2) (hblue 3)
    · have hqueued (k : Nat) (reg : Byte) : s.busDatum k reg = (c' :: r' :: g' :: b' :: rest)[k]? := by
        rw [busDatum_device hb, hd]
      exact hvalues (hqueued 0 _) (hqueued 1 _) (hqueued 2 _) (hqueued 3 _)
  · have hlen : (dataRegs.take n).length = n := List.length_take_of_le hn.le
    obtain ⟨es, t, hes, ⟨⟨p, f, rfl⟩, -, -⟩, hall⟩ :=
      busReadAll_fail (regs := dataRegs.take n) (regs' := dataRegs.drop (n + 1))
        (reg := BitVec.ofNat 8 (0x94 + 2 * n)) (hlen.symm ▸ h) (hlen.symm ▸ hf)
    rw [← dataRegs_split hn] at hall
    rw [exec_getraw, hall, finish_deviceIOError]
    exact ⟨_, rfl, (newEvents_concat rfl).1.trans (by rw [hes, hlen]), (newEvents_concat rfl).2, rfl⟩

end Sys2Proof.Machine
end

section
/-! What a command that ended in an error leaves in the registers it may not change (60_exceptions.md R201, R203), and the
commands that stop at a read of `ROT` or `CYCLES` that finds no value (R206). -/

namespace Sys2Proof.Machine

/-! ### The result registers after an error (10_state.md R28, R29) -/

theorem namedResultsNone_dropResults (i : Instr) (u : State) (code : Nat) (c : Word) (len : Nat) :
    NamedResultsNone i ((u.dropResults (named i)).errored code c len) := by
  cases i with
  | pack | unpack | getpixel | maxraw | getpixels | ldimg => rfl
  | mapxy => exact ⟨rfl, rfl⟩
  | torgb => exact ⟨rfl, rfl, rfl⟩
  | getraw => exact ⟨rfl, rfl, rfl, rfl⟩
  | setrot | setpixel | setpixels | clear | setgain | setinteg | enable => trivial

theorem otherResultsKept_dropResults (i : Instr) {s u : State} (hp : PortStep s u) (code : Nat) (c : Word) (len : Nat) :
    OtherResultsKept i s ((u.dropResults (named i)).errored code c len) := by
  cases i with
  | pack | unpack | getpixel | maxraw => exact ⟨hp.d1, hp.d2, hp.d3, hp.pbuf⟩
  | mapxy => exact ⟨hp.d2, hp.d3, hp.pbuf⟩
  | torgb => exact ⟨hp.d3, hp.pbuf⟩
  | getraw => exact hp.pbuf
  | getpixels | ldimg => exact ⟨hp.d0, hp.d1, hp.d2, hp.d3⟩
  | setrot | setpixel | setpixels | clear | setgain | setinteg | enable => exact ⟨hp.d0, hp.d1, hp.d2, hp.d3, hp.pbuf⟩

/-! ### Validation and image errors (R201) -/

/-- No byte of the framebuffer and no register but the status registers, `cp` and the named results differs, and the named
results hold `none`. -/
def ErrorFrame (i : Instr) (s t : State) : Prop :=
  t.mem = s.mem ∧ t.rot = s.rot ∧ t.gain = s.gain ∧ t.cycles = s.cycles ∧ t.timing = s.timing ∧ t.omap = s.omap ∧
    NamedResultsNone i t ∧ OtherResultsKept i s t

theorem errorFrame_errored (i : Instr) {s u : State} (hp : PortStep s u) (hm : u.mem = s.mem) (code : Nat) (c : Word)
    (len : Nat) : ErrorFrame i s ((u.dropResults (named i)).errored code c len) :=
  ⟨(u.dropResults_mem _).trans hm, (u.dropResults_rot _).trans hp.rot, (u.dropResults_gain _).trans hp.gain,
    (u.dropResults_cycles _).trans hp.cycles, (u.dropResults_timing _).trans hp.timing,
    (u.dropResults_omap _).trans hp.omap, namedResultsNone_dropResults i u code c len,
    otherResultsKept_dropResults i hp code c len⟩

theorem ErrKind.code_mem_image {k : ErrKind} : k.code ∈ [8#8, 9#8] ↔ k = .imageNotFound ∨ k = .imageDecodeError := by
  cases k <;> decide

/-- A command that ended in an error other than DeviceIOError asked nothing of the framebuffer or the bus: an image error
follows its one `ImgOpen`, and before a validation error only LDIMG with redraw has events, those of its image. -/
theorem exec_error_of_ne_device {i : Instr} {s t : State} (h : exec i s = .next t) (herr : t.err ∉ [0#8, 4#8]) :
    ErrorFrame i s t ∧ (∀ e ∈ newEvents s t, e.isDeviceIO = false) ∧
      (t.err ∈ [8#8, 9#8] → ∃ src a, newEvents s t = [Event.imgOpen src a]) ∧
      (t.err ∉ [8#8, 9#8] → (∀ src, i ≠ .ldimg src true) → newEvents s t = []) := by
  cases exec_next h with
  | ok u v es hp htr he hm hs hw ht =>
    have hok : t.err = 0#8 := by rw [ht]; rfl
    exact absurd (by simp [hok]) herr
  | fail c u es hp htr he hm hs hn ht =>
    have hdevice : t.err = 4#8 := (errored_status (k := .deviceIOError) hp ht).1
    exact absurd (by simp [hdevice]) herr
  | invalid k u es hp htr hq hk hk' himg hgr hne hm ht =>
    obtain ⟨hcode, -, -, htrace⟩ := errored_status hp ht
    rw [newEvents_of_append (htrace.trans htr), hcode, ErrKind.code_mem_image, not_or]
    exact ⟨ht ▸ errorFrame_errored i hp hm _ _ _, hq, fun himage => (himg himage).1, fun hval => hne hval.1 hval.2⟩

/-- Settles O43: every code listed is an error other than DeviceIOError, and an illegal command does nothing but raise. -/
theorem validationErrorsTouchNoDevice : Obligations.ValidationErrorsTouchNoDevice := by
  refine ⟨fun i s t h => ⟨fun herr => ?_, fun herr => ?_⟩, fun s t len hdecode h => ?_⟩
  · have hcodes : ∀ code ∈ [1#8, 2#8, 3#8, 5#8, 6#8, 7#8], code ∉ [0#8, 4#8] ∧ code ∉ [8#8, 9#8] := by decide
    obtain ⟨hframe, hquiet, -, hnone⟩ := exec_error_of_ne_device h (hcodes _ herr).1
    exact ⟨hquiet, hnone (hcodes _ herr).2, hframe⟩
  · have hcodes : ∀ code ∈ [8#8, 9#8], code ∉ [0#8, 4#8] := by decide
    obtain ⟨hframe, -, hopen, -⟩ := exec_error_of_ne_device h (hcodes _ herr)
    exact ⟨hopen herr, hframe⟩
  · exact Host.Outcome.next.inj (h.symm.trans (step_of_illegal hdecode))

/-! ### Reads of a register that holds no value (R206) -/

theorem writeFrame_none (cs : List RGB) {s : State} (h : s.rot = none) : writeFrame cs s = .unwritten s := by
  rw [writeFrame, selectTable_none h, bind_unwritten]

/-- LDIMG with redraw stops after it opened and sampled the image, which leaves `ROT` as it was. -/
theorem exec_ldimg_rot_none (src : Half) {s : State} (himg : s.imgAnswer = .ok) (h : s.rot = none) :
    ∃ l : State, exec (.ldimg src true) s = .fault (.unwrittenState l) := by
  obtain ⟨v, fc, u, hstate, -, hexec⟩ := execLdimg_sampled src true himg
  have hrot : u.rot = none := by rw [hstate]; exact h
  exact ⟨u, hexec.trans (by rw [if_pos rfl, writeFrame_none _ hrot, bind_unwritten, finish_unwritten])⟩

theorem exec_rot_none {i : Instr} {s : State} (hn : NeedsRotation i s) (h : s.rot = none) :
    ∃ l : State, exec i s = .fault (.unwrittenState l) := by
  cases i with
  | mapxy x y => exact ⟨s, by rw [exec_mapxy, address_none hn h, finish_unwritten]⟩
  | getpixel x y => exact ⟨s, by rw [exec_getpixel, address_none hn h, bind_unwritten, finish_unwritten]⟩
  | setpixel x y c => exact ⟨s, by rw [exec_setpixel, address_none hn h, bind_unwritten, finish_unwritten]⟩
  | setpixels cs =>
    have hlen : cs.length = 64 := hn
    exact ⟨s, by rw [exec, execSetpixels, if_pos hlen, writeFrame_none cs h, finish_unwritten]⟩
  | getpixels => exact ⟨s, by rw [exec_getpixels, selectTable_none h, bind_unwritten, finish_unwritten]⟩
  | clear c => exact ⟨s, by rw [exec, execClear, writeFrame_none _ h, finish_unwritten]⟩
  | ldimg src redraw =>
    obtain ⟨rfl, himg⟩ := hn
    exact exec_ldimg_rot_none src himg h
  | pack | unpack | setrot | setgain | setinteg | enable | getraw | maxraw | torgb => exact hn.elim

theorem exec_cycles_none {i : Instr} {s : State} (hn : NeedsCycles i) (h : s.cycles = none) :
    ∃ l : State, exec i s = .fault (.unwrittenState l) := by
  cases i with
  | maxraw => exact ⟨s, by rw [exec_maxraw, readCycles_none h, finish_unwritten]⟩
  | torgb r g b c => exact ⟨s, by rw [exec_torgb, readCycles_none h, bind_unwritten, finish_unwritten]⟩
  | pack | unpack | setrot | mapxy | getpixel | setpixel | setpixels | getpixels | clear | ldimg | setgain | setinteg
    | enable | getraw => exact hn.elim

/-- Settles O46: `exec_unwritten` says where such a stop comes from, and each of the two reads leads to one. -/
theorem unwrittenStateExactly : Obligations.UnwrittenStateExactly := by
  refine fun i s => ⟨fun ⟨_, hstop⟩ => exec_unwritten hstop, ?_⟩
  rintro (⟨hn, hrot⟩ | ⟨hn, hcycles⟩)
  · exact exec_rot_none hn hrot
  · exact exec_cycles_none hn hcycles

end Sys2Proof.Machine
end

section
/-! Decoding and encoding undo each other (30_encoding.md section 7, R84 to R92). -/

namespace Sys2Proof.Laws

/-- Settles O1: the row of the head word is the command's own, and assembly reads back what the encoder wrote. -/
theorem decodeEncodeAgree : Obligations.DecodeEncodeAgree := fun _ rest hwf => decode_encode_append hwf rest

/-! ### A head word put together from its fields (R81, R82) -/

theorem halves_append_eq_word (w : Word) : hiHalf w ++ loHalf w = w :=
  (BitVec.extractLsb'_append_extractLsb'_eq_extractLsb' rfl).trans BitVec.extractLsb'_eq_self

theorem ofBool_getLsbD (w : Word) (k : Nat) : BitVec.ofBool (w.getLsbD k) = w.extractLsb' k 1 := by
  ext j hj
  obtain rfl : j = 0 := by omega
  simp

/-- Formats H and L: the operand below 16 fixed bits. -/
theorem append_loHalf_eq {w : Word} {top : Half} (h : w.extractLsb' 16 16 = top) : top ++ loHalf w = w := by
  rw [← h]
  exact halves_append_eq_word w

/-- Formats XY and XYC: the coordinates below 16 fixed bits. -/
theorem append_xy_eq {w : Word} {top : Half} (h : w.extractLsb' 16 16 = top) : top ++ byte1 w ++ byte0 w = w := by
  have hLow : byte1 w ++ byte0 w = loHalf w := BitVec.extractLsb'_append_extractLsb'_eq_extractLsb' rfl
  have hAll : top ++ (byte1 w ++ byte0 w) = w := by rw [hLow, append_loHalf_eq h]
  exact BitVec.append_assoc.trans hAll

/-- Format C: the colour below a fixed byte. -/
theorem append_colour_eq {w : Word} {top : Byte} (h : w.extractLsb' 24 8 = top) :
    top ++ (colourOf w).r ++ (colourOf w).g ++ (colourOf w).b = w := by
  rw [← h]
  exact bytes_append_eq_word w

/-- Format F: the flag and the operand below 15 fixed bits. -/
theorem append_flag_eq {w : Word} {top : Byte} (h : w.extractLsb' 24 8 = top) (hzero : w.extractLsb' 17 7 = 0#7) :
    top ++ 0#7 ++ BitVec.ofBool (w.getLsbD 16) ++ loHalf w = w := by
  have hTop : w.extractLsb' 24 8 ++ w.extractLsb' 17 7 = w.extractLsb' 17 15 :=
    BitVec.extractLsb'_append_extractLsb'_eq_extractLsb' rfl
  have hHigh : w.extractLsb' 17 15 ++ w.extractLsb' 16 1 = hiHalf w :=
    BitVec.extractLsb'_append_extractLsb'_eq_extractLsb' rfl
  rw [ofBool_getLsbD, ← h, ← hzero, hTop, hHigh, halves_append_eq_word]

/-- Format B: the flag below 31 fixed bits. -/
theorem append_on_eq {w : Word} {top : BitVec 31} (h : w.extractLsb' 1 31 = top) :
    top ++ BitVec.ofBool (w.getLsbD 0) = w := by
  have hWord : w.extractLsb' 1 31 ++ w.extractLsb' 0 1 = w.extractLsb' 0 32 :=
    BitVec.extractLsb'_append_extractLsb'_eq_extractLsb' rfl
  rw [ofBool_getLsbD, ← h, hWord, BitVec.extractLsb'_eq_self]

/-- Formats Z and T: all bits fixed. -/
theorem fixed_eq {w v : Word} (h : w.extractLsb' 0 32 = v) : v = w :=
  h.symm.trans BitVec.extractLsb'_eq_self

/-! ### Colour words (R83) -/

theorem colourWord_colourOf {c : Word} (h : colourWordOk c = true) : colourWord (colourOf c) = c :=
  append_colour_eq (beq_iff_eq.mp h)

theorem map_colourWord_colourOf {ps : List Word} (h : ps.all colourWordOk = true) :
    (ps.map colourOf).map colourWord = ps := by
  rw [List.map_map]
  exact (List.map_congr_left fun c hc => colourWord_colourOf (List.all_eq_true.mp h c hc)).trans (List.map_id ps)

/-- A SETPIXELS head word and as many colour words as it counts are the encoding of those colours. -/
theorem encode_setpixels_of_head {w : Word} {ps : List Word} (hw : w.extractLsb' 16 16 = 0x2200#16)
    (hlen : ps.length = (loHalf w).toNat) (hps : ps.all colourWordOk = true) :
    (Instr.setpixels (ps.map colourOf)).wellFormed = true ∧ encode (.setpixels (ps.map colourOf)) = w :: ps := by
  have hbound : (loHalf w).toNat ≤ 65535 := Nat.le_of_lt_succ (loHalf w).isLt
  have hcount : BitVec.ofNat 16 (ps.map colourOf).length = loHalf w := by
    rw [List.length_map, hlen, BitVec.ofNat_toNat, BitVec.setWidth_eq]
  refine ⟨?_, ?_⟩
  · rwa [Instr.wellFormed, decide_eq_true_iff, List.length_map, hlen]
  · rw [encode, map_colourWord_colourOf hps, hcount, append_loHalf_eq hw]

/-! ### Assembly read the other way round (R84, R86) -/

/-- A field that a row's mask covers is that field of the row's pattern. -/
theorem field_of_matches {r : Row} {w : Word} (h : r.matches w = true) {lo n : Nat} {v : BitVec n}
    (hmask : r.mask.extractLsb' lo n = BitVec.allOnes n) (hpattern : r.pattern.extractLsb' lo n = v) :
    w.extractLsb' lo n = v := by
  rw [Row.matches, beq_iff_eq] at h
  rw [← hpattern, ← h, BitVec.extractLsb'_and, hmask, BitVec.and_allOnes]

/-- The command that a matched head word and its payload assemble to is well-formed, and encoded by just these words. -/
theorem encode_of_assemble {r : Row} {w : Word} {ps : List Word} {i : Instr} (hr : r ∈ rows) (hm : r.matches w = true)
    (hlen : ps.length = payloadLength r.format w) (h : assemble r.op w ps = .command i) :
    i.wellFormed = true ∧ encode i = w :: ps := by
  have hone {w' : Word} (h0 : payloadLength r.format w = 0) (hw : w' = w) : [w'] = w :: ps := by
    rw [List.eq_nil_of_length_eq_zero (hlen.trans h0), hw]
  simp only [rows, List.mem_cons, List.not_mem_nil, or_false] at hr
  rcases hr with rfl | rfl | rfl | rfl | rfl | rfl | rfl | rfl | rfl | rfl | rfl | rfl | rfl | rfl | rfl | rfl
  · cases h
    exact ⟨rfl, hone rfl (append_colour_eq (field_of_matches hm rfl rfl))⟩
  · cases h
    exact ⟨rfl, hone rfl (append_loHalf_eq (field_of_matches hm rfl rfl))⟩
  · cases h
    exact ⟨rfl, hone rfl (append_loHalf_eq (field_of_matches hm rfl rfl))⟩
  · cases h
    exact ⟨rfl, hone rfl (append_xy_eq (field_of_matches hm rfl rfl))⟩
  · cases h
    exact ⟨rfl, hone rfl (append_xy_eq (field_of_matches hm rfl rfl))⟩
  · obtain ⟨c, rfl⟩ := List.length_eq_one_iff.mp hlen
    simp only [assemble] at h
    split at h <;> cases h
    refine ⟨rfl, ?_⟩
    rw [encode, append_xy_eq (top := 0x2100#16) (field_of_matches hm rfl rfl), colourWord_colourOf ‹_›]
  · simp only [assemble] at h
    split at h <;> cases h
    exact encode_setpixels_of_head (field_of_matches hm rfl rfl) hlen ‹_›
  · cases h
    exact ⟨rfl, hone rfl (fixed_eq (field_of_matches hm rfl rfl))⟩
  · cases h
    exact ⟨rfl, hone rfl (append_colour_eq (field_of_matches hm rfl rfl))⟩
  · cases h
    exact ⟨rfl, hone rfl (append_flag_eq (field_of_matches hm rfl rfl) (field_of_matches hm rfl rfl))⟩
  · cases h
    exact ⟨rfl, hone rfl (append_loHalf_eq (field_of_matches hm rfl rfl))⟩
  · cases h
    exact ⟨rfl, hone rfl (append_loHalf_eq (field_of_matches hm rfl rfl))⟩
  · cases h
    exact ⟨rfl, hone rfl (append_on_eq (field_of_matches hm rfl rfl))⟩
  · cases h
    exact ⟨rfl, hone rfl (fixed_eq (field_of_matches hm rfl rfl))⟩
  · cases h
    exact ⟨rfl, hone rfl (fixed_eq (field_of_matches hm rfl rfl))⟩
  · obtain ⟨p, q, rfl⟩ := List.length_eq_two.mp hlen
    cases h
    refine ⟨rfl, ?_⟩
    rw [encode, halves_append_eq_word, halves_append_eq_word]
    exact congrArg (· :: [p, q]) (fixed_eq (field_of_matches hm rfl rfl))

/-- Settles O2: the words are a head word of some row, the payload it announces, and the rest; the encoder undoes the
assembly of head word and payload. -/
theorem encodeDecodeAgree : Obligations.EncodeDecodeAgree := by
  intro ws i h
  cases ws with
  | nil => cases h
  | cons w rest =>
    cases hrow : findRow w with
    | none => rw [decode_cons_illegal hrow] at h; cases h
    | some r =>
      by_cases hlen : rest.length < payloadLength r.format w
      · rw [decode_cons_incomplete hrow hlen] at h; cases h
      · rw [decode_cons_of_findRow hrow (Nat.not_lt.mp hlen)] at h
        obtain ⟨hr, hm⟩ := matches_of_findRow hrow
        obtain ⟨hwf, henc⟩ := encode_of_assemble hr hm (List.length_take_of_le (Nat.not_lt.mp hlen)) h
        exact ⟨hwf, length_encode hwf, _, by rw [henc, List.cons_append, List.take_append_drop]⟩

/-- Settles O5: the decoder run on the nine word sequences of vector V1. -/
theorem specWordsDecode : Obligations.SpecWordsDecode := by
  unfold Obligations.SpecWordsDecode
  decide

end Sys2Proof.Laws
end

section
/-! The frames of all sixteen commands: named registers, result registers, framebuffer (10_state.md section 2, section 4,
20_memory.md section 1). -/

namespace Sys2Proof.Machine

/-! ### Every command that completes, in two cases -/

/-- A command that completes made port requests, which led to `u`, and then wrote its results or raised an error. -/
theorem exec_ok_or_error {i : Instr} {s t : State} (h : exec i s = .next t) :
    ∃ u : State, PortStep s u ∧ LowBytes s.mem u.mem ∧ (StoresNothing i → u.mem = s.mem) ∧
      ((∃ v, Written i u v ∧ t = v.succeeded i.words) ∨
        ∃ (k : ErrKind) (c : Word), t = (u.dropResults (named i)).errored k.code.toNat c i.words) := by
  cases exec_next h with
  | ok u v es hp htr he hm hs hw ht => exact ⟨u, hp, hm, hs, .inl ⟨v, hw, ht⟩⟩
  | invalid k u es hp htr hq hk hk' himg hgr hne hm ht =>
    exact ⟨u, hp, by rw [hm]; exact .refl _, fun _ => hm, .inr ⟨k, 0, ht⟩⟩
  | fail c u es hp htr he hm hs hn ht => exact ⟨u, hp, hm, hs, .inr ⟨.deviceIOError, c, ht⟩⟩

/-- No command writes `OMAP`, the configuration or the words, and the trace only grows. -/
theorem exec_keeps_fixed {i : Instr} {s t : State} (h : exec i s = .next t) :
    t.omap = s.omap ∧ t.cfg = s.cfg ∧ t.words = s.words ∧ ∃ es, t.trace = s.trace ++ es := by
  obtain ⟨u, hp, -, -, ⟨v, hw, rfl⟩ | ⟨k, c, rfl⟩⟩ := exec_ok_or_error h
  · refine ⟨hw.omap.trans hp.omap, hw.cfg.trans hp.cfg, hw.words.trans hp.words, ?_⟩
    obtain ⟨es, hes⟩ := hp.trace
    rcases hw.trace with hv | ⟨us, hv, -⟩
    · exact ⟨es, hv.trans hes⟩
    · exact ⟨es ++ [.delay us], by rw [State.succeeded, hv, hes, List.append_assoc]⟩
  · obtain ⟨es, hes⟩ := hp.trace
    exact ⟨(u.dropResults_omap _).trans hp.omap, (u.dropResults_cfg _).trans hp.cfg,
      (u.dropResults_words _).trans hp.words, es, (u.dropResults_trace _).trans hes⟩

/-- The registers that SETROT, SETGAIN and SETINTEG write are written by no other command. -/
theorem exec_keeps_registers {i : Instr} {s t : State} (h : exec i s = .next t) :
    ((∀ deg, i ≠ .setrot deg) → t.rot = s.rot) ∧ ((∀ level, i ≠ .setgain level) → t.gain = s.gain) ∧
      ((∀ cycles, i ≠ .setinteg cycles) → t.cycles = s.cycles ∧ t.timing = s.timing) := by
  obtain ⟨u, hp, -, -, ⟨v, hw, rfl⟩ | ⟨k, c, rfl⟩⟩ := exec_ok_or_error h
  · exact ⟨fun hi => (hw.rot hi).trans hp.rot, fun hi => (hw.gain hi).trans hp.gain,
      fun hi => ⟨(hw.cycles hi).1.trans hp.cycles, (hw.cycles hi).2.trans hp.timing⟩⟩
  · exact ⟨fun _ => (u.dropResults_rot _).trans hp.rot, fun _ => (u.dropResults_gain _).trans hp.gain,
      fun _ => ⟨(u.dropResults_cycles _).trans hp.cycles, (u.dropResults_timing _).trans hp.timing⟩⟩

/-- Settles O48: the registers that some command writes, and those that none does. -/
theorem namedRegistersFrame : Obligations.NamedRegistersFrame := by
  intro i s t h
  obtain ⟨hrot, hgain, hcycles⟩ := exec_keeps_registers h
  exact ⟨hrot, hgain, hcycles, exec_keeps_fixed h⟩

/-! ### The result registers -/

theorem otherResultsKept_of_written {i : Instr} {s u v : State} (hp : PortStep s u) (hw : Written i u v) :
    OtherResultsKept i s v := by
  have h0 (h) := (hw.d0 h).trans hp.d0
  have h1 (h) := (hw.d1 h).trans hp.d1
  have h2 (h) := (hw.d2 h).trans hp.d2
  have h3 (h) := (hw.d3 h).trans hp.d3
  have hb (h) := (hw.pbuf h).trans hp.pbuf
  cases i with
  | pack | unpack | getpixel | maxraw =>
    exact ⟨h1 (by simp [named]), h2 (by simp [named]), h3 (by simp [named]), hb (by simp [named])⟩
  | mapxy => exact ⟨h2 (by simp [named]), h3 (by simp [named]), hb (by simp [named])⟩
  | torgb => exact ⟨h3 (by simp [named]), hb (by simp [named])⟩
  | getraw => exact hb (by simp [named])
  | getpixels | ldimg => exact ⟨h0 (by simp [named]), h1 (by simp [named]), h2 (by simp [named]), h3 (by simp [named])⟩
  | setrot | setpixel | setpixels | clear | setgain | setinteg | enable =>
    exact ⟨h0 (by simp [named]), h1 (by simp [named]), h2 (by simp [named]), h3 (by simp [named]), hb (by simp [named])⟩

/-- Completion with success writes no result register. -/
theorem otherResultsKept_succeeded {i : Instr} {s v : State} {len : Nat} (h : OtherResultsKept i s v) :
    OtherResultsKept i s (v.succeeded len) := by
  cases i <;> exact h

/-- Settles O49: a success writes the named registers alone, an error drops them and keeps the others. -/
theorem resultRegistersFrame : Obligations.ResultRegistersFrame := by
  intro i s t h
  obtain ⟨u, hp, -, -, ⟨v, hw, rfl⟩ | ⟨k, c, rfl⟩⟩ := exec_ok_or_error h
  · exact ⟨otherResultsKept_succeeded (otherResultsKept_of_written hp hw), fun herr => absurd rfl herr⟩
  · exact ⟨otherResultsKept_dropResults i hp _ c _, fun _ => namedResultsNone_dropResults i u _ c _⟩

/-! ### The framebuffer -/

theorem exec_mem {i : Instr} {s t : State} (h : exec i s = .next t) :
    LowBytes s.mem t.mem ∧ (StoresNothing i → t.mem = s.mem) := by
  obtain ⟨u, -, hm, hs, ⟨v, hw, rfl⟩ | ⟨k, c, rfl⟩⟩ := exec_ok_or_error h
  · have hv : (v.succeeded i.words).mem = u.mem := hw.mem
    rw [hv]
    exact ⟨hm, hs⟩
  · have hu : ((u.dropResults (named i)).errored k.code.toNat c i.words).mem = u.mem := u.dropResults_mem _
    rw [hu]
    exact ⟨hm, hs⟩

end Sys2Proof.Machine
end

section
/-! The machine's invariant: it holds after reset, and every step keeps it (10_state.md sections 2 to 4 and 10, 41_mapper.md
section 2, 20_memory.md section 1). -/

namespace Sys2Proof.Machine
open Laws

/-! ### The status registers and the framebuffer -/

theorem exec_keeps_statusOk {i : Instr} {s t : State} (h : exec i s = .next t) (hs : s.StatusOk) : t.StatusOk := by
  obtain ⟨-, hreserved, -, -⟩ := hs
  rcases exec_status h with ⟨herr, hlog, hcause⟩ | ⟨hpos, hle, hlog, hcause, -⟩
  · exact ⟨by rw [herr]; decide, by rw [hlog]; exact hreserved, fun hne => absurd herr hne, fun _ => hcause⟩
  · refine ⟨by omega, by rw [hlog]; exact reserved_or_twoPow hpos (by omega) hreserved, fun _ => ?_, hcause⟩
    rw [hlog, BitVec.getLsbD_or, BitVec.getLsbD_twoPow]
    simp
    omega

theorem exec_keeps_memOk {i : Instr} {s t : State} (h : exec i s = .next t) (hs : s.MemOk) : t.MemOk := by
  obtain ⟨hm, -⟩ := exec_mem h
  obtain ⟨-, hcfg, -⟩ := exec_keeps_fixed h
  rw [State.MemOk, hcfg]
  exact ⟨hm.wf hs.1, hm.bound _ (Nat.le_add_right 128 _) hs.2⟩

/-! ### `GAIN`, `CYCLES` and `TIMING` -/

theorem mem_gainTable_of_codeOfGain {table : List (Nat × Byte)} {level : Half} {code : Byte}
    (h : codeOfGain table level.toInt = some code) : level.toNat ∈ table.map Prod.fst := by
  obtain ⟨p, hfind, -⟩ := Option.map_eq_some_iff.mp h
  have hlevel : (p.1 : Int) = level.toInt := by simpa using List.find?_some hfind
  have hnat : level.toNat = p.1 := by
    have hcond := BitVec.toInt_eq_toNat_cond level
    have hlt := level.isLt
    split at hcond <;> omega
  exact hnat ▸ List.mem_map_of_mem (List.mem_of_find?_eq_some hfind)

/-- `GAIN` changes only to a level of the table (R22, R174). -/
theorem exec_setgain_gain {level : Half} {s t : State} (h : exec (.setgain level) s = .next t) :
    t.gain = s.gain ∨ (t.gain = some level ∧ level.toNat ∈ s.cfg.gainTable.map Prod.fst) := by
  cases hcode : codeOfGain s.cfg.gainTable level.toInt with
  | none =>
    rw [exec, execSetgain, hcode] at h
    exact .inl (congrArg State.gain (Host.Outcome.next.inj h)).symm
  | some code =>
    rw [exec_setgain_known hcode] at h
    rcases finish_next h with ⟨a, u, -, rfl⟩ | ⟨k, c, u, hr, rfl⟩
    · exact .inr ⟨rfl, mem_gainTable_of_codeOfGain hcode⟩
    · have hp := portStep_busWrite regGain code s
      rw [hr] at hp
      exact .inl hp.gain

theorem exec_keeps_gainOk {i : Instr} {s t : State} (h : exec i s = .next t) (hs : s.GainOk) : t.GainOk := by
  obtain ⟨-, hcfg, -⟩ := exec_keeps_fixed h
  have hkept (hg : t.gain = s.gain) : t.GainOk := by rw [State.GainOk, hg, hcfg]; exact hs
  by_cases hi : ∀ level, i ≠ .setgain level
  · exact hkept ((exec_keeps_registers h).2.1 hi)
  · push Not at hi
    obtain ⟨level, rfl⟩ := hi
    rcases exec_setgain_gain h with hg | ⟨hg, hmem⟩
    · exact hkept hg
    · rw [State.GainOk, hg, hcfg]
      rintro g ⟨⟩
      exact hmem

/-- `CYCLES` and `TIMING` change together, to a count in 1..256 and to the settle interval (R23, R24, R176). -/
theorem exec_setinteg_registers {cycles : Half} {s t : State} (h : exec (.setinteg cycles) s = .next t) :
    (t.cycles = s.cycles ∧ t.timing = s.timing) ∨
      (t.cycles = some cycles ∧ t.timing = some s.cfg.settleIntegUs ∧ 1 ≤ cycles.toInt ∧ cycles.toInt ≤ 256) := by
  by_cases hc : 1 ≤ cycles.toInt ∧ cycles.toInt ≤ 256
  · obtain ⟨hpos, hle⟩ := hc
    rw [exec_setinteg_inside hpos hle] at h
    have hp := portStep_busWrite regIntegration (BitVec.ofInt 8 (256 - cycles.toInt)) s
    rcases finish_next h with ⟨a, u, hr, rfl⟩ | ⟨k, c, u, hr, rfl⟩
    · rw [hr] at hp
      exact .inr ⟨rfl, congrArg (fun c : Config => some c.settleIntegUs) hp.cfg, hpos, hle⟩
    · rw [hr] at hp
      exact .inl ⟨hp.cycles, hp.timing⟩
  · rw [exec_setinteg_outside hc] at h
    cases h
    exact .inl ⟨rfl, rfl⟩

theorem exec_keeps_integration {i : Instr} {s t : State} (h : exec i s = .next t) (hc : s.CyclesOk) (ht : s.TimingOk)
    (hv : s.cycles.isSome) : t.CyclesOk ∧ t.TimingOk ∧ t.cycles.isSome := by
  obtain ⟨-, hcfg, -⟩ := exec_keeps_fixed h
  have hkept (hr : t.cycles = s.cycles ∧ t.timing = s.timing) : t.CyclesOk ∧ t.TimingOk ∧ t.cycles.isSome := by
    rw [State.CyclesOk, State.TimingOk, hr.1, hr.2, hcfg]
    exact ⟨hc, ht, hv⟩
  by_cases hi : ∀ cycles, i ≠ .setinteg cycles
  · exact hkept ((exec_keeps_registers h).2.2 hi)
  · push Not at hi
    obtain ⟨cycles, rfl⟩ := hi
    rcases exec_setinteg_registers h with hr | ⟨hcycles, htiming, hpos, hle⟩
    · exact hkept hr
    · have hint : cycles.toInt = cycles.toNat := by
        have hcond := BitVec.toInt_eq_toNat_cond cycles
        split at hcond <;> omega
      rw [State.CyclesOk, State.TimingOk, hcycles, htiming, hcfg]
      refine ⟨?_, ?_, rfl⟩
      · rintro c ⟨⟩
        omega
      · rintro w ⟨⟩
        rfl

theorem exec_keeps_rot_isSome {i : Instr} {s t : State} (h : exec i s = .next t) (hs : s.rot.isSome) : t.rot.isSome := by
  obtain ⟨u, hp, -, -, ⟨v, hw, rfl⟩ | ⟨k, c, rfl⟩⟩ := exec_ok_or_error h
  · exact hw.rot' (hp.rot ▸ hs)
  · exact ((u.dropResults_rot _).trans hp.rot) ▸ hs

/-! ### `PBUF` -/

theorem pixelsOk_setPixels (s : State) {cs : List RGB} (h : cs.length = 64) : (s.setPixels cs).PixelsOk := by
  refine .inl fun i => ?_
  rw [setPixels_get, List.getElem?_eq_getElem (by omega)]
  rfl

theorem pixelsOk_of_none {t : State} (h : t.pbuf = Vector.replicate 64 none) : t.PixelsOk := by
  refine .inr fun i => ?_
  rw [h]
  simp [Vector.get]

theorem bind_eq_ok {α β : Type} {r : Res α} {f : α → State → Res β} {b : β} {u : State} (h : r.bind f = .ok b u) :
    ∃ a t, r = .ok a t ∧ f a t = .ok b u := by
  cases r with
  | ok a t => exact ⟨a, t, rfl, h⟩
  | err => cases h
  | stall => cases h
  | unwritten => cases h

/-- A command that writes 64 pixels where its work went well leaves `PBUF` whole (R29). -/
theorem pixelsOk_finish {α : Type} {r : Res α} {f : α → List RGB} {len : Nat} {t : State}
    (hf : ∀ a u, r = .ok a u → (f a).length = 64)
    (h : r.finish len .pbuf (fun a u => u.setPixels (f a)) = .next t) : t.PixelsOk := by
  rcases finish_next h with ⟨a, u, hr, rfl⟩ | ⟨k, c, u, -, rfl⟩
  · exact pixelsOk_setPixels u (hf a u hr)
  · exact pixelsOk_of_none rfl

theorem exec_getpixels_pixelsOk {s t : State} (h : exec .getpixels s = .next t) : t.PixelsOk := by
  refine pixelsOk_finish (f := List.map unpack) (fun vs u hr => ?_) h
  obtain ⟨tbl, t, -, hread⟩ := bind_eq_ok hr
  obtain ⟨w, hcells, -⟩ := withFb_inv hread
  rw [List.length_map, readCells_length hcells, frameOffsets_length]

theorem exec_ldimg_pixelsOk {src : Half} {redraw : Bool} {s t : State} (h : exec (.ldimg src redraw) s = .next t) :
    t.PixelsOk := by
  refine pixelsOk_finish (f := id) (fun img u hr => ?_) h
  obtain ⟨_, t, -, hwork⟩ := bind_eq_ok hr
  have himg : img = (sampleAll gridCoords t).1 := by
    cases redraw with
    | false => cases hwork; rfl
    | true =>
      rw [if_pos rfl] at hwork
      obtain ⟨_, w, -, hdone⟩ := bind_eq_ok hwork
      cases hdone
      rfl
  rw [id, himg, sampleAll_length, gridCoords_length]

theorem exec_keeps_pixelsOk {i : Instr} {s t : State} (h : exec i s = .next t) (hs : s.PixelsOk) : t.PixelsOk := by
  obtain ⟨hkept, -⟩ := resultRegistersFrame i s t h
  have hsame (hb : t.pbuf = s.pbuf) : t.PixelsOk := by rw [State.PixelsOk, hb]; exact hs
  cases i with
  | getpixels => exact exec_getpixels_pixelsOk h
  | ldimg src redraw => exact exec_ldimg_pixelsOk h
  | getraw => exact hsame hkept
  | torgb =>
    obtain ⟨-, hb⟩ := hkept
    exact hsame hb
  | mapxy =>
    obtain ⟨-, -, hb⟩ := hkept
    exact hsame hb
  | pack | unpack | getpixel | maxraw =>
    obtain ⟨-, -, -, hb⟩ := hkept
    exact hsame hb
  | setrot | setpixel | setpixels | clear | setgain | setinteg | enable =>
    obtain ⟨-, -, -, -, hb⟩ := hkept
    exact hsame hb

/-! ### The command pointer -/

/-- A command that decodes has all its words, so `cp` does not pass the words offered. -/
theorem words_le_of_decode {ws : List Word} {i : Instr} (h : decode ws = .command i) : i.words ≤ ws.length := by
  obtain ⟨-, hlen, rest, rfl⟩ := encodeDecodeAgree ws i h
  rw [List.length_append, hlen]
  exact Nat.le_add_right _ _

theorem assemble_illegal_le {op : Op} {w : Word} {ps : List Word} {len : Nat} (h : assemble op w ps = .illegal len) :
    len ≤ 1 + ps.length := by
  cases op with
  | setpixel =>
    simp only [assemble] at h
    split at h
    · split at h <;> cases h
      simp
    · cases h
  | setpixels =>
    simp only [assemble] at h
    split at h <;> cases h
    exact le_rfl
  | torgb =>
    simp only [assemble] at h
    split at h <;> cases h
  | _ => cases h

/-- An illegal command is consumed whole, and no word beyond it. -/
theorem illegal_le_of_decode {ws : List Word} {len : Nat} (h : decode ws = .illegal len) : len ≤ ws.length := by
  cases ws with
  | nil => cases h
  | cons w rest =>
    cases hrow : findRow w with
    | none =>
      rw [decode_cons_illegal hrow] at h
      cases h
      simp
    | some r =>
      by_cases hlen : rest.length < payloadLength r.format w
      · rw [decode_cons_incomplete hrow hlen] at h; cases h
      · rw [decode_cons_of_findRow hrow (Nat.not_lt.mp hlen)] at h
        have hle := assemble_illegal_le h
        rw [List.length_take] at hle
        rw [List.length_cons]
        omega

/-! ### The whole invariant -/

theorem exec_keeps_inv {i : Instr} {s t : State} (hdecode : decode (s.words.drop s.cp) = .command i)
    (h : exec i s = .next t) (hs : s.Inv) : t.Inv := by
  obtain ⟨homap, -, -, -⟩ := exec_keeps_fixed h
  obtain ⟨hcp, hwords⟩ := exec_cp_words h
  obtain ⟨hcycles, htiming, hsome⟩ := exec_keeps_integration h hs.cycles hs.timing hs.values.2
  have hle := words_le_of_decode hdecode
  have hpointer := hs.pointer
  rw [List.length_drop] at hle
  exact {
    mem := exec_keeps_memOk h hs.mem
    omap := homap.trans hs.omap
    status := exec_keeps_statusOk h hs.status
    cycles := hcycles
    gain := exec_keeps_gainOk h hs.gain
    timing := htiming
    pixels := exec_keeps_pixelsOk h hs.pixels
    values := ⟨exec_keeps_rot_isSome h hs.values.1, hsome⟩
    pointer := by rw [hcp, hwords]; omega }

/-- An illegal command sets the code and the log bit of IllegalCommand, and changes nothing else that the invariant names
but `cp`. -/
theorem illegal_keeps_inv {len : Nat} {s : State} (hdecode : decode (s.words.drop s.cp) = .illegal len) (hs : s.Inv) :
    (s.errored 10 0 len).Inv := by
  have hle := illegal_le_of_decode hdecode
  have hpointer := hs.pointer
  rw [List.length_drop] at hle
  obtain ⟨-, hreserved, -, -⟩ := hs.status
  exact { hs with
    status := ⟨by simp [State.errored], reserved_or_twoPow (by decide) (by decide) hreserved, fun _ => by
      simp [State.errored], fun _ => rfl⟩
    pointer := by simp only [State.errored]; omega }

/-- Settles O57: a command, an illegal command and an idle step each keep the invariant; and where `ROT` and `CYCLES` hold
values, no command comes to a read of a register without one. -/
theorem stepKeepsInvariant : Obligations.StepKeepsInvariant := by
  refine ⟨fun s t hs h => ?_, fun s l hs h => ?_⟩
  · rcases step_next h with ⟨i, hf, hexec⟩ | ⟨len, hf, rfl⟩ | ⟨-, rfl⟩
    · exact exec_keeps_inv hf hexec hs
    · exact illegal_keeps_inv hf hs
    · exact hs
  · obtain ⟨hrot, hcycles⟩ := hs.values
    cases hf : fetch s with
    | command i =>
      rw [step_of_command hf] at h
      rcases exec_unwritten h with ⟨-, hnone⟩ | ⟨-, hnone⟩
      · rw [hnone] at hrot; cases hrot
      · rw [hnone] at hcycles; cases hcycles
    | illegal len => rw [step_of_illegal hf] at h; cases h
    | incomplete => rw [step_of_incomplete hf] at h; cases h
    | idle => simp only [step, hf] at h; cases h

end Sys2Proof.Machine
end

section
/-! Reset, the step at its decoded command, and what the host reads (10_state.md sections 7 and 10, 30_encoding.md section 1,
70_reset_and_hazards.md). -/

namespace Sys2Proof.Machine

/-- Settles O7: the decoder's verdict selects the branch of the step. -/
theorem stepRunsDecodedCommand : Obligations.StepRunsDecodedCommand := by
  refine ⟨fun s i => step_of_command, fun s hend => ?_⟩
  have hidle : fetch s = .idle := by rw [fetch, hend, List.drop_length, decode]
  simp only [step, hidle]

/-! ### Reset -/

/-- Settles O55: the fields of `State.reset`, which a reset event sets too. -/
theorem resetState : Obligations.ResetState :=
  ⟨⟨rfl, rfl, rfl, rfl, rfl, rfl, rfl, rfl, rfl, rfl, rfl⟩,
    fun _ => ⟨rfl, rfl, rfl, rfl, rfl, rfl, rfl, rfl, rfl, rfl, rfl, rfl, rfl, rfl⟩⟩

/-- Settles O56: no byte is listed, no error is set, and the reset values of the registers are in their ranges. -/
theorem resetMeetsInvariant : Obligations.ResetMeetsInvariant where
  mem := ⟨reset_mem_wf, fun _ h => absurd h List.not_mem_nil⟩
  omap := rfl
  status := by decide
  cycles := by rintro c ⟨⟩; decide
  gain := by rintro g ⟨⟩; decide
  timing := by rintro w ⟨⟩; rfl
  pixels := pixelsOk_of_none rfl
  values := ⟨rfl, rfl⟩
  pointer := le_rfl

/-! ### The host's read of a register without a value -/

/-- Where no result register holds a value, none of their numbers has content. -/
theorem regContent_results_none {s : State} {rn : Nat} (h0 : s.d0 = none) (h1 : s.d1 = none) (h2 : s.d2 = none)
    (h3 : s.d3 = none) (hb : s.pbuf = noPixels) (hrn : (0x008 ≤ rn ∧ rn ≤ 0x00B) ∨ (0x040 ≤ rn ∧ rn ≤ 0x07F)) :
    regContent s rn = none := by
  rcases hrn with ⟨hlo, hhi⟩ | ⟨hlo, hhi⟩
  · interval_cases rn
    · exact h0
    · exact h1
    · exact h2
    · exact h3
  · obtain ⟨n, rfl⟩ := Nat.exists_eq_add_of_le hlo
    have hpixel : s.pbuf.get ⟨n, by omega⟩ = none := by rw [hb]; simp [noPixels, Vector.get]
    rw [regContent_pbuf s ⟨n, by omega⟩, hpixel, Option.map_none]

/-- Settles O60: a read returns the register's content where there is one, else the free value of that read; and after
reset the result registers have no content. -/
theorem hostReadValue : Obligations.HostReadValue := by
  refine ⟨fun k s rn => ?_, fun k s rn hrn => ⟨?_, ?_⟩⟩
  · cases hc : regContent s rn with
    | some v => exact .inl ⟨v, regReadOrFault_ok.mpr hc, regRead_of_content hc k⟩
    | none => exact .inr ⟨regReadOrFault_error.mpr ⟨hc, rfl⟩, regRead_of_none hc k⟩
  · exact regRead_of_none (regContent_results_none rfl rfl rfl rfl rfl hrn) k
  · exact regRead_of_none (regContent_results_none rfl rfl rfl rfl rfl hrn) k

end Sys2Proof.Machine
end

section
/-! The events of one command: where the accesses and the failing request stand (20_memory.md section 1, 60_exceptions.md
R202). -/

namespace Sys2Proof.Machine

/-! ### Events that are no part of a framebuffer access -/

theorem quiet_facts {e : Event} (h : e.isDeviceIO = false) :
    e.failCause = none ∧ e.offset = none ∧ e ≠ .fbRelease ∧ e ≠ .fbAcquire (.ok ()) := by
  cases e with
  | imgOpen | imgSample | delay => simp [Event.failCause, Event.offset]
  | fbAcquire | fbRead | fbWrite | fbRelease | busWrite | busRead16 => cases h

/-- An event with an offset, or one that failed, is neither an acquire that went well nor a release. -/
theorem ne_bracket_of_isAccess {e : Event} (h : e.IsAccess) : e ≠ .fbRelease ∧ e ≠ .fbAcquire (.ok ()) := by
  obtain ⟨off, hoff, -⟩ := h
  constructor <;> rintro rfl <;> cases hoff

theorem ne_bracket_of_failCause {e : Event} {c : Word} (h : e.failCause = some c) :
    e ≠ .fbRelease ∧ e ≠ .fbAcquire (.ok ()) := by
  constructor <;> rintro rfl <;> cases h

theorem offset_ne_none_of_isAccess {e : Event} (h : e.IsAccess) : e.offset ≠ none := by
  obtain ⟨off, hoff, -⟩ := h
  rw [hoff]
  exact Option.some_ne_none off

/-! ### The events of a command that completes -/

/-- SETINTEG uses the bus alone: a write, and, if it went well, the delay. -/
theorem exec_setinteg_events {cycles : Half} {s t : State} (h : exec (.setinteg cycles) s = .next t) :
    (t.err ≠ 4 ∧ ∀ e ∈ newEvents s t, e.Harmless) ∨
      ∃ e, t.err = 4 ∧ newEvents s t = [e] ∧ e.offset = none ∧ e.failCause = some t.errCause := by
  by_cases hc : 1 ≤ cycles.toInt ∧ cycles.toInt ≤ 256
  · obtain ⟨hlo, hhi⟩ := hc
    obtain ⟨-, -, hwrite⟩ := setintegCommand
    obtain ⟨hok, hfail⟩ := hwrite cycles s hlo hhi
    cases ha : s.busAnswer 0 with
    | ok =>
      rw [hok ha] at h
      cases h
      refine .inl ⟨by simp [State.succeeded], ?_⟩
      rw [newEvents_of_append rfl]
      simp [Event.Harmless, Event.failCause, Event.offset]
    | fail e =>
      rw [hfail e ha] at h
      cases h
      exact .inr ⟨_, rfl, newEvents_of_append rfl, rfl, rfl⟩
    | stall =>
      rw [exec_setinteg_inside hlo hhi, busWrite_stall _ _ ha, finish_stall] at h
      cases h
  · rw [exec_setinteg_outside hc] at h
    cases h
    refine .inl ⟨by simp [State.errored], ?_⟩
    rw [newEvents_of_append (es := []) (by simp [State.errored])]
    simp

/-- The events of a command that completes have one of the shapes of `EventShape`, with a failure exactly when the command
ends in DeviceIOError. -/
theorem exec_events {i : Instr} {s t : State} (h : exec i s = .next t) :
    (t.err ≠ 4 ∧ EventShape none (newEvents s t)) ∨ (t.err = 4 ∧ EventShape (some t.errCause) (newEvents s t)) := by
  by_cases hi : ∃ cycles, i = .setinteg cycles
  · obtain ⟨cycles, rfl⟩ := hi
    rcases exec_setinteg_events h with ⟨herr, hes⟩ | ⟨e, herr, hes, hoff, hc⟩
    · exact .inl ⟨herr, .bus _ hes⟩
    · exact .inr ⟨herr, hes ▸ .busFail [] e _ (by simp) hoff hc⟩
  · cases exec_next h with
    | ok u v es hp htr he hm hs hw ht =>
      have htrace : t.trace = s.trace ++ es := by
        rcases hw.trace with hv | ⟨us, -, hset⟩
        · rw [ht, State.succeeded, hv, htr]
        · exact absurd hset hi
      rw [newEvents_of_append htrace, ht]
      exact .inl ⟨by simp [State.succeeded], he⟩
    | invalid k u es hp htr hq hk hk' himg hgr hne hm ht =>
      obtain ⟨herr, -, -, htrace⟩ := errored_status hp ht
      rw [newEvents_of_append (htrace.trans htr), herr]
      exact .inl ⟨mt ErrKind.code_eq_four.mp hk, .quiet es hq⟩
    | fail c u es hp htr he hm hs hn ht =>
      obtain ⟨herr, -, hcause, htrace⟩ := errored_status (k := .deviceIOError) hp ht
      rw [newEvents_of_append (htrace.trans htr), hcause]
      exact .inr ⟨herr, he⟩

/-! ### The first request that fails ends the command (R202) -/

theorem EventShape.failing_last {c : Word} {es : List Event} (h : EventShape (some c) es) :
    ∃ (before : List Event) (e : Event), (es = before ++ [e] ∨ es = before ++ [e, Event.fbRelease]) ∧
      e.failCause = some c ∧ ∀ e' ∈ before, e'.failCause = none := by
  cases h with
  | busFail es e _ h he hc => exact ⟨es, e, .inl rfl, hc, fun e' he' => (h e' he').1⟩
  | fbFail pre es e _ hp h he hc =>
    refine ⟨pre ++ Event.fbAcquire (.ok ()) :: es, e, .inr (by simp), hc, fun e' he' => ?_⟩
    rcases List.mem_append.mp he' with h1 | h1
    · exact (quiet_facts (hp e' h1)).1
    · rcases List.mem_cons.mp h1 with rfl | h2
      · rfl
      · exact (h e' h2).2
  | acquireFail pre _ hp => exact ⟨pre, _, .inl rfl, rfl, fun e' he' => (quiet_facts (hp e' he')).1⟩

/-- A command that ended in an error wrote none of the registers that SETROT, SETGAIN and SETINTEG write. -/
theorem exec_error_keeps_registers {i : Instr} {s t : State} (h : exec i s = .next t) (herr : t.err ≠ 0) :
    t.rot = s.rot ∧ t.gain = s.gain ∧ t.cycles = s.cycles ∧ t.timing = s.timing := by
  obtain ⟨u, hp, -, -, ⟨v, -, rfl⟩ | ⟨k, c, rfl⟩⟩ := exec_ok_or_error h
  · exact absurd rfl herr
  · exact ⟨(u.dropResults_rot _).trans hp.rot, (u.dropResults_gain _).trans hp.gain,
      (u.dropResults_cycles _).trans hp.cycles, (u.dropResults_timing _).trans hp.timing⟩

/-- Settles O44: in each shape with a failure the failing event is the last but for the release. -/
theorem deviceErrorEndsCommand : Obligations.DeviceErrorEndsCommand := by
  intro i s t h herr
  rcases exec_events h with ⟨hne, -⟩ | ⟨-, hshape⟩
  · exact absurd herr hne
  · exact ⟨hshape.failing_last, exec_error_keeps_registers h (by rw [herr]; decide)⟩

/-! ### The accesses of a command -/

/-- The event is neither an access nor one of the two events between which accesses stand. -/
def Event.OffPort (e : Event) : Prop := e.offset = none ∧ e ≠ .fbRelease ∧ e ≠ .fbAcquire (.ok ())

/-- Either the command did not get the framebuffer port, or its accesses fill the gap between acquire and release. -/
def Bracketed (es : List Event) : Prop :=
  (∀ e ∈ es, e.OffPort) ∨
    ∃ pre mid : List Event, es = pre ++ [Event.fbAcquire (.ok ())] ++ mid ++ [Event.fbRelease] ∧
      (∀ e ∈ pre, e.isDeviceIO = false) ∧ ∀ e ∈ mid, e.IsAccess

theorem EventShape.bracketed {c : Option Word} {es : List Event} (h : EventShape c es) : Bracketed es := by
  cases h with
  | quiet _ h => exact .inl fun e he => (quiet_facts (h e he)).2
  | bus _ h => exact .inl fun e he => (h e he).2
  | busFail es e c h hoff hc =>
    refine .inl fun e' he' => ?_
    rcases List.mem_append.mp he' with h1 | h1
    · exact (h e' h1).2
    · rw [List.mem_singleton.mp h1]
      exact ⟨hoff, ne_bracket_of_failCause hc⟩
  | fb pre es hp h => exact .inr ⟨pre, es, by simp, hp, fun e he => (h e he).1⟩
  | fbFail pre es e c hp h he hc =>
    refine .inr ⟨pre, es ++ [e], by simp, hp, fun e' he' => ?_⟩
    rcases List.mem_append.mp he' with h1 | h1
    · exact (h e' h1).1
    · rw [List.mem_singleton.mp h1]
      exact he
  | acquireFail pre c hp =>
    refine .inl fun e he => ?_
    rcases List.mem_append.mp he with h1 | h1
    · exact (quiet_facts (hp e h1)).2
    · rw [List.mem_singleton.mp h1]
      exact ⟨rfl, by simp, by simp⟩

theorem exec_bracketed {i : Instr} {s t : State} (h : exec i s = .next t) : Bracketed (newEvents s t) := by
  rcases exec_events h with ⟨-, hshape⟩ | ⟨-, hshape⟩
  · exact hshape.bracketed
  · exact hshape.bracketed

theorem Bracketed.isAccess {es : List Event} (h : Bracketed es) {e : Event} (he : e ∈ es) (hoff : e.offset ≠ none) :
    e.IsAccess := by
  rcases h with hoffPort | ⟨pre, mid, rfl, hpre, hmid⟩
  · exact absurd (hoffPort e he).1 hoff
  · simp only [List.mem_append, List.mem_singleton] at he
    rcases he with ((h1 | rfl) | h1) | rfl
    · exact absurd (quiet_facts (hpre e h1)).2.1 hoff
    · exact absurd rfl hoff
    · exact hmid e h1
    · exact absurd rfl hoff

/-- Settles O50: what a command can leave in the framebuffer, and that an event with an offset is an access of the frame. -/
theorem framebufferFrame : Obligations.FramebufferFrame := by
  intro i s t h
  obtain ⟨hlow, hsame⟩ := exec_mem h
  refine ⟨fun hstores a => congrArg (memGet · a) (hsame hstores), hlow.high, fun e he off hoff => ?_⟩
  have hne : e.offset ≠ none := by rw [Option.mem_def.mp hoff]; exact Option.some_ne_none off
  obtain ⟨off', hoff', hbound⟩ := (exec_bracketed h).isAccess he hne
  obtain rfl : off' = off := Option.some.inj (hoff'.symm.trans hoff)
  exact hbound

/-- Between acquire and release, and before the acquire, there is no further acquire or release. -/
theorem count_bracketed {pre mid : List Event} (hpre : ∀ e ∈ pre, e.isDeviceIO = false) (hmid : ∀ e ∈ mid, e.IsAccess) :
    (pre ++ [Event.fbAcquire (.ok ())] ++ mid ++ [Event.fbRelease]).count (Event.fbAcquire (.ok ())) = 1 ∧
      (pre ++ [Event.fbAcquire (.ok ())] ++ mid ++ [Event.fbRelease]).count Event.fbRelease = 1 := by
  have hpreAcquire : Event.fbAcquire (.ok ()) ∉ pre := fun h => (quiet_facts (hpre _ h)).2.2.2 rfl
  have hpreRelease : Event.fbRelease ∉ pre := fun h => (quiet_facts (hpre _ h)).2.2.1 rfl
  have hmidAcquire : Event.fbAcquire (.ok ()) ∉ mid := fun h => (ne_bracket_of_isAccess (hmid _ h)).2 rfl
  have hmidRelease : Event.fbRelease ∉ mid := fun h => (ne_bracket_of_isAccess (hmid _ h)).1 rfl
  simp [List.count_append, List.count_eq_zero_of_not_mem, *]

/-- Settles O51: a command that got the port has one acquire and one release, around all its accesses; any other has none. -/
theorem framebufferPortBracketed : Obligations.FramebufferPortBracketed := by
  intro i s t h
  rcases exec_bracketed h with hoffPort | ⟨pre, mid, hes, hpre, hmid⟩
  · have hacquire : (newEvents s t).count (Event.fbAcquire (.ok ())) = 0 :=
      List.count_eq_zero_of_not_mem fun he => (hoffPort _ he).2.2 rfl
    have hrelease : (newEvents s t).count Event.fbRelease = 0 :=
      List.count_eq_zero_of_not_mem fun he => (hoffPort _ he).2.1 rfl
    exact ⟨by rw [hacquire, hrelease], by omega, fun ⟨e, he, hoff⟩ => absurd (hoffPort e he).1 hoff⟩
  · obtain ⟨hacquire, hrelease⟩ := count_bracketed hpre hmid
    rw [hes]
    exact ⟨by rw [hacquire, hrelease], by omega,
      fun _ => ⟨pre, mid, rfl, hpre, fun e he => offset_ne_none_of_isAccess (hmid e he)⟩⟩

end Sys2Proof.Machine
end

section
/-! Two runs of one command from related states (00_scope.md section 1, 10_state.md section 4): if the relation is kept by
what a command reads and writes, the runs answer alike and end in related states. -/

namespace Sys2Proof.Machine

/-! ### Related results -/

/-- The same result, from related states. -/
inductive Res.Rel (R : State → State → Prop) {α : Type} : Res α → Res α → Prop
  | ok (a : α) {s s' : State} (h : R s s') : Rel R (.ok a s) (.ok a s')
  | err (k : ErrKind) (c : Word) {s s' : State} (h : R s s') : Rel R (.err k c s) (.err k c s')
  | stall {s s' : State} (h : R s s') : Rel R (.stall s) (.stall s')
  | unwritten {s s' : State} (h : R s s') : Rel R (.unwritten s) (.unwritten s')

/-- The same outcome, with related states. -/
inductive OutRel (R : State → State → Prop) : Out → Out → Prop
  | next {s s' : State} (h : R s s') : OutRel R (.next s) (.next s')
  | stuck {s s' : State} (h : R s s') : OutRel R (.fault (.stuckPort s)) (.fault (.stuckPort s'))
  | unwritten {s s' : State} (h : R s s') : OutRel R (.fault (.unwrittenState s)) (.fault (.unwrittenState s'))

theorem OutRel.of_next {R : State → State → Prop} {o' : Out} {t : State} (h : OutRel R (.next t) o') :
    ∃ t', o' = .next t' ∧ R t t' := by
  cases h with
  | next h => exact ⟨_, rfl, h⟩

theorem Res.Rel.bind {R : State → State → Prop} {α β : Type} {r r' : Res α} {f : α → State → Res β} (h : r.Rel R r')
    (hf : ∀ a u u', R u u' → (f a u).Rel R (f a u')) : (r.bind f).Rel R (r'.bind f) := by
  cases h with
  | ok a h => exact hf a _ _ h
  | err k c h => exact .err k c h
  | stall h => exact .stall h
  | unwritten h => exact .unwritten h

/-- The relation is kept by what every command does: events, results and completion. -/
structure Sim (R : State → State → Prop) : Prop where
  log (e : Event) {s s' : State} : R s s' → R (s.log e) (s'.log e)
  d0 (v : Option Word) {s s' : State} : R s s' → R { s with d0 := v } { s' with d0 := v }
  d1 (v : Option Word) {s s' : State} : R s s' → R { s with d1 := v } { s' with d1 := v }
  d2 (v : Option Word) {s s' : State} : R s s' → R { s with d2 := v } { s' with d2 := v }
  d3 (v : Option Word) {s s' : State} : R s s' → R { s with d3 := v } { s' with d3 := v }
  pbuf (p : Vector (Option (BitVec 24)) 64) {s s' : State} : R s s' → R { s with pbuf := p } { s' with pbuf := p }
  succeeded (len : Nat) {s s' : State} : R s s' → R (s.succeeded len) (s'.succeeded len)
  errored (code : Nat) (c : Word) (len : Nat) {s s' : State} : R s s' → R (s.errored code c len) (s'.errored code c len)

/-- The relation is kept by what the commands of the matrix side read and write besides. -/
structure MatrixSim (R : State → State → Prop) : Prop extends Sim R where
  rot_eq {s s' : State} : R s s' → s'.rot = s.rot
  omap_eq {s s' : State} : R s s' → s'.omap = s.omap
  mem_eq {s s' : State} : R s s' → s'.mem = s.mem
  rot (v : Option Half) {s s' : State} : R s s' → R { s with rot := v } { s' with rot := v }
  mem (m : Memory) {s s' : State} : R s s' → R { s with mem := m } { s' with mem := m }
  spoil (off : Nat) {s s' : State} : R s s' → R (s.spoilCell off) (s'.spoilCell off)
  fbAnswer {s s' : State} : R s s' → s'.fbAnswer 0 = s.fbAnswer 0
  fbUsed (n : Nat) (es : List Event) {s s' : State} : R s s' → R (s.fbUsed n es) (s'.fbUsed n es)
  imgAnswer {s s' : State} : R s s' → s'.imgAnswer = s.imgAnswer
  opened (src : Half) (a : ImgAnswer) {s s' : State} : R s s' → R (s.opened src a) (s'.opened src a)
  sample {s s' : State} : R s s' → s'.nextSample.1 = s.nextSample.1 ∧ R s.nextSample.2 s'.nextSample.2

/-- The relation is kept by what the commands of the sensor side read and write besides. -/
structure SensorSim (R : State → State → Prop) : Prop extends Sim R where
  cfg_eq {s s' : State} : R s s' → s'.cfg = s.cfg
  cycles_eq {s s' : State} : R s s' → s'.cycles = s.cycles
  gain (v : Option Half) {s s' : State} : R s s' → R { s with gain := v } { s' with gain := v }
  integration (c : Option Half) (w : Option Word) {s s' : State} :
    R s s' → R { s with cycles := c, timing := w } { s' with cycles := c, timing := w }
  busAnswer {s s' : State} : R s s' → s'.busAnswer 0 = s.busAnswer 0
  busUsed (n : Nat) (es : List Event) {s s' : State} : R s s' → R (s.busUsed n es) (s'.busUsed n es)
  data (reg : Byte) {s s' : State} : R s s' → (s'.nextData reg).1 = (s.nextData reg).1 ∧
    R (s.nextData reg).2 (s'.nextData reg).2

/-! ### Completion -/

section
variable {R : State → State → Prop}

theorem Sim.dropResults (hR : Sim R) (n : Results) {s s' : State} (h : R s s') :
    R (s.dropResults n) (s'.dropResults n) := by
  cases n with
  | nothing => exact h
  | d0 => exact hR.d0 none h
  | d0d1 => exact hR.d1 none (hR.d0 none h)
  | d0d1d2 => exact hR.d2 none (hR.d1 none (hR.d0 none h))
  | d0d1d2d3 => exact hR.d3 none (hR.d2 none (hR.d1 none (hR.d0 none h)))
  | pbuf => exact hR.pbuf noPixels h

theorem Sim.finish (hR : Sim R) {α : Type} {r r' : Res α} (len : Nat) (n : Results) {w : α → State → State}
    (hw : ∀ a u u', R u u' → R (w a u) (w a u')) (h : r.Rel R r') : OutRel R (r.finish len n w) (r'.finish len n w) := by
  cases h with
  | ok a h =>
    rw [finish_ok, finish_ok]
    exact .next (hR.succeeded len (hw a _ _ h))
  | err k c h =>
    rw [finish_err, finish_err]
    exact .next (hR.errored _ _ len (hR.dropResults n h))
  | stall h => exact .stuck h
  | unwritten h => exact .unwritten h

/-! ### The matrix side -/

theorem MatrixSim.selectTable (hR : MatrixSim R) {s s' : State} (h : R s s') :
    (selectTable s).Rel R (selectTable s') := by
  unfold Machine.selectTable
  rw [hR.rot_eq h, hR.omap_eq h]
  cases s.rot with
  | none => exact .unwritten h
  | some r =>
    simp only
    cases sel r with
    | none => exact .err _ _ h
    | some k => exact .ok _ h

theorem MatrixSim.address (hR : MatrixSim R) (x y : Byte) {s s' : State} (h : R s s') :
    (address x y s).Rel R (address x y s') := by
  unfold Machine.address
  split
  · exact (hR.selectTable h).bind fun tbl u u' hu => .ok _ hu
  · exact .err _ _ h

theorem MatrixSim.memRead (hR : MatrixSim R) (off : Nat) {s s' : State} (h : R s s') :
    (memRead off s).Rel R (memRead off s') := by
  have hans := hR.fbAnswer h
  cases h0 : s.fbAnswer 0 with
  | ok =>
    rw [memRead_ok off h0, memRead_ok off (hans.trans h0), hR.mem_eq h]
    exact .ok _ (hR.fbUsed _ _ h)
  | fail c =>
    rw [memRead_fail off h0, memRead_fail off (hans.trans h0)]
    exact .err _ _ (hR.fbUsed _ _ h)
  | stall =>
    rw [memRead_stall off h0, memRead_stall off (hans.trans h0)]
    exact .stall (hR.fbUsed _ _ h)

theorem MatrixSim.memWrite (hR : MatrixSim R) (off : Nat) (v : Half) {s s' : State} (h : R s s') :
    (memWrite off v s).Rel R (memWrite off v s') := by
  have hans := hR.fbAnswer h
  cases h0 : s.fbAnswer 0 with
  | ok =>
    rw [memWrite_ok off v h0, memWrite_ok off v (hans.trans h0), hR.mem_eq h]
    exact .ok _ (hR.fbUsed _ _ (hR.mem _ h))
  | fail c =>
    rw [memWrite_fail off v h0, memWrite_fail off v (hans.trans h0)]
    exact .err _ _ (hR.fbUsed _ _ (hR.spoil off h))
  | stall =>
    rw [memWrite_stall off v h0, memWrite_stall off v (hans.trans h0)]
    exact .stall (hR.fbUsed _ _ h)

theorem Sim.release (hR : Sim R) {α : Type} {r r' : Res α} (h : r.Rel R r') : r.release.Rel R r'.release := by
  cases h with
  | ok a h => exact .ok a (hR.log _ h)
  | err k c h => exact .err k c (hR.log _ h)
  | stall h => exact .stall h
  | unwritten h => exact .unwritten h

theorem MatrixSim.withFb (hR : MatrixSim R) {α : Type} {body : State → Res α}
    (hb : ∀ u u', R u u' → (body u).Rel R (body u')) {s s' : State} (h : R s s') :
    (withFb body s).Rel R (withFb body s') := by
  have hans := hR.fbAnswer h
  cases h0 : s.fbAnswer 0 with
  | ok =>
    rw [withFb_ok h0, withFb_ok (hans.trans h0)]
    exact hR.release (hb _ _ (hR.fbUsed _ _ h))
  | fail c =>
    rw [withFb_fail h0, withFb_fail (hans.trans h0)]
    exact .err _ _ (hR.fbUsed _ _ h)
  | stall =>
    rw [withFb_stall h0, withFb_stall (hans.trans h0)]
    exact .stall (hR.fbUsed _ _ h)

theorem MatrixSim.writeCells (hR : MatrixSim R) (ws : List (Nat × Half)) {s s' : State} (h : R s s') :
    (writeCells ws s).Rel R (writeCells ws s') := by
  induction ws generalizing s s' with
  | nil => exact .ok _ h
  | cons w ws ih => exact (hR.memWrite w.1 w.2 h).bind fun _ _ _ hu => ih hu

theorem MatrixSim.readCells (hR : MatrixSim R) (offs : List Nat) {s s' : State} (h : R s s') :
    (readCells offs s).Rel R (readCells offs s') := by
  induction offs generalizing s s' with
  | nil => exact .ok _ h
  | cons off offs ih =>
    exact (hR.memRead off h).bind fun v _ _ hu => (ih hu).bind fun vs _ _ hw => .ok (v :: vs) hw

theorem MatrixSim.writeFrame (hR : MatrixSim R) (cs : List RGB) {s s' : State} (h : R s s') :
    (writeFrame cs s).Rel R (writeFrame cs s') :=
  (hR.selectTable h).bind fun _ _ _ hu => hR.withFb (fun _ _ hw => hR.writeCells _ hw) hu

theorem MatrixSim.imgOpen (hR : MatrixSim R) (src : Half) {s s' : State} (h : R s s') :
    (imgOpen src s).Rel R (imgOpen src s') := by
  have hans := hR.imgAnswer h
  cases h0 : s.imgAnswer with
  | ok =>
    rw [imgOpen_ok src h0, imgOpen_ok src (hans.trans h0)]
    exact .ok _ (hR.opened src _ h)
  | notFound =>
    rw [imgOpen_notFound src h0, imgOpen_notFound src (hans.trans h0)]
    exact .err _ _ (hR.opened src _ h)
  | decodeError =>
    rw [imgOpen_decodeError src h0, imgOpen_decodeError src (hans.trans h0)]
    exact .err _ _ (hR.opened src _ h)

theorem MatrixSim.sampleAll (hR : MatrixSim R) (xs : List (Nat × Nat)) {s s' : State} (h : R s s') :
    (sampleAll xs s').1 = (sampleAll xs s).1 ∧ R (sampleAll xs s).2 (sampleAll xs s').2 := by
  induction xs generalizing s s' with
  | nil => exact ⟨rfl, h⟩
  | cons p xs ih =>
    obtain ⟨hval, hnext⟩ := hR.sample h
    have himg : (imgSample p.1 p.2 s').1 = (imgSample p.1 p.2 s).1 := hval
    have hlog : R (imgSample p.1 p.2 s).2 (imgSample p.1 p.2 s').2 := by
      unfold imgSample
      rw [hval]
      exact hR.log _ hnext
    obtain ⟨hrest, hend⟩ := ih hlog
    refine ⟨?_, hend⟩
    simp only [Machine.sampleAll]
    rw [himg, hrest]

theorem exec_setrot (deg : Half) (s : State) :
    exec (.setrot deg) s = .next ({ s with rot := some deg }.succeeded 1) := rfl

/-- Every command of the matrix side answers alike from related states. -/
theorem MatrixSim.exec (hR : MatrixSim R) {i : Instr} (hi : ¬ SensorSide i) {s s' : State} (h : R s s') :
    OutRel R (exec i s) (exec i s') := by
  cases i with
  | pack c =>
    rw [exec_pack, exec_pack]
    exact .next (hR.succeeded 1 (hR.d0 _ h))
  | unpack v =>
    rw [exec_unpack, exec_unpack]
    exact .next (hR.succeeded 1 (hR.d0 _ h))
  | setrot deg =>
    rw [exec_setrot, exec_setrot]
    exact .next (hR.succeeded 1 (hR.rot _ h))
  | mapxy x y =>
    refine hR.finish 1 .d0d1 (fun p u u' hu => ?_) (hR.address x y h)
    exact hR.d1 (some (BitVec.ofNat 32 (byteOffset p))) (hR.d0 (some (p.setWidth 32)) hu)
  | getpixel x y =>
    refine hR.finish 1 .d0 (fun v u u' hu => hR.d0 _ hu) ?_
    exact (hR.address x y h).bind fun p _ _ hu => hR.withFb (fun _ _ hw => hR.memRead _ hw) hu
  | setpixel x y c =>
    refine hR.finish 2 .nothing (fun _ u u' hu => hu) ?_
    exact (hR.address x y h).bind fun p _ _ hu => hR.withFb (fun _ _ hw => hR.memWrite _ _ hw) hu
  | setpixels cs =>
    refine hR.finish (1 + cs.length) .nothing (fun _ u u' hu => hu) ?_
    split
    · exact hR.writeFrame cs h
    · exact .err _ _ h
  | getpixels =>
    refine hR.finish 1 .pbuf (fun vs u u' hu => hR.pbuf _ hu) ?_
    exact (hR.selectTable h).bind fun tbl _ _ hu => hR.withFb (fun _ _ hw => hR.readCells _ hw) hu
  | clear c => exact hR.finish 1 .nothing (fun _ u u' hu => hu) (hR.writeFrame _ h)
  | ldimg src redraw =>
    refine hR.finish 1 .pbuf (fun img u u' hu => hR.pbuf _ hu) ((hR.imgOpen src h).bind fun _ t t' ht => ?_)
    obtain ⟨himg, hend⟩ := hR.sampleAll gridCoords ht
    rw [himg]
    split
    · exact (hR.writeFrame _ hend).bind fun _ _ _ hu => .ok _ hu
    · exact .ok _ hend
  | setgain | setinteg | enable | getraw | maxraw | torgb => exact absurd trivial hi

/-! ### The sensor side -/

theorem SensorSim.busWrite (hR : SensorSim R) (reg b : Byte) {s s' : State} (h : R s s') :
    (busWrite reg b s).Rel R (busWrite reg b s') := by
  have hans := hR.busAnswer h
  cases h0 : s.busAnswer 0 with
  | ok =>
    rw [busWrite_ok reg b h0, busWrite_ok reg b (hans.trans h0), hR.cfg_eq h]
    exact .ok _ (hR.busUsed _ _ h)
  | fail c =>
    rw [busWrite_fail reg b h0, busWrite_fail reg b (hans.trans h0), hR.cfg_eq h]
    exact .err _ _ (hR.busUsed _ _ h)
  | stall =>
    rw [busWrite_stall reg b h0, busWrite_stall reg b (hans.trans h0)]
    exact .stall (hR.busUsed _ _ h)

theorem SensorSim.busRead16 (hR : SensorSim R) (reg : Byte) {s s' : State} (h : R s s') :
    (busRead16 reg s).Rel R (busRead16 reg s') := by
  have hans := hR.busAnswer h
  cases h0 : s.busAnswer 0 with
  | ok =>
    obtain ⟨hval, hnext⟩ := hR.data reg (hR.busUsed 1 [] h)
    rw [busRead16_ok reg h0, busRead16_ok reg (hans.trans h0), hR.cfg_eq h, hval]
    exact .ok _ (hR.log _ hnext)
  | fail c =>
    rw [busRead16_fail reg h0, busRead16_fail reg (hans.trans h0), hR.cfg_eq h]
    exact .err _ _ (hR.busUsed _ _ h)
  | stall =>
    rw [busRead16_stall reg h0, busRead16_stall reg (hans.trans h0)]
    exact .stall (hR.busUsed _ _ h)

theorem SensorSim.busReadAll (hR : SensorSim R) (regs : List Byte) {s s' : State} (h : R s s') :
    (busReadAll regs s).Rel R (busReadAll regs s') := by
  induction regs generalizing s s' with
  | nil => exact .ok _ h
  | cons reg regs ih =>
    exact (hR.busRead16 reg h).bind fun v _ _ hu => (ih hu).bind fun vs _ _ hw => .ok (v :: vs) hw

theorem SensorSim.readCycles (hR : SensorSim R) {s s' : State} (h : R s s') :
    (readCycles s).Rel R (readCycles s') := by
  cases hc : s.cycles with
  | none =>
    rw [readCycles_none hc, readCycles_none ((hR.cycles_eq h).trans hc)]
    exact .unwritten h
  | some c =>
    rw [readCycles_some hc, readCycles_some ((hR.cycles_eq h).trans hc)]
    exact .ok c h

/-- Every command of the sensor side answers alike from related states. -/
theorem SensorSim.exec (hR : SensorSim R) {i : Instr} (hi : SensorSide i) {s s' : State} (h : R s s') :
    OutRel R (exec i s) (exec i s') := by
  cases i with
  | setgain level =>
    refine hR.finish 1 .nothing (fun _ u u' hu => hR.gain _ hu) ?_
    rw [hR.cfg_eq h]
    split
    · exact .err _ _ h
    · exact hR.busWrite _ _ h
  | setinteg cycles =>
    refine hR.finish 1 .nothing (fun _ u u' hu => ?_) ?_
    · simpa only [hR.cfg_eq hu, delay] using hR.log (.delay u.cfg.settleIntegUs.toNat)
        (hR.integration (some cycles) (some u.cfg.settleIntegUs) hu)
    · split
      · exact hR.busWrite _ _ h
      · exact .err _ _ h
  | enable on =>
    refine hR.finish 1 .nothing (fun _ u u' hu => hu) ?_
    rw [hR.cfg_eq h]
    split
    · refine (hR.busWrite _ _ h).bind fun _ u u' hu => ?_
      rw [hR.cfg_eq hu]
      exact hR.busWrite _ _ (hR.log _ hu)
    · exact hR.busWrite _ _ h
  | getraw =>
    rw [exec_getraw, exec_getraw]
    refine hR.finish 1 .d0d1d2d3 (fun vs u u' hu => ?_) (hR.busReadAll dataRegs h)
    exact hR.d3 (vs[0]?.map (·.setWidth 32)) (hR.d2 (vs[3]?.map (·.setWidth 32))
      (hR.d1 (vs[2]?.map (·.setWidth 32)) (hR.d0 (vs[1]?.map (·.setWidth 32)) hu)))
  | maxraw =>
    refine hR.finish 1 .d0 (fun c u u' hu => ?_) (hR.readCycles h)
    simpa only [hR.cfg_eq hu] using hR.d0 (some (maxRawAt u.cfg c)) hu
  | torgb red green blue clear =>
    rw [exec_torgb, exec_torgb]
    refine hR.finish 3 .d0d1d2 (fun k u u' hu => ?_) ((hR.readCycles h).bind fun c u u' hu => ?_)
    · exact hR.d2 (some (scaled blue k)) (hR.d1 (some (scaled green k)) (hR.d0 (some (scaled red k)) hu))
    · rw [hR.cfg_eq hu]
      split
      · exact .err _ _ hu
      · exact .ok _ hu
  | pack | unpack | setrot | mapxy | getpixel | setpixel | setpixels | getpixels | clear | ldimg => exact hi.elim

end

end Sys2Proof.Machine
end

section
/-! The two sides of the hardware are independent, no command reads a result register, and ports that only answer ok stay so
(00_scope.md section 1, 10_state.md section 4, 92_eei_decisions.md D15). -/

namespace Sys2Proof.Machine

/-! ### The matrix side without the sensor -/

/-- The state with other contents of the sensor registers and of the bus's answers and data to come. -/
def State.withSensor (g c : Option Half) (tm : Option Word) (ba : List PortAnswer) (bd : List Half) (s : State) : State :=
  { s with gain := g, cycles := c, timing := tm, ports := { s.ports with bus := ba, busData := bd } }

theorem matrixSim_withSensor (g c : Option Half) (tm : Option Word) (ba : List PortAnswer) (bd : List Half) :
    MatrixSim fun s s' => s' = s.withSensor g c tm ba bd where
  log _ := by rintro s _ rfl; rfl
  d0 _ := by rintro s _ rfl; rfl
  d1 _ := by rintro s _ rfl; rfl
  d2 _ := by rintro s _ rfl; rfl
  d3 _ := by rintro s _ rfl; rfl
  pbuf _ := by rintro s _ rfl; rfl
  succeeded _ := by rintro s _ rfl; rfl
  errored _ _ _ := by rintro s _ rfl; rfl
  rot_eq := by rintro s _ rfl; rfl
  omap_eq := by rintro s _ rfl; rfl
  mem_eq := by rintro s _ rfl; rfl
  rot _ := by rintro s _ rfl; rfl
  mem _ := by rintro s _ rfl; rfl
  spoil _ := by rintro s _ rfl; rfl
  fbAnswer := by rintro s _ rfl; rfl
  fbUsed _ _ := by rintro s _ rfl; rfl
  imgAnswer := by rintro s _ rfl; rfl
  opened _ _ := by rintro s _ rfl; rfl
  sample := by
    rintro s _ rfl
    cases h : s.ports.imgSamples <;> simp [State.nextSample, State.withSensor, h]

/-! ### The sensor side without the matrix -/

/-- The state with another rotation, another framebuffer and other answers of its port to come. -/
def State.withMatrix (r : Option Half) (m : Memory) (fa : List PortAnswer) (s : State) : State :=
  { s with rot := r, mem := m, ports := { s.ports with fb := fa } }

theorem withMatrix_queuedData (r : Option Half) (m : Memory) (fa : List PortAnswer) (s : State) :
    (s.withMatrix r m fa).queuedData = (s.queuedData.1, s.queuedData.2.withMatrix r m fa) := by
  cases h : s.ports.busData <;> simp [State.queuedData, State.withMatrix, h]

theorem sensorSim_withMatrix (r : Option Half) (m : Memory) (fa : List PortAnswer) :
    SensorSim fun s s' => s' = s.withMatrix r m fa where
  log _ := by rintro s _ rfl; rfl
  d0 _ := by rintro s _ rfl; rfl
  d1 _ := by rintro s _ rfl; rfl
  d2 _ := by rintro s _ rfl; rfl
  d3 _ := by rintro s _ rfl; rfl
  pbuf _ := by rintro s _ rfl; rfl
  succeeded _ := by rintro s _ rfl; rfl
  errored _ _ _ := by rintro s _ rfl; rfl
  cfg_eq := by rintro s _ rfl; rfl
  cycles_eq := by rintro s _ rfl; rfl
  gain _ := by rintro s _ rfl; rfl
  integration _ _ := by rintro s _ rfl; rfl
  busAnswer := by rintro s _ rfl; rfl
  busUsed _ _ := by
    rintro s _ rfl
    cases h : s.cfg.backend <;> simp [State.busUsed, State.withMatrix, h]
  data reg := by
    rintro s _ rfl
    have hcfg : (s.withMatrix r m fa).cfg = s.cfg := rfl
    unfold State.nextData
    rw [hcfg]
    split
    · simp [withMatrix_queuedData]
    · split_ifs <;> simp [withMatrix_queuedData]

/-- Settles O52: the other side's registers and queues can be replaced before the command or after it. -/
theorem sensorAndMatrixIndependent : Obligations.SensorAndMatrixIndependent := by
  refine ⟨fun i s t g c tm ba bd hi h => ?_, fun i s t r m fa hi h => ?_⟩
  · have hrel := (matrixSim_withSensor g c tm ba bd).exec hi (s := s) rfl
    rw [h] at hrel
    obtain ⟨t', ht', rfl⟩ := hrel.of_next
    exact ht'
  · have hrel := (sensorSim_withMatrix r m fa).exec hi (s := s) rfl
    rw [h] at hrel
    obtain ⟨t', ht', rfl⟩ := hrel.of_next
    exact ht'

/-! ### Result registers -/

/-- The state with other contents of the result registers. -/
def State.withResults (a b c d : Option Word) (p : Vector (Option (BitVec 24)) 64) (s : State) : State :=
  { s with d0 := a, d1 := b, d2 := c, d3 := d, pbuf := p }

/-- `s'` is `s` but for result registers, each of which is the same or the one content that is carried along. -/
def CarriedResults (a b c d : Option Word) (p : Vector (Option (BitVec 24)) 64) (s s' : State) : Prop :=
  s' = s.withResults s'.d0 s'.d1 s'.d2 s'.d3 s'.pbuf ∧ (s'.d0 = s.d0 ∨ s'.d0 = a) ∧ (s'.d1 = s.d1 ∨ s'.d1 = b) ∧
    (s'.d2 = s.d2 ∨ s'.d2 = c) ∧ (s'.d3 = s.d3 ∨ s'.d3 = d) ∧ (s'.pbuf = s.pbuf ∨ s'.pbuf = p)

section
variable {a b c d : Option Word} {p : Vector (Option (BitVec 24)) 64}

/-- What reads no result register and leaves them all keeps the carried contents. -/
theorem CarriedResults.map {f : State → State} {s s' : State} (h : CarriedResults a b c d p s s')
    (hf : ∀ a b c d p, f (s.withResults a b c d p) = (f s).withResults a b c d p)
    (hk : f s = (f s).withResults s.d0 s.d1 s.d2 s.d3 s.pbuf) : CarriedResults a b c d p (f s) (f s') := by
  obtain ⟨hs, h0, h1, h2, h3, hp⟩ := h
  rw [hs, hf]
  rw [hk]
  exact ⟨rfl, h0, h1, h2, h3, hp⟩

theorem sim_carriedResults : Sim (CarriedResults a b c d p) where
  log _ _ _ h := h.map (f := fun s => s.log _) (fun _ _ _ _ _ => rfl) rfl
  d0 v := by rintro s s' ⟨hs, -, h⟩; exact ⟨by rw [hs]; rfl, .inl rfl, h⟩
  d1 v := by rintro s s' ⟨hs, h0, -, h⟩; exact ⟨by rw [hs]; rfl, h0, .inl rfl, h⟩
  d2 v := by rintro s s' ⟨hs, h0, h1, -, h⟩; exact ⟨by rw [hs]; rfl, h0, h1, .inl rfl, h⟩
  d3 v := by rintro s s' ⟨hs, h0, h1, h2, -, h⟩; exact ⟨by rw [hs]; rfl, h0, h1, h2, .inl rfl, h⟩
  pbuf q := by rintro s s' ⟨hs, h0, h1, h2, h3, -⟩; exact ⟨by rw [hs]; rfl, h0, h1, h2, h3, .inl rfl⟩
  succeeded len _ _ h := h.map (f := fun s => s.succeeded len) (fun _ _ _ _ _ => rfl) rfl
  errored code w len _ _ h := h.map (f := fun s => s.errored code w len) (fun _ _ _ _ _ => rfl) rfl

/-- Port requests leave the result registers as they were. -/
theorem PortStep.withResults_eq {s t : State} (h : PortStep s t) : t = t.withResults s.d0 s.d1 s.d2 s.d3 s.pbuf := by
  rw [← h.d0, ← h.d1, ← h.d2, ← h.d3, ← h.pbuf]
  rfl

/-- What reads a part of the state that holds no result register finds the same there. -/
theorem CarriedResults.eq {β : Type} {f : State → β} {s s' : State} (h : CarriedResults a b c d p s s')
    (hf : ∀ a b c d p, f (s.withResults a b c d p) = f s) : f s' = f s := by
  rw [h.1, hf]

theorem withResults_nextSample (s : State) :
    (s.withResults a b c d p).nextSample = (s.nextSample.1, s.nextSample.2.withResults a b c d p) := by
  cases h : s.ports.imgSamples <;> simp [State.nextSample, State.withResults, h]

theorem matrixSim_carriedResults : MatrixSim (CarriedResults a b c d p) where
  toSim := sim_carriedResults
  rot_eq h := h.eq (f := State.rot) fun _ _ _ _ _ => rfl
  omap_eq h := h.eq (f := State.omap) fun _ _ _ _ _ => rfl
  mem_eq h := h.eq (f := State.mem) fun _ _ _ _ _ => rfl
  rot v _ _ h := h.map (f := fun s => { s with rot := v }) (fun _ _ _ _ _ => rfl) rfl
  mem m _ _ h := h.map (f := fun s => { s with mem := m }) (fun _ _ _ _ _ => rfl) rfl
  spoil off _ _ h := h.map (f := fun s => s.spoilCell off) (fun _ _ _ _ _ => rfl) rfl
  fbAnswer h := h.eq (f := fun s => s.fbAnswer 0) fun _ _ _ _ _ => rfl
  fbUsed n es _ _ h := h.map (f := fun s => s.fbUsed n es) (fun _ _ _ _ _ => rfl) rfl
  imgAnswer h := h.eq (f := State.imgAnswer) fun _ _ _ _ _ => rfl
  opened src a _ _ h := h.map (f := fun s => s.opened src a) (fun _ _ _ _ _ => rfl) rfl
  sample h := ⟨h.eq (f := fun s => s.nextSample.1) fun _ _ _ _ _ => by rw [withResults_nextSample],
    h.map (f := fun s => s.nextSample.2) (fun _ _ _ _ _ => by rw [withResults_nextSample])
      (portStep_nextSample _).withResults_eq⟩

theorem withResults_queuedData (s : State) :
    (s.withResults a b c d p).queuedData = (s.queuedData.1, s.queuedData.2.withResults a b c d p) := by
  cases h : s.ports.busData <;> simp [State.queuedData, State.withResults, h]

theorem withResults_nextData (reg : Byte) (s : State) :
    (s.withResults a b c d p).nextData reg = ((s.nextData reg).1, (s.nextData reg).2.withResults a b c d p) := by
  have hcfg : (s.withResults a b c d p).cfg = s.cfg := rfl
  unfold State.nextData
  rw [hcfg]
  split
  · exact withResults_queuedData s
  · split_ifs <;> simp [withResults_queuedData]

theorem sensorSim_carriedResults : SensorSim (CarriedResults a b c d p) where
  toSim := sim_carriedResults
  cfg_eq h := h.eq (f := State.cfg) fun _ _ _ _ _ => rfl
  cycles_eq h := h.eq (f := State.cycles) fun _ _ _ _ _ => rfl
  gain v _ _ h := h.map (f := fun s => { s with gain := v }) (fun _ _ _ _ _ => rfl) rfl
  integration c w _ _ h := h.map (f := fun s => { s with cycles := c, timing := w }) (fun _ _ _ _ _ => rfl) rfl
  busAnswer h := h.eq (f := fun s => s.busAnswer 0) fun _ _ _ _ _ => rfl
  busUsed n es _ _ h := h.map (f := fun s => s.busUsed n es) (fun _ _ _ _ _ => rfl) rfl
  data reg _ _ h := ⟨h.eq (f := fun s => (s.nextData reg).1) fun _ _ _ _ _ => by rw [withResults_nextData],
    h.map (f := fun s => (s.nextData reg).2) (fun _ _ _ _ _ => by rw [withResults_nextData])
      (portStep_nextData _ reg).withResults_eq⟩

end

/-- A command belongs to one of the two sides, so what both sides keep every command keeps. -/
theorem exec_sim {R : State → State → Prop} (hm : MatrixSim R) (hs : SensorSim R) (i : Instr) {s s' : State}
    (h : R s s') : OutRel R (exec i s) (exec i s') := by
  by_cases hi : SensorSide i
  · exact hs.exec hi h
  · exact hm.exec hi h

/-- Settles O53: the run from the other contents ends in the same state but for contents carried along. -/
theorem resultRegistersNeverRead : Obligations.ResultRegistersNeverRead := by
  intro i s t a b c d p h
  have hstart : CarriedResults a b c d p s (s.withResults a b c d p) :=
    ⟨rfl, .inr rfl, .inr rfl, .inr rfl, .inr rfl, .inr rfl⟩
  have hrel := exec_sim matrixSim_carriedResults sensorSim_carriedResults i hstart
  rw [h] at hrel
  exact hrel.of_next

/-! ### Ports that answer ok -/

/-- The same state, all of whose answers to come are ok. -/
def SameNoFail (s s' : State) : Prop := s' = s ∧ s.NoIOFail

theorem SameNoFail.map {f : State → State} {s s' : State} (h : SameNoFail s s')
    (hf : s.NoIOFail → (f s).NoIOFail) : SameNoFail (f s) (f s') :=
  ⟨congrArg f h.1, hf h.2⟩

theorem noFail_fbUsed (s : State) (n : Nat) (es : List Event) (h : s.NoIOFail) : (s.fbUsed n es).NoIOFail :=
  ⟨fun a ha => h.1 a (List.mem_of_mem_drop ha), h.2⟩

theorem noFail_nextSample (s : State) (h : s.NoIOFail) : s.nextSample.2.NoIOFail := by
  unfold State.nextSample
  split <;> exact h

theorem sim_sameNoFail : Sim SameNoFail where
  log e _ _ h := h.map (f := fun s => s.log e) id
  d0 v _ _ h := h.map (f := fun s => { s with d0 := v }) id
  d1 v _ _ h := h.map (f := fun s => { s with d1 := v }) id
  d2 v _ _ h := h.map (f := fun s => { s with d2 := v }) id
  d3 v _ _ h := h.map (f := fun s => { s with d3 := v }) id
  pbuf q _ _ h := h.map (f := fun s => { s with pbuf := q }) id
  succeeded len _ _ h := h.map (f := fun s => s.succeeded len) id
  errored code w len _ _ h := h.map (f := fun s => s.errored code w len) id

theorem matrixSim_sameNoFail : MatrixSim SameNoFail where
  toSim := sim_sameNoFail
  rot_eq h := congrArg State.rot h.1
  omap_eq h := congrArg State.omap h.1
  mem_eq h := congrArg State.mem h.1
  rot v _ _ h := h.map (f := fun s => { s with rot := v }) id
  mem m _ _ h := h.map (f := fun s => { s with mem := m }) id
  spoil off _ _ h := h.map (f := fun s => s.spoilCell off) id
  fbAnswer h := congrArg (State.fbAnswer · 0) h.1
  fbUsed n es s _ h := h.map (f := fun s => s.fbUsed n es) (noFail_fbUsed s n es)
  imgAnswer h := congrArg State.imgAnswer h.1
  opened src a _ _ h := h.map (f := fun s => s.opened src a) id
  sample {s _} h := ⟨congrArg (fun s => s.nextSample.1) h.1, h.map (f := fun s => s.nextSample.2) (noFail_nextSample s)⟩

theorem sensorSim_sameNoFail : SensorSim SameNoFail where
  toSim := sim_sameNoFail
  cfg_eq h := congrArg State.cfg h.1
  cycles_eq h := congrArg State.cycles h.1
  gain v _ _ h := h.map (f := fun s => { s with gain := v }) id
  integration c w _ _ h := h.map (f := fun s => { s with cycles := c, timing := w }) id
  busAnswer h := congrArg (State.busAnswer · 0) h.1
  busUsed n es s _ h := h.map (f := fun s => s.busUsed n es) (noFail_busUsed s n es)
  data reg s _ h := ⟨congrArg (fun s => (s.nextData reg).1) h.1, h.map (f := fun s => (s.nextData reg).2)
    (noFail_congr (nextData_ports s reg).1 (nextData_ports s reg).2.1)⟩

theorem exec_keeps_noIOFail {i : Instr} {s t : State} (hs : s.NoIOFail) (h : exec i s = .next t) : t.NoIOFail := by
  have hrel := exec_sim matrixSim_sameNoFail sensorSim_sameNoFail i (s := s) ⟨rfl, hs⟩
  rw [h] at hrel
  obtain ⟨-, -, -, hend⟩ := hrel.of_next
  exact hend

theorem exec_err_ne_four {i : Instr} {s t : State} (hs : s.NoIOFail) (h : exec i s = .next t) : t.err ≠ 4 := by
  cases exec_next h with
  | ok u v es hp htr he hm hst hw ht => simp [ht, State.succeeded]
  | invalid k u es hp htr hq hk hk' himg hgr hne hm ht =>
    rw [(errored_status hp ht).1]
    exact mt ErrKind.code_eq_four.mp hk
  | fail c u es hp htr he hm hst hn ht => exact absurd hs hn

/-- Settles O54: DeviceIOError and a stuck command each need an answer that is not ok, and commands only use answers up. -/
theorem noIOFailNoDeviceError : Obligations.NoIOFailNoDeviceError :=
  fun _ _ hs => ⟨fun _ h => ⟨exec_err_ne_four hs h, exec_keeps_noIOFail hs h⟩, fun _ h => (exec_stuck h).2 hs⟩

end Sys2Proof.Machine
end

section
/-! A whole frame written: SETPIXELS and CLEAR, and one pixel (42_frame.md sections 1 to 3). -/

namespace Sys2Proof.Machine
open Laws

/-! ### The commands by their frame write -/

theorem exec_setpixels_wrongLength {cs : List RGB} (s : State) (h : cs.length ≠ 64) :
    exec (.setpixels cs) s = .next (s.errored 2 0 (1 + cs.length)) := by
  rw [exec, execSetpixels, if_neg h, finish_err]
  rfl

theorem exec_setpixels {cs : List RGB} (s : State) (h : cs.length = 64) :
    exec (.setpixels cs) s = (writeFrame cs s).finish 65 .nothing fun _ t => t := by
  rw [exec, execSetpixels, if_pos h, h]

theorem exec_clear (c : RGB) (s : State) :
    exec (.clear c) s = (writeFrame (Vector.replicate 64 c).toList s).finish 1 .nothing fun _ t => t := by
  rw [Vector.toList_replicate]
  rfl

/-- The framebuffer after a whole frame was written. -/
def State.frameMem (s : State) (k : Fin 4) (cs : Vector RGB 64) : Memory :=
  memWritten s.mem (frameWrites (s.omap.get k) cs.toList)

theorem writeFrame_vector_ok {s : State} {k : Fin 4} (cs : Vector RGB 64) (hr : s.Rotated k)
    (ha : ∀ n < 65, s.fbAnswer n = .ok) :
    writeFrame cs.toList s = .ok () ({ s with mem := s.frameMem k cs }.fbUsed 65
      ([Event.fbAcquire (.ok ())] ++ s.frameEvents k cs ++ [Event.fbRelease])) := by
  rw [writeFrame_ok hr cs.length_toList ha, writeEvents_frameEvents]
  rfl

/-- A state that holds the written frame: every logical cell its colour, the bytes from 128 on their old values. -/
theorem frameMem_written {s t : State} {k : Fin 4} {cs : Vector RGB 64} (hwf : s.mem.wf) (ho : s.OmapOk)
    (ht : t.mem = s.frameMem k cs) :
    (∀ L : Fin 64, t.cellAt (s.offsetOf k L) = pack (cs.get L)) ∧ ∀ a, 128 ≤ a → t.byteAt a = s.byteAt a := by
  refine ⟨fun L => ?_, fun a ha => ?_⟩
  · show memCell t.mem _ = _
    rw [ht]
    exact memCell_frame hwf ho L
  · rw [State.byteAt, ht]
    exact memGet_frame_high _ _ _ ha

/-! ### SETPIXELS (R146) -/

/-- Settles O25: the length check, then a frame write whose requests are all answered ok. -/
theorem setpixelsCommand : Obligations.SetpixelsCommand := by
  refine ⟨fun _ s => exec_setpixels_wrongLength s, fun cs s k hwf ho hr ha => ?_⟩
  rw [exec_setpixels s cs.length_toList, writeFrame_vector_ok cs hr ha, finish_ok]
  obtain ⟨hcells, hhigh⟩ := frameMem_written (t := { s with mem := s.frameMem k cs }) hwf ho rfl
  exact ⟨_, rfl, hcells, hhigh, rfl⟩

/-! ### CLEAR (R150) -/

/-- Every cell of bytes 0..127 is some logical cell (41_mapper.md R125). -/
theorem exists_offsetOf {s : State} (ho : s.OmapOk) (k : Fin 4) {i : Nat} (hi : i < 64) :
    ∃ L : Fin 64, s.offsetOf k L = 2 * i := by
  obtain ⟨L, hL, -⟩ := omapBijections k (BitVec.ofNat 6 i)
  have hnat : (BitVec.ofNat 6 i).toNat = i := by rw [BitVec.toNat_ofNat, Nat.mod_eq_of_lt hi]
  exact ⟨L, by rw [State.offsetOf, ho, hL, hnat, Nat.mul_comm]⟩

/-- Settles O28: a frame of one colour, whose logical cells are all the cells. -/
theorem clearCommand : Obligations.ClearCommand := by
  refine ⟨fun c => decode_encode_append (i := .clear c) rfl, fun c s k hwf ho hr ha => ?_⟩
  have hcolour (L : Fin 64) : (Vector.replicate 64 c).get L = c := by simp [Vector.get]
  rw [exec_clear, writeFrame_vector_ok _ hr ha, finish_ok]
  obtain ⟨hcells, hhigh⟩ :=
    frameMem_written (cs := Vector.replicate 64 c) (t := { s with mem := s.frameMem k (Vector.replicate 64 c) }) hwf ho rfl
  refine ⟨_, rfl, fun i hi => ?_, hhigh, ?_⟩
  · obtain ⟨L, hL⟩ := exists_offsetOf ho k hi
    rw [← hL]
    exact (hcells L).trans (congrArg pack (hcolour L))
  · simp only [State.frameEvents, hcolour]
    rfl

/-! ### One pixel -/

/-- SETPIXEL at an address: its one write leaves every byte outside the cell alone, done, failed or not come to. -/
theorem exec_setpixel_frame {x y : Byte} {c : RGB} {s t : State} {P : BitVec 6} (hP : address x y s = .ok P s)
    (h : exec (.setpixel x y c) s = .next t) {a : Nat} (h0 : a ≠ byteOffset P) (h1 : a ≠ byteOffset P + 1) :
    t.byteAt a = s.byteAt a := by
  rw [exec_setpixel, hP, bind_ok] at h
  cases a0 : s.fbAnswer 0 with
  | ok =>
    cases a1 : s.fbAnswer 1 with
    | ok =>
      rw [withFb_memWrite_ok _ _ a0 a1, finish_ok] at h
      cases h
      exact memGet_memSetCell_other s.mem (pack c) h0 h1
    | fail e =>
      rw [withFb_memWrite_fail _ _ a0 a1, finish_deviceIOError] at h
      cases h
      exact byteAt_spoilCell_other s h0 h1
    | stall =>
      rw [withFb_ok a0, memWrite_stall _ _ (by rwa [fbUsed_fbAnswer]), release_stall, finish_stall] at h
      cases h
  | fail e =>
    rw [withFb_fail a0, finish_deviceIOError] at h
    cases h
    rfl
  | stall =>
    rw [withFb_stall a0, finish_stall] at h
    cases h

/-- Settles O24: the address computation gives the cell, or a validation error that writes nothing. -/
theorem setpixelFrame : Obligations.SetpixelFrame := by
  intro x y c s t h
  rcases address_cases x y s with ⟨-, P, hP⟩ | ⟨k, -, hk⟩ | ⟨-, -, hn⟩
  · refine ⟨fun P' u hP' a h0 h1 => ?_, fun hnone => absurd ⟨P, s, hP⟩ hnone⟩
    cases hP.symm.trans hP'
    exact exec_setpixel_frame hP h h0 h1
  · rw [exec_setpixel_invalid c hk] at h
    cases h
    exact ⟨fun _ _ hP => (nomatch hk.symm.trans hP), fun _ _ => rfl⟩
  · rw [exec_setpixel, hn, bind_unwritten, finish_unwritten] at h
    cases h

/-! ### A write and a read, both of which succeed -/

/-- A command that completes without an error completed its work. -/
theorem finish_of_err_zero {α : Type} {len : Nat} {n : Results} {w : α → State → State} {r : Res α} {t : State}
    (h : r.finish len n w = .next t) (herr : t.err = 0) : ∃ a u, r = .ok a u ∧ t = (w a u).succeeded len := by
  rcases finish_next h with hok | ⟨k, c, u, -, rfl⟩
  · exact hok
  · have hcode : (BitVec.ofNat 8 k.code.toNat) = 0 := herr
    have hpos := k.code_pos
    rw [BitVec.ofNat_toNat, BitVec.setWidth_eq] at hcode
    rw [hcode] at hpos
    cases hpos

theorem memWrite_inv {off : Nat} {v : Half} {s t : State} (h : memWrite off v s = .ok () t) :
    t.mem = memSetCell s.mem off v := by
  cases a0 : s.fbAnswer 0 with
  | ok => rw [memWrite_ok _ _ a0] at h; cases h; rfl
  | fail c => rw [memWrite_fail _ _ a0] at h; cases h
  | stall => rw [memWrite_stall _ _ a0] at h; cases h

theorem memRead_inv {off : Nat} {v : Half} {s t : State} (h : memRead off s = .ok v t) : v = s.cellAt off := by
  cases a0 : s.fbAnswer 0 with
  | ok => rw [memRead_ok _ a0] at h; cases h; rfl
  | fail c => rw [memRead_fail _ a0] at h; cases h
  | stall => rw [memRead_stall _ a0] at h; cases h

/-- A SETPIXEL that succeeds wrote the cell at its address. -/
theorem exec_setpixel_of_err_zero {x y : Byte} {c : RGB} {s t : State} (h : exec (.setpixel x y c) s = .next t)
    (herr : t.err = 0) : ∃ P, address x y s = .ok P s ∧ t.mem = memSetCell s.mem (byteOffset P) (pack c) := by
  obtain ⟨_, u, hwork, rfl⟩ := finish_of_err_zero h herr
  obtain ⟨P, v, hP, hwrite⟩ := bind_eq_ok hwork
  obtain ⟨w, hmem, rfl⟩ := withFb_inv hwrite
  rcases address_cases x y s with ⟨-, P', hP'⟩ | ⟨k, -, hk⟩ | ⟨-, -, hn⟩
  · cases hP.symm.trans hP'
    have hwritten := memWrite_inv hmem
    exact ⟨P, hP, hwritten⟩
  · cases hP.symm.trans hk
  · cases hP.symm.trans hn

/-- A GETPIXEL that succeeds delivers the cell at its address. -/
theorem exec_getpixel_of_err_zero {x y : Byte} {s t : State} {P : BitVec 6} (hP : address x y s = .ok P s)
    (h : exec (.getpixel x y) s = .next t) (herr : t.err = 0) :
    t.d0 = some ((rgb24 (unpack (s.cellAt (byteOffset P)))).setWidth 32) := by
  obtain ⟨v, u, hwork, rfl⟩ := finish_of_err_zero h herr
  rw [hP, bind_ok] at hwork
  obtain ⟨w, hread, rfl⟩ := withFb_inv hwork
  have hv := memRead_inv hread
  subst hv
  rfl

/-- Settles O33: both commands compute the same address, and a cell that was written reads back. -/
theorem setThenGetPixel : Obligations.SetThenGetPixel := by
  intro x y c s t u hwf hset hset0 hget hget0
  obtain ⟨P, hP, hmem⟩ := exec_setpixel_of_err_zero hset hset0
  have hrot : t.rot = s.rot := (exec_keeps_registers hset).1 (by simp)
  have homap : t.omap = s.omap := (exec_keeps_fixed hset).1
  have hcell : t.cellAt (byteOffset P) = pack c := by
    show memCell t.mem _ = _
    rw [hmem]
    exact memCell_memSetCell_same hwf _ _
  rw [exec_getpixel_of_err_zero (address_congr hrot homap hP) hget hget0, hcell, setWidth_rgb24]

/-! ### A frame written and read back -/

/-- A SETPIXELS that succeeds ran under a supported rotation and wrote the frame. -/
theorem exec_setpixels_of_err_zero {cs : Vector RGB 64} {s t : State} (h : exec (.setpixels cs.toList) s = .next t)
    (herr : t.err = 0) : ∃ k, s.Rotated k ∧ t.mem = s.frameMem k cs := by
  rw [exec_setpixels s cs.length_toList] at h
  obtain ⟨_, u, hwork, rfl⟩ := finish_of_err_zero h herr
  obtain ⟨tbl, v, htbl, hwrite⟩ := bind_eq_ok hwork
  obtain ⟨w, hmem, rfl⟩ := withFb_inv hwrite
  rcases selectTable_cases s with ⟨k, hr, hk⟩ | ⟨r, -, -, hbad⟩ | ⟨-, hn⟩
  · cases htbl.symm.trans hk
    have hwritten := writeCells_inv hmem
    exact ⟨k, hr, hwritten⟩
  · cases htbl.symm.trans hbad
  · cases htbl.symm.trans hn

/-- A GETPIXELS that succeeds delivers every logical cell. -/
theorem exec_getpixels_of_err_zero {s t : State} {k : Fin 4} (hr : s.Rotated k) (h : exec .getpixels s = .next t)
    (herr : t.err = 0) (L : Fin 64) : t.pbuf.get L = some (rgb24 (unpack (s.cellAt (s.offsetOf k L)))) := by
  rw [exec_getpixels, selectTable_rotated hr, bind_ok] at h
  obtain ⟨vs, u, hwork, rfl⟩ := finish_of_err_zero h herr
  obtain ⟨w, hread, rfl⟩ := withFb_inv hwork
  have hvs := readCells_inv hread
  subst hvs
  rw [← setPixels_frame_get s k L, setPixels_get]
  exact setPixels_get (fbRelease w) _ L

/-- Settles O34: both commands run under the same rotation, so a logical cell is read where it was written. -/
theorem frameRoundTrip : Obligations.FrameRoundTrip := by
  intro cs s t u hwf ho hset hset0 hget hget0 L
  obtain ⟨k, hr, hmem⟩ := exec_setpixels_of_err_zero hset hset0
  have hrot : t.Rotated k := ((exec_keeps_registers hset).1 (by simp)).trans hr
  have homap : t.omap = s.omap := (exec_keeps_fixed hset).1
  have hoffset : t.offsetOf k L = s.offsetOf k L := by rw [State.offsetOf, homap, State.offsetOf]
  rw [exec_getpixels_of_err_zero hrot hget hget0 L, hoffset, (frameMem_written hwf ho hmem).1 L]

end Sys2Proof.Machine
end

section
/-! LDIMG (42_frame.md section 4), and the frame writes that do not come to their end (42_frame.md sections 1 and 3,
70_reset_and_hazards.md section 3). -/

namespace Sys2Proof.Machine

/-! ### The image opened and sampled -/

/-- The state after the image answered and its 64 samples `ps` were taken. -/
def State.imaged (s : State) (src : Half) (ps : Vector Sample 64) (fc : Nat) : State :=
  { s with trace := s.trace ++ imageEvents src ps, ports := s.ports.afterImage 0, freeCount := fc }

/-- Framebuffer requests after the image, in the terms of the state before it. -/
theorem imaged_fbUsed (s : State) (src : Half) (ps : Vector Sample 64) (fc fc' n : Nat) (m : Memory)
    (es : List Event) :
    { s.imaged src ps fc with mem := m, freeCount := fc' }.fbUsed n es = { s with
      mem := m, trace := s.trace ++ (imageEvents src ps ++ es), ports := s.ports.afterImage n, freeCount := fc' } := by
  simp [State.fbUsed, State.imaged, Ports.afterImage]

/-- The colours of the samples, as LDIMG computes them. -/
theorem map_sampleColour (ps : Vector Sample 64) : ps.toList.map sampleColour = (ps.map highBytes).toList :=
  Vector.toList_map.symm

theorem exec_ldimg_plain {s : State} (src : Half) (himg : s.imgAnswer = .ok) :
    ∃ (ps : Vector Sample 64) (fc : Nat), SamplesOf s ps ∧ exec (.ldimg src false) s =
      .next (((s.imaged src ps fc).setPixels (ps.map highBytes).toList).succeeded 1) := by
  obtain ⟨ps, fc, t, rfl, hps, hexec⟩ := execLdimg_sampled src false himg
  refine ⟨ps, fc, hps, hexec.trans ?_⟩
  rw [if_neg Bool.false_ne_true, finish_ok, map_sampleColour]
  rfl

/-- With redraw LDIMG is a frame write of the sampled colours, after the image; `PBUF` gets the colours if it went well. -/
theorem exec_ldimg_redraw {s : State} (src : Half) (himg : s.imgAnswer = .ok) :
    ∃ (ps : Vector Sample 64) (fc : Nat), SamplesOf s ps ∧ exec (.ldimg src true) s =
      (writeFrame (ps.map highBytes).toList (s.imaged src ps fc)).finish 1 .pbuf
        fun _ u => u.setPixels (ps.map highBytes).toList := by
  obtain ⟨ps, fc, t, rfl, hps, hexec⟩ := execLdimg_sampled src true himg
  refine ⟨ps, fc, hps, hexec.trans ?_⟩
  rw [if_pos rfl, map_sampleColour]
  exact finish_bind_ok _ (fun _ => (ps.map highBytes).toList) 1 .pbuf fun img u => u.setPixels img

theorem setPixels_vector_get (s : State) (cs : Vector RGB 64) (L : Fin 64) :
    (s.setPixels cs.toList).pbuf.get L = some (rgb24 (cs.get L)) := by
  rw [setPixels_get, List.getElem?_eq_getElem (by simp)]
  rfl

theorem get_map_highBytes (ps : Vector Sample 64) (L : Fin 64) : (ps.map highBytes).get L = highBytes (ps.get L) := by
  simp [Vector.get]

/-- Settles O29: the image's requests, and `PBUF` written with the sampled colours. -/
theorem ldimgCommand : Obligations.LdimgCommand := by
  intro src s himg
  obtain ⟨ps, fc, hps, hexec⟩ := exec_ldimg_plain src himg
  refine ⟨_, ps, hexec, hps, fun L => ?_, rfl⟩
  rw [← get_map_highBytes]
  exact setPixels_vector_get (s.imaged src ps fc) _ L

/-- Settles O30: the image's requests, then a frame write of the sampled colours whose requests are all answered ok. -/
theorem ldimgRedraw : Obligations.LdimgRedraw := by
  intro src s k hwf ho himg hr ha
  obtain ⟨ps, fc, hps, hexec⟩ := exec_ldimg_redraw src himg
  rw [writeFrame_vector_ok (s := s.imaged src ps fc) (k := k) _ hr ha, finish_ok] at hexec
  obtain ⟨hcells, hhigh⟩ := frameMem_written (t := { s with mem := s.frameMem k (ps.map highBytes) }) hwf ho rfl
  refine ⟨_, ps, hexec, hps, fun L => ⟨?_, ?_⟩, hhigh, ?_⟩
  · rw [← get_map_highBytes]
    exact setPixels_vector_get (s.imaged src ps fc) _ L
  · rw [← get_map_highBytes]
    exact hcells L
  · have huse := imaged_fbUsed s src ps fc fc 65 (s.frameMem k (ps.map highBytes))
      ([Event.fbAcquire (.ok ())] ++ s.frameEvents k (ps.map highBytes) ++ [Event.fbRelease])
    simp only [← List.append_assoc] at huse ⊢
    exact congrArg (fun u => (u.setPixels (ps.map highBytes).toList).succeeded 1) huse

/-! ### An image that does not open (R152) -/

theorem exec_ldimg (src : Half) (redraw : Bool) (s : State) : exec (.ldimg src redraw) s = execLdimg src redraw s := rfl

theorem exec_ldimg_notFound {s : State} (src : Half) (redraw : Bool) (h : s.imgAnswer = .notFound) :
    exec (.ldimg src redraw) s = .next (((s.opened src .notFound).dropResults .pbuf).errored 8 0 1) := by
  rw [exec_ldimg, execLdimg, imgOpen_notFound src h, bind_err, finish_err]
  rfl

theorem exec_ldimg_decodeError {s : State} (src : Half) (redraw : Bool) (h : s.imgAnswer = .decodeError) :
    exec (.ldimg src redraw) s = .next (((s.opened src .decodeError).dropResults .pbuf).errored 9 0 1) := by
  rw [exec_ldimg, execLdimg, imgOpen_decodeError src h, bind_err, finish_err]
  rfl

/-- Settles O31: the failing answers of `ImgOpen` end LDIMG before it samples the image or reads `ROT`. -/
theorem ldimgImageErrors : Obligations.LdimgImageErrors :=
  fun src redraw _ => ⟨fun h => ⟨_, exec_ldimg_notFound src redraw h, rfl⟩,
    fun h => ⟨_, exec_ldimg_decodeError src redraw h, rfl⟩⟩

/-! ### An unsupported rotation -/

/-- Settles O26: each command comes to the selector before its first framebuffer request. -/
theorem bulkCommandsNeedSupportedRotation : Obligations.BulkCommandsNeedSupportedRotation := by
  intro s r hr hu
  obtain ⟨-, hgetpixels, -⟩ := getpixelsCommand
  refine ⟨fun cs hlen => ?_, fun c => ?_, hgetpixels s r hr hu, fun src himg => ?_⟩
  · rw [exec_setpixels s hlen, writeFrame_unsupported cs hr hu, finish_invalidRotation, dropResults_nothing]
  · rw [exec_clear, writeFrame_unsupported _ hr hu, finish_invalidRotation, dropResults_nothing]
  · obtain ⟨u, -, hexec⟩ := exec_ldimg_unsupported src himg hr hu
    obtain ⟨⟨hmem, -⟩, hquiet, -⟩ := exec_error_of_ne_device hexec (by simp [State.errored])
    exact ⟨_, hexec, rfl, rfl, hmem, hquiet⟩

/-! ### A frame write whose acquire or whose write of one cell fails -/

/-- Settles O32: a frame write that fails at one cell or at its acquire, completed as each of its three users does. -/
theorem frameWriteFailsPartway : Obligations.FrameWriteFailsPartway := by
  refine ⟨fun s k n e hwf ho hr ha hf => ⟨fun cs => ?_, fun c => ?_, fun src himg => ?_⟩,
    fun s k e hr hf => ⟨fun cs hlen => ?_, fun c => ?_, fun src himg => ?_⟩⟩
  · rw [exec_setpixels s cs.length_toList, writeFrame_fail hr ha hf, finish_deviceIOError, dropResults_nothing]
    exact ⟨_, rfl, partFrame_written k n hwf ho, rfl⟩
  · rw [exec_clear, writeFrame_fail hr ha hf, finish_deviceIOError, dropResults_nothing]
    exact ⟨_, rfl, partFrame_written k n hwf ho, rfl⟩
  · obtain ⟨ps, fc, hps, hexec⟩ := exec_ldimg_redraw src himg
    rw [writeFrame_fail (s := s.imaged src ps fc) (k := k) hr ha hf, finish_deviceIOError] at hexec
    refine ⟨_, ps, hexec, hps, partFrame_written (s := s.imaged src ps fc) k n hwf ho, ?_⟩
    exact congrArg (fun u => (u.dropResults .pbuf).errored 4 e 1) (imaged_fbUsed s src ps fc _ _ _ _)
  · rw [exec_setpixels s hlen, writeFrame_acquireFail hr hf, finish_deviceIOError, dropResults_nothing]
  · rw [exec_clear, writeFrame_acquireFail hr hf, finish_deviceIOError, dropResults_nothing]
  · obtain ⟨ps, fc, hps, hexec⟩ := exec_ldimg_redraw src himg
    rw [writeFrame_acquireFail (s := s.imaged src ps fc) (k := k) hr hf, finish_deviceIOError] at hexec
    refine ⟨_, ps, hexec, hps, ?_⟩
    exact congrArg (fun u => (u.dropResults .pbuf).errored 4 e 1) (imaged_fbUsed s src ps fc fc 1 s.mem _)

end Sys2Proof.Machine
end

section
/-! Which error is reported (60_exceptions.md section 2), what a stuck command leaves (section 3), and the requests at which
each command can be stuck. -/

namespace Sys2Proof.Machine

/-! ### The priority of errors -/

theorem exec_mapxy_offGrid {x y : Byte} (s : State) (h : ¬ OnGrid x y) :
    exec (.mapxy x y) s = .next ({ s with d0 := none, d1 := none }.errored 1 0 1) := by
  rw [exec_mapxy, address_offGrid h, finish_err]
  rfl

/-- Settles O45: coordinates, length and image are checked before `ROT` is read, and `exec_unsupported` says what a command
does that comes to that read. -/
theorem errorPriority : Obligations.ErrorPriority := by
  refine fun s t => ⟨fun x y c i hg hi h => ?_, fun cs hlen h => ?_, fun src redraw himg h => ?_,
    fun src redraw himg h => ?_, fun i r hn hr hu h => ?_⟩
  · simp only [List.mem_cons, List.not_mem_nil, or_false] at hi
    rcases hi with rfl | rfl | rfl
    · cases h.symm.trans (exec_mapxy_offGrid s hg)
      rfl
    · cases h.symm.trans (exec_getpixel_invalid (address_offGrid hg))
      rfl
    · cases h.symm.trans (exec_setpixel_invalid c (address_offGrid hg))
      rfl
  · cases h.symm.trans (exec_setpixels_wrongLength s hlen)
    rfl
  · cases h.symm.trans (exec_ldimg_notFound src redraw himg)
    rfl
  · cases h.symm.trans (exec_ldimg_decodeError src redraw himg)
    rfl
  · obtain ⟨u, -, hexec⟩ := exec_unsupported hn hr hu
    cases h.symm.trans hexec
    rfl

/-! ### A command that has not completed -/

/-- Port requests change nothing but the framebuffer, the trace, the answers to come and the counter of free values. -/
theorem PortStep.eq_with {s t : State} (h : PortStep s t) :
    t = { s with mem := t.mem, trace := t.trace, ports := t.ports, freeCount := t.freeCount } := by
  obtain ⟨err, errLog, errCause, rot, gain, cycles, timing, d0, d1, d2, d3, pbuf, omap, cp, words, cfg, -⟩ := h
  rw [← err, ← errLog, ← errCause, ← rot, ← gain, ← cycles, ← timing, ← d0, ← d1, ← d2, ← d3, ← pbuf, ← omap, ← cp,
    ← words, ← cfg]

/-- Words that have not all arrived are the decoder's matter: no command stops for them. -/
theorem exec_ne_incomplete (i : Instr) (s l : State) : exec i s ≠ .fault (.incompleteCommand l) := by
  obtain ⟨α, r, w, hexec, -, -⟩ := exec_work i s
  rw [hexec]
  cases r with
  | ok a u => rw [finish_ok]; simp
  | err k c u => rw [finish_err]; simp
  | stall u => rw [finish_stall]; simp
  | unwritten u => rw [finish_unwritten]; simp

theorem step_incomplete {s l : State} (h : step s = .fault (.incompleteCommand l)) :
    l = s ∧ decode (s.words.drop s.cp) = .incomplete := by
  cases hf : decode (s.words.drop s.cp) with
  | command i =>
    rw [step_of_command hf] at h
    exact absurd h (exec_ne_incomplete i s l)
  | illegal len => rw [step_of_illegal hf] at h; cases h
  | incomplete => rw [step_of_incomplete hf] at h; cases h; exact ⟨rfl, rfl⟩
  | idle =>
    simp only [step, fetch, hf] at h
    cases h

/-! ### GETRAW at a read that is never answered -/

/-- A read that is never answered leaves the sequence stuck after the events of those before it. -/
theorem busReadAll_stall {regs regs' : List Byte} {reg : Byte} {s : State}
    (h : ∀ n < regs.length, s.busAnswer n = .ok) (hf : s.busAnswer regs.length = .stall) :
    ∃ vs t, vs.length = regs.length ∧ BusReads s (List.zipWith s.readEvent regs vs) t ∧
      busReadAll (regs ++ reg :: regs') s = .stall (t.busUsed 1 []) := by
  obtain ⟨vs, t, hall, hlen, hreads, -⟩ := busReadAll_ok h
  have hnext : t.busAnswer 0 = .stall := by
    rw [hreads.answer, List.length_zipWith, hlen, Nat.min_self, Nat.add_zero, hf]
  refine ⟨vs, t, hlen, hreads, ?_⟩
  rw [busReadAll_append, hall, bind_ok, busReadAll, busRead16_stall reg hnext, bind_stall, bind_stall]

/-- GETRAW whose read number `n` is never answered: the events of the reads before it, and nothing else. -/
theorem exec_getraw_stall {s : State} {n : Nat} (hn : n < 4) (h : ∀ m < n, s.busAnswer m = .ok)
    (hf : s.busAnswer n = .stall) :
    ∃ (vs : List Half) (l : State), vs.length = n ∧ exec .getraw s = .fault (.stuckPort l) ∧
      newEvents s l = List.zipWith s.readEvent (dataRegs.take n) vs ∧
      l = { s with trace := l.trace, ports := l.ports, freeCount := l.freeCount } := by
  have hlen : (dataRegs.take n).length = n := List.length_take_of_le hn.le
  obtain ⟨vs, t, hvs, ⟨⟨p, f, rfl⟩, -, -⟩, hall⟩ :=
    busReadAll_stall (regs := dataRegs.take n) (regs' := dataRegs.drop (n + 1))
      (reg := BitVec.ofNat 8 (0x94 + 2 * n)) (hlen.symm ▸ h) (hlen.symm ▸ hf)
  rw [← dataRegs_split hn] at hall
  refine ⟨vs, _, hvs.trans hlen, by rw [exec_getraw, hall, finish_stall], newEvents_of_append ?_, rfl⟩
  simp [State.busUsed]

/-- Settles O47: a stuck command only made port requests, one of which was not ok; and a GETRAW stuck at its second read
has the event of its first. -/
theorem stuckKeepsStatus : Obligations.StuckKeepsStatus := by
  refine ⟨fun _ _ _ h => (exec_stuck h).1.eq_with, fun _ _ _ h => (exec_stuck h).2, fun _ _ => step_incomplete,
    fun s h0 h1 => ?_⟩
  obtain ⟨vs, l, hlen, hexec, hes, -⟩ := exec_getraw_stall (by omega) (n := 1) (fun m hm => by
    obtain rfl : m = 0 := by omega
    exact h0) h1
  obtain ⟨c, rfl⟩ := List.length_eq_one_iff.mp hlen
  exact ⟨c, l, hexec, hes⟩

end Sys2Proof.Machine
end

section
/-! Every request at which a command can be stuck, and the state in which it stops there (60_exceptions.md section 3). -/

namespace Sys2Proof.Machine

/-! ### One pixel -/

theorem withFb_memRead_stall {s : State} (off : Nat) (h0 : s.fbAnswer 0 = .ok) (h1 : s.fbAnswer 1 = .stall) :
    withFb (memRead off) s = .stall (s.fbUsed 2 [.fbAcquire (.ok ())]) := by
  rw [withFb_ok h0, memRead_stall off (by rwa [fbUsed_fbAnswer]), release_stall, fbUsed_fbUsed]
  rfl

theorem withFb_memWrite_stall {s : State} (off : Nat) (v : Half) (h0 : s.fbAnswer 0 = .ok) (h1 : s.fbAnswer 1 = .stall) :
    withFb (memWrite off v) s = .stall (s.fbUsed 2 [.fbAcquire (.ok ())]) := by
  rw [withFb_ok h0, memWrite_stall off v (by rwa [fbUsed_fbAnswer]), release_stall, fbUsed_fbUsed]
  rfl

/-! ### A frame -/

/-- The read of logical cell `n` is never answered, after those of the cells before it were. -/
theorem withFb_readFrame_stall {s : State} (k : Fin 4) (n : Fin 64) (h : ∀ m ≤ n.val, s.fbAnswer m = .ok)
    (hf : s.fbAnswer (n.val + 1) = .stall) :
    withFb (readCells (frameOffsets (s.omap.get k))) s = .stall (s.fbUsed (n.val + 2) ([.fbAcquire (.ok ())] ++
      ((List.finRange 64).take n.val).map fun L =>
        Event.fbRead (s.offsetOf k L) (.ok (s.cellAt (s.offsetOf k L))))) := by
  have hlen : ((frameOffsets (s.omap.get k)).take n.val).length = n.val := by simp
  have hreads : ∀ m < ((frameOffsets (s.omap.get k)).take n.val).length,
      (s.fbUsed 1 [Event.fbAcquire (.ok ())]).fbAnswer m = .ok := by
    intro m hm
    rw [fbUsed_fbAnswer]
    exact h _ (by omega)
  have hstall : (s.fbUsed 1 [Event.fbAcquire (.ok ())]).fbAnswer ((frameOffsets (s.omap.get k)).take n.val).length =
      .stall := by
    rw [fbUsed_fbAnswer, hlen, Nat.add_comm, hf]
  have hmem : (s.fbUsed 1 [Event.fbAcquire (.ok ())]).mem = s.mem := rfl
  have hcount : 1 + (n.val + 1) = n.val + 2 := by omega
  conv in readCells _ => rw [frameOffsets_split s k n]
  rw [withFb_ok (h 0 (by omega)), readCells_stall hreads hstall, release_stall, fbUsed_fbUsed, hlen, hmem,
    readEvents_take, hcount]

theorem exec_getpixels_rotated {s : State} {k : Fin 4} (hr : s.Rotated k) :
    exec .getpixels s = (withFb (readCells (frameOffsets (s.omap.get k))) s).finish 1 .pbuf fun vs t =>
      t.setPixels (vs.map unpack) := by
  rw [exec_getpixels, selectTable_rotated hr, bind_ok]

/-! ### The bus -/

theorem exists_codeOfGain {table : List (Nat × Byte)} {level : Int} (h : ∃ p ∈ table, (p.1 : Int) = level) :
    ∃ code, codeOfGain table level = some code := by
  obtain ⟨p, hp, hlevel⟩ := h
  have hfound : (table.find? fun p => decide ((p.1 : Int) = level)).isSome :=
    List.find?_isSome.mpr ⟨p, hp, decide_eq_true hlevel⟩
  obtain ⟨q, hq⟩ := Option.isSome_iff_exists.mp hfound
  exact ⟨q.2, by rw [codeOfGain, hq, Option.map_some]⟩

theorem exec_setgain_stall {level : Half} {s : State} (h : ∃ p ∈ s.cfg.gainTable, (p.1 : Int) = level.toInt)
    (hf : s.busAnswer 0 = .stall) : exec (.setgain level) s = .fault (.stuckPort (s.busUsed 1 [])) := by
  obtain ⟨code, hcode⟩ := exists_codeOfGain h
  rw [exec_setgain_known hcode, busWrite_stall _ _ hf, finish_stall]

theorem exec_setinteg_stall {cycles : Half} {s : State} (h : 1 ≤ cycles.toInt) (h' : cycles.toInt ≤ 256)
    (hf : s.busAnswer 0 = .stall) : exec (.setinteg cycles) s = .fault (.stuckPort (s.busUsed 1 [])) := by
  rw [exec_setinteg_inside h h', busWrite_stall _ _ hf, finish_stall]

theorem exec_enable_stall (on : Bool) {s : State} (hf : s.busAnswer 0 = .stall) :
    exec (.enable on) s = .fault (.stuckPort (s.busUsed 1 [])) := by
  cases on with
  | false => rw [exec_enable_false, busWrite_stall _ _ hf, finish_stall]
  | true => rw [exec_enable_true, busWrite_stall _ _ hf, bind_stall, finish_stall]

theorem exec_enable_second_stall {s : State} (h0 : s.busAnswer 0 = .ok) (h1 : s.busAnswer 1 = .stall) :
    exec (.enable true) s = .fault (.stuckPort (s.busUsed 2
      [.busWrite s.cfg.sensorAddr 0x80 s.cfg.enPon (.ok ()), .delay s.cfg.settlePonUs])) := by
  rw [exec_enable_true_of_ok h0, busWrite_stall _ _ (by rwa [busUsed_busAnswer]), finish_stall, busUsed_busUsed]
  rfl

/-- Settles O59: a request that is never answered leaves each of the sequences of requests where it stands. -/
theorem stalledRequestStops : Obligations.StalledRequestStops := by
  refine ⟨fun x y c s k hg hr => ?_, fun s k hr h0 => ⟨fun cs hlen => ?_, ?_, fun c => ?_, fun src himg => ?_⟩,
    fun s k n hr ha hf => ?_,
    fun s k n hwf ho hr ha hf => ⟨fun cs => ?_, fun c => ?_, fun src himg => ?_⟩,
    fun _ _ => exec_setgain_stall, fun _ _ => exec_setinteg_stall, fun on _ => exec_enable_stall on,
    fun _ => exec_enable_second_stall, fun s n hn ha hf => ?_⟩
  · obtain ⟨-, -, -, haddress, -⟩ := addressComputation
    obtain ⟨L, -, hP⟩ := haddress x y s k hg hr
    rw [exec_getpixel, exec_setpixel, hP, bind_ok, bind_ok]
    refine ⟨fun h0 => ?_, fun h0 h1 => ?_⟩
    · rw [withFb_stall h0, withFb_stall h0, finish_stall, finish_stall]
      exact ⟨rfl, rfl⟩
    · rw [withFb_memRead_stall _ h0 h1, withFb_memWrite_stall _ _ h0 h1, finish_stall, finish_stall]
      exact ⟨rfl, rfl⟩
  · rw [exec_setpixels s hlen, writeFrame_acquireStall hr h0, finish_stall]
  · rw [exec_getpixels_rotated hr, withFb_stall h0, finish_stall]
  · rw [exec_clear, writeFrame_acquireStall hr h0, finish_stall]
  · obtain ⟨ps, fc, hps, hexec⟩ := exec_ldimg_redraw src himg
    rw [writeFrame_acquireStall (s := s.imaged src ps fc) (k := k) hr h0, finish_stall] at hexec
    have huse := imaged_fbUsed s src ps fc fc 1 s.mem []
    rw [List.append_nil] at huse
    exact ⟨_, ps, hexec, hps, huse⟩
  · rw [exec_getpixels_rotated hr, withFb_readFrame_stall k n ha hf, finish_stall]
  · rw [exec_setpixels s cs.length_toList, writeFrame_stall hr ha hf, finish_stall]
    exact ⟨_, rfl, prefix_stopped hwf ho rfl, rfl⟩
  · rw [exec_clear, writeFrame_stall hr ha hf, finish_stall]
    exact ⟨_, rfl, prefix_stopped hwf ho rfl, rfl⟩
  · obtain ⟨ps, fc, hps, hexec⟩ := exec_ldimg_redraw src himg
    rw [writeFrame_stall (s := s.imaged src ps fc) (k := k) hr ha hf, finish_stall] at hexec
    exact ⟨_, ps, hexec, hps, prefix_stopped (s := s.imaged src ps fc) hwf ho rfl,
      imaged_fbUsed s src ps fc fc (n.val + 2) _ _⟩
  · obtain ⟨vs, l, hlen, hexec, hes, hl⟩ := exec_getraw_stall hn ha hf
    have hregs : (dataRegs.take n).length = n := List.length_take_of_le hn.le
    exact ⟨l, hexec, by rw [hes, List.length_zipWith, hregs, hlen, Nat.min_self], hl⟩

end Sys2Proof.Machine
end

section
/-! The round trip of `pack` and `unpack` (40_codec.md section 1), and how rotations compose (41_mapper.md sections 1
and 2). -/

namespace Sys2Proof.Machine
open Laws

/-! ### The lanes through a round trip -/

/-- The high bits of an expanded lane are the lane. -/
theorem extractLsb'_append_high {m n : Nat} (x : BitVec m) (y : BitVec n) : (x ++ y).extractLsb' n m = x := by
  rw [BitVec.extractLsb'_append_eq_of_le le_rfl, Nat.sub_self, BitVec.extractLsb'_eq_self]

theorem lanes_append_eq_self (v : Half) :
    v.extractLsb' 11 5 ++ v.extractLsb' 5 6 ++ v.extractLsb' 0 5 = v := by
  have hHigh : v.extractLsb' 11 5 ++ v.extractLsb' 5 6 = v.extractLsb' 5 11 :=
    BitVec.extractLsb'_append_extractLsb'_eq_extractLsb' rfl
  have hAll : v.extractLsb' 5 11 ++ v.extractLsb' 0 5 = v.extractLsb' 0 16 :=
    BitVec.extractLsb'_append_extractLsb'_eq_extractLsb' rfl
  rw [hHigh, hAll, BitVec.extractLsb'_eq_self]

theorem pack_unpack (v : Half) : pack (unpack v) = v := by
  have hr : (v.extractLsb' 11 5 ++ v.extractLsb' 13 3).extractLsb' 3 5 = v.extractLsb' 11 5 := extractLsb'_append_high _ _
  have hg : (v.extractLsb' 5 6 ++ v.extractLsb' 9 2).extractLsb' 2 6 = v.extractLsb' 5 6 := extractLsb'_append_high _ _
  have hb : (v.extractLsb' 0 5 ++ v.extractLsb' 2 3).extractLsb' 3 5 = v.extractLsb' 0 5 := extractLsb'_append_high _ _
  rw [pack_eq_append, unpack_eq_append]
  simp only [hr, hg, hb, lanes_append_eq_self]

/-- The lanes of a packed colour are the quotients of its channels (R110). -/
theorem toNat_pack_lanes (c : RGB) : (pack c).toNat / 2048 = c.r.toNat / 8 ∧ (pack c).toNat / 32 % 64 = c.g.toNat / 4 ∧
    (pack c).toNat % 32 = c.b.toNat / 8 := by
  have hsum := (packLanes c).2
  have hr := c.r.isLt
  have hg := c.g.isLt
  have hb := c.b.isLt
  omega

/-- What a round trip makes of each channel: its high bits, with their high bits filled in below them (R111). -/
theorem unpack_pack_toNat (c : RGB) :
    (unpack (pack c)).r.toNat = c.r.toNat / 8 * 8 + c.r.toNat / 32 ∧
    (unpack (pack c)).g.toNat = c.g.toNat / 4 * 4 + c.g.toNat / 64 ∧
    (unpack (pack c)).b.toNat = c.b.toNat / 8 * 8 + c.b.toNat / 32 := by
  obtain ⟨hr, hg, hb⟩ := toNat_pack_lanes c
  have hlt := (pack c).isLt
  simp only [unpack_eq_append, toNat_append_eq_mul_add, BitVec.extractLsb'_toNat, Nat.shiftRight_eq_div_pow]
  norm_num
  omega

/-- A channel of five kept bits changes by the difference of its three high and its three low bits, which is 7 in size
when one of them is 7 and the other 0. -/
theorem loss_eq_seven_iff {n : Nat} (h : n < 256) :
    (((n / 8 * 8 + n / 32 : Nat) : Int) - n).natAbs = 7 ↔ n ∈ [7, 15, 23, 31, 224, 232, 240, 248] := by
  have hends : (((n / 8 * 8 + n / 32 : Nat) : Int) - n).natAbs = 7 ↔
      (n / 32 = 0 ∧ n % 8 = 7) ∨ (n / 32 = 7 ∧ n % 8 = 0) := by omega
  rw [hends]
  simp only [List.mem_cons, List.not_mem_nil, or_false]
  omega

/-- The quantization step bounds the loss of each channel. -/
theorem unpack_pack_bounds (c : RGB) :
    ((unpack (pack c)).r.toNat : Int) - c.r.toNat ≤ 7 ∧ (c.r.toNat : Int) - (unpack (pack c)).r.toNat ≤ 7 ∧
    ((unpack (pack c)).g.toNat : Int) - c.g.toNat ≤ 3 ∧ (c.g.toNat : Int) - (unpack (pack c)).g.toNat ≤ 3 ∧
    ((unpack (pack c)).b.toNat : Int) - c.b.toNat ≤ 7 ∧ (c.b.toNat : Int) - (unpack (pack c)).b.toNat ≤ 7 := by
  obtain ⟨hr, hg, hb⟩ := unpack_pack_toNat c
  have hrlt := c.r.isLt
  have hglt := c.g.isLt
  have hblt := c.b.isLt
  omega

/-- Settles O11: `pack` undoes `unpack`, and the arithmetic of the channels through a round trip gives the bounds. -/
theorem codecRoundTrip : Obligations.CodecRoundTrip :=
  ⟨fun c => pack_unpack (pack c), unpack_pack_bounds,
    fun c => by rw [(unpack_pack_toNat c).1, loss_eq_seven_iff c.r.isLt], by decide, pack_unpack⟩

/-! ### Rotations composed -/

theorem source_lt (d : Rotation) {r c : Nat} (hr : r < 8) (hc : c < 8) :
    (d.source r c).1 < 8 ∧ (d.source r c).2 < 8 := by
  cases d <;> simp only [Rotation.source] <;> omega

/-- Going back by `b` and then by `a` is going back by `a + b`. -/
theorem source_source : ∀ (a b : Fin 4) (r c : Fin 8),
    (rotationOf a).source ((rotationOf b).source r c).1 ((rotationOf b).source r c).2 =
      (rotationOf (a + b)).source r c := by
  decide

/-- Two maps that agree at every row and column are equal. -/
theorem ext_cells {α : Type} {m m' : Vector α 64}
    (h : ∀ r c : Fin 8, m.get (Fin.ofNat 64 (r.val * 8 + c.val)) = m'.get (Fin.ofNat 64 (r.val * 8 + c.val))) : m = m' := by
  apply Vector.ext
  intro i hi
  have hcell : Fin.ofNat 64 (i / 8 * 8 + i % 8) = ⟨i, hi⟩ := Fin.ext (by simp only [Fin.val_ofNat]; omega)
  have hget := h ⟨i / 8, by omega⟩ ⟨i % 8, by omega⟩
  rw [hcell] at hget
  exact hget

theorem rotate_rotate {α : Type} (m : Vector α 64) (a b : Fin 4) :
    rotate (rotate m (rotationOf a)) (rotationOf b) = rotate m (rotationOf (a + b)) := by
  refine ext_cells fun r c => ?_
  obtain ⟨hr, hc⟩ := source_lt (rotationOf b) r.isLt c.isLt
  rw [rotate_get_cell _ _ r.isLt c.isLt, rotate_get_cell _ _ hr hc, rotate_get_cell _ _ r.isLt c.isLt, source_source]

theorem rotate_r0 {α : Type} (m : Vector α 64) : rotate m .r0 = m :=
  ext_cells fun r c => rotate_get_cell m .r0 r.isLt c.isLt

/-- Settles O15: the entry comes from the source of its source; four quarter turns are the rotation by 0. -/
theorem rotateComposes : Obligations.RotateComposes := by
  refine ⟨fun α => rotate_rotate, fun α m => ?_⟩
  have h180 : rotate (rotate m .r90) .r90 = rotate m .r180 := rotate_rotate m 1 1
  have h270 : rotate (rotate m .r180) .r90 = rotate m .r270 := rotate_rotate m 2 1
  have h360 : rotate (rotate m .r270) .r90 = rotate m .r0 := rotate_rotate m 3 1
  rw [h180, h270, h360, rotate_r0]

/-! ### The tables in closed form -/

theorem identityMap_get {n : Nat} (h : n < 64) : identityMap.get (Fin.ofNat 64 n) = BitVec.ofNat 6 n := by
  rw [identityMap, Vector.get_ofFn, Fin.val_ofNat, Nat.mod_eq_of_lt h]

/-- Entry (r, c) of a table is the place from which the rotation brings it (R120, R123). -/
theorem omapTables_get_cell (s : Fin 4) {r c : Nat} (hr : r < 8) (hc : c < 8) :
    (omapTables.get s).get (Fin.ofNat 64 (r * 8 + c)) =
      BitVec.ofNat 6 (((rotationOf s).source r c).1 * 8 + ((rotationOf s).source r c).2) := by
  obtain ⟨hr', hc'⟩ := source_lt (rotationOf s) hr hc
  rw [omapTables, Vector.get_ofFn, rotate_get_cell _ _ hr hc, identityMap_get (by omega)]

theorem omapTables_get_cell_toNat (s : Fin 4) {r c : Nat} (hr : r < 8) (hc : c < 8) :
    ((omapTables.get s).get (Fin.ofNat 64 (r * 8 + c))).toNat =
      ((rotationOf s).source r c).1 * 8 + ((rotationOf s).source r c).2 := by
  obtain ⟨hr', hc'⟩ := source_lt (rotationOf s) hr hc
  rw [omapTables_get_cell s hr hc, BitVec.toNat_ofNat, Nat.mod_eq_of_lt (by omega)]

/-- Table `-s` at the entry of table `s` is the index itself. -/
theorem omapTables_get_neg (s : Fin 4) (r c : Fin 8) :
    (omapTables.get (0 - s)).get ((omapTables.get s).get (Fin.ofNat 64 (r.val * 8 + c.val))).toFin =
      BitVec.ofNat 6 (r.val * 8 + c.val) := by
  obtain ⟨hr, hc⟩ := source_lt (rotationOf s) r.isLt c.isLt
  rw [omapTables_get_cell s r.isLt c.isLt, BitVec.toFin_ofNat]
  have hcell := omapTables_get_cell (0 - s) hr hc
  rw [source_source, sub_add_cancel] at hcell
  exact hcell

/-- Settles O16: each table entry is its source, written out for the four rotations. -/
theorem omapClosedForms : Obligations.OmapClosedForms := by
  refine ⟨fun r c => ⟨omapTables_get_cell_toNat 0 r.isLt c.isLt, omapTables_get_cell_toNat 1 r.isLt c.isLt, ?_,
    omapTables_get_cell_toNat 3 r.isLt c.isLt⟩, fun s L => ?_⟩
  · rw [omapTables_get_cell_toNat 2 r.isLt c.isLt]
    show (7 - r.val) * 8 + (7 - c.val) = _
    omega
  · have hL : Fin.ofNat 64 (L.val / 8 * 8 + L.val % 8) = L := Fin.ext (by simp only [Fin.val_ofNat]; omega)
    have hneg := omapTables_get_neg s ⟨L.val / 8, by omega⟩ ⟨L.val % 8, by omega⟩
    rw [hL, Nat.div_add_mod'] at hneg
    exact hneg

end Sys2Proof.Machine
end
